-- ==== Sys2Proof/Word.lean ====
section
/-!
DEFINITION. The words of the Huffman codec core: a host word (32 bits) and a byte (00_scope.md R9).
-/

namespace Sys2Proof

/-- A register, a command word or the data of a 4-byte access (R21, R70, R100). -/
abbrev Word := BitVec 32

/-- A byte of a buffer, and a symbol of the code (R9, R10). -/
abbrev Byte := BitVec 8

end Sys2Proof
end

