-- ==== Sys2Proof/Syntax.lean ====
section
/-!
DEFINITION. The instructions: the commands of 30_encoding.md R101, one constructor per row of
spec/opcode_table.json.
-/

namespace Sys2Proof

/-- A command (R101, R104). Its operands are the input registers and buffers of R80, none is in the word. -/
inductive Instr where
  /-- `0x00000000` (R223). -/
  | nop
  /-- `0x00000001` (R224). -/
  | compress
  /-- `0x00000002` (R225). -/
  | decompress
  /-- `0x00000003` (R226). -/
  | analyze
  /-- `0x00000004` (R227). -/
  | parse
  /-- Any other word `w` (R103, R228). The word is kept, so that no bit of it is dropped. -/
  | illegal (w : Word)
  deriving DecidableEq, Repr

end Sys2Proof
end

