-- ==== Sys2Proof/WellFormed.lean ====
section
/-!
DEFINITION. The terms of `Instr` that a command word stands for.
-/

namespace Sys2Proof

/-- An `illegal` term holds a word that is none of the five defined ones (R103): the five words
`0x00000000` to `0x00000004` are exactly those below 5. -/
def Instr.wellFormed : Instr → Bool
  | .nop => true
  | .compress => true
  | .decompress => true
  | .analyze => true
  | .parse => true
  | .illegal w => decide (5 ≤ w.toNat)

/-- `Instr.wellFormed` as a proposition. -/
abbrev Instr.WellFormed (i : Instr) : Prop := i.wellFormed = true

end Sys2Proof
end

