-- ==== Sys2Proof/Decode.lean ====
section
/-!
DEFINITION. Decoding a command word (30_encoding.md R100 to R104) and, after it, the encoder.
-/

namespace Sys2Proof

/-- `OP`, bits [7:0] of a command word (R100). -/
def opField (w : Word) : BitVec 8 := w.extractLsb' 0 8

/-- `RSV`, bits [31:8] of a command word (R100). -/
def rsvField (w : Word) : BitVec 24 := w.extractLsb' 8 24

/-- R104: total on every word; reserved bits are never ignored (R102). -/
def decode (w : Word) : Instr :=
  if rsvField w ≠ 0 then .illegal w
  else if opField w = 0x00#8 then .nop
  else if opField w = 0x01#8 then .compress
  else if opField w = 0x02#8 then .decompress
  else if opField w = 0x03#8 then .analyze
  else if opField w = 0x04#8 then .parse
  else .illegal w

/-- Why a bit string is no command at all. -/
inductive DecodeError where
  /-- It is longer than the one word every command is (R100). -/
  | longerThanOneWord
  deriving DecidableEq, Repr

/-- Decoding `nbits` bits of value `w`, the bits above them being 0. A command is exactly one word (R100). -/
def decodeBits (nbits w : Nat) : Except DecodeError Instr :=
  if nbits ≤ 32 then .ok (decode (BitVec.ofNat nbits w |>.setWidth 32)) else .error .longerThanOneWord

/-- The decoder as the host asks for it: the command whose word has value `w` in its low `nbits` bits. -/
def decodeTableWord (nbits w : Nat) : Option Instr :=
  match decodeBits nbits w with
  | .ok i => some i
  | .error _ => none

/-- The command word of a command (R101). -/
def encode : Instr → Word
  | .nop => 0x00000000#32
  | .compress => 0x00000001#32
  | .decompress => 0x00000002#32
  | .analyze => 0x00000003#32
  | .parse => 0x00000004#32
  | .illegal w => w

end Sys2Proof
end

