-- ==== Sys2Proof/Config.lean ====
section
/-!
DEFINITION. What an implementation fixes (00_scope.md R7, 93_implementation_defined.md V6 to V8) and the
free values behind every `any` of the spec (93_implementation_defined.md V1 to V5).
-/

namespace Sys2Proof

/-- A buffer capacity: a parameter of the block with `1 ≤ cap ≤ 2^28` (R7, R8). -/
abbrev Cap := { n : Nat // 1 ≤ n ∧ n ≤ 2 ^ 28 }

/-- The open parameters of one built block. They are constants of the block: no step changes them (R24). -/
structure Config where
  /-- `IN_CAP`, the bytes of `IN_BUF` (R7). -/
  inCap : Cap
  /-- `OUT_CAP`, the bytes of `OUT_BUF` (R7). -/
  outCap : Cap
  /-- `HCC_BASE`, the platform address of the block's offset 0 (R71, D2). -/
  hccBase : Nat
  deriving DecidableEq, Repr

/-- The block `State.reset` stands for: the capacities of 95_test_vectors.md's own vectors.
DESIGN CHOICE (log 5): the spec leaves all three open. -/
def Config.standard : Config := ⟨⟨4096, by decide⟩, ⟨4096, by decide⟩, 0⟩

/-- FREE VALUE (V1 to V4): what the byte at an offset reads as, when its buffer became `any` at a given draw
and nothing has written the byte since. -/
opaque Config.anyByte : Nat → Nat → Byte

/-- FREE VALUE (V5): what a read of a result register or of an output buffer returns while the block is busy,
one fresh draw for each read (R302, R83). -/
opaque Config.anyWord : Nat → Word

end Sys2Proof
end

