-- ==== Sys2Proof/Machine/State.lean ====
section
/-!
DEFINITION. The state of the block (10_state.md), of the two agents around it (00_scope.md R6) and the state
after reset (10_state.md R56, 70_reset_and_hazards.md R290).
-/

namespace Sys2Proof.Machine

/-- Sparse data by key in one canonical form: the keys rise strictly and no entry holds what an unlisted
key reads as. Memory, `FREQ` and `CODE` are held so. -/
abbrev SMap (α : Type) := List (Nat × α)

/-- The four buffers, keyed by host offset (20_memory.md R71). An unlisted byte is undetermined: it reads as a
free value, `State.byteAt` (log 3). -/
abbrev Memory := SMap Byte

/-- The canonical form of a sparse map: strictly rising keys. -/
def SMap.sorted {α : Type} : SMap α → Bool
  | [] => true
  | [_] => true
  | (a, _) :: (b, y) :: m => decide (a < b) && SMap.sorted ((b, y) :: m)

/-- The memory is in canonical form. No entry can equal what an unlisted address reads as, because that is a
free value and no particular byte (log 3). -/
abbrev Memory.wf (m : Memory) : Prop := SMap.sorted m = true

/-- A node of the tree arena (00_scope.md R12, 10_state.md R53): a leaf with its byte and weight, or an internal node
with its weight and the indices of its children. -/
inductive Node where
  | leaf (byte : Byte) (weight : BitVec 32)
  | internal (weight : BitVec 32) (left right : BitVec 9)
  deriving DecidableEq, Repr

/-- `STATUS.ERR_CODE` (60_exceptions.md R260). Codes 8 to 15 are never produced, so they have no constructor. -/
inductive ErrCode where
  /-- 0, success. -/
  | none
  /-- 1, COMPRESS and ANALYZE of no bytes (R141). -/
  | emptyInput
  /-- 2, DECOMPRESS and PARSE of something that is no container (R199 to R207). -/
  | invalidFormat
  /-- 3, DECOMPRESS of a stream that ends before n bytes (R176). -/
  | corruptPayload
  /-- 4, a word that decodes to ILLEGAL (R228). -/
  | illegalCommand
  /-- 5, `IN_LEN > IN_CAP` (R235). -/
  | lengthError
  /-- 6, the output does not fit `OUT_CAP` (R197, R225). -/
  | outputOverflow
  /-- 7, reserved for a malformed tree, never raised (R154, log 12). -/
  | internalError
  deriving DecidableEq, Repr

/-- `STATUS.ERR_STAGE` (60_exceptions.md R262). Codes 9 to 15 are never written, so they have no constructor. -/
inductive Stage where
  | none
  | command
  | freq
  | build
  | codegen
  | pack
  | serialize
  | deserialize
  | unpack
  deriving DecidableEq, Repr

/-- What `raise <Error>(stage)` carries (00_scope.md R11). -/
structure CmdError where
  code : ErrCode
  stage : Stage
  deriving DecidableEq, Repr

/-- The result registers and tables a command writes (10_state.md R37 to R48, R52, R53). A 64-bit pair is one
field (R36). `NODE_COUNT` is the length of `arena` (log 10). -/
structure Results where
  /-- `OUT_LEN` (R37). -/
  outLen : BitVec 32
  /-- `RES_ORIG` (R38). -/
  orig : BitVec 64
  /-- `RES_PAD` (R39). -/
  pad : BitVec 3
  /-- `RES_NSYM` (R40). -/
  nsym : BitVec 9
  /-- `RES_BITS` (R41). -/
  bits : BitVec 64
  /-- `RES_PAYLOAD_OFF` (R42). -/
  payloadOff : BitVec 32
  /-- `RES_PAYLOAD_LEN` (R43). -/
  payloadLen : BitVec 32
  /-- `RES_EXT_LEN` (R44). -/
  extLen : BitVec 8
  /-- `ROOT` (R45). -/
  root : BitVec 9
  /-- `STAT_ORIG` (R46). -/
  statOrig : BitVec 32
  /-- `STAT_COMP` (R46). -/
  statComp : BitVec 32
  /-- `STAT_SAVED`, two's complement (R47). -/
  statSaved : BitVec 64
  /-- `STAT_RATIO`, two's complement (R48). -/
  statRatio : BitVec 64
  /-- `FREQ`: byte value to count, absent meaning 0 (R53, log 19). -/
  freq : SMap (BitVec 32)
  /-- `CODE`: byte value to code bits, first bit first, absent meaning the empty sequence (R53, log 19). -/
  code : SMap (List Bool)
  /-- `ARENA`, the valid entries (R53). -/
  arena : List Node
  deriving DecidableEq, Repr

/-- The result state at reset: every register 0, every table empty (R21, R56). -/
def Results.reset : Results where
  outLen := 0
  orig := 0
  pad := 0
  nsym := 0
  bits := 0
  payloadOff := 0
  payloadLen := 0
  extLen := 0
  root := 0
  statOrig := 0
  statComp := 0
  statSaved := 0
  statRatio := 0
  freq := []
  code := []
  arena := []

/-- The two access sizes of the bus (20_memory.md R70). -/
inductive Size where
  | byte
  | word
  deriving DecidableEq, Repr

/-- The two bus responses (20_memory.md R70). -/
inductive Resp where
  | okay
  | slverr
  deriving DecidableEq, Repr

/-- A bus transaction of the host: `Read(off, size)` or `Write(off, size, data)` (20_memory.md R70). -/
inductive Txn where
  | read (off : Word) (size : Size)
  | write (off : Word) (size : Size) (data : Word)
  deriving DecidableEq, Repr

/-- What the bus answers: `(data, resp)` to a read, `resp` to a write (20_memory.md R70). -/
inductive Reply where
  | read (data : Word) (resp : Resp)
  | write (resp : Resp)
  deriving DecidableEq, Repr

/-- One entry of a host program (30_encoding.md R105, R106): a transaction, or the polling loop `WAITDONE`, the
one pseudo-instruction that is no fixed list of transactions (log 2). -/
inductive HostOp where
  | txn (t : Txn)
  | waitDone
  deriving DecidableEq, Repr

/-- A choice of the scheduler (00_scope.md R6, 70_reset_and_hazards.md R290, R310): the host moves, the engine moves if
a command is in flight, or power-on reset comes from outside (log 1). -/
inductive Turn where
  | host
  | engine
  | powerOn
  deriving DecidableEq, Repr

/-- The block, the host, the schedule and the counters of the free values. -/
structure State where
  /-- The parameters of the block, which no step changes (R7, R24). -/
  cfg : Config
  /-- `CTRL.IRQ_EN` (R26). -/
  irqEn : Bool
  /-- `STATUS.BUSY` (R28, R54). -/
  busy : Bool
  /-- `STATUS.DONE` (R29). -/
  done : Bool
  /-- `STATUS.WIGN` (R31). -/
  wign : Bool
  /-- `STATUS.ERR_CODE` (R30). -/
  errCode : ErrCode
  /-- `STATUS.ERR_STAGE` (R30). -/
  errStage : Stage
  /-- `STATUS.LAST_OP` (R32). -/
  lastOp : BitVec 8
  /-- The opcode in flight, meaningful only while busy (R54). -/
  op : BitVec 8
  /-- The latched command word, meaningful only while busy (R54). -/
  cmdword : Word
  /-- `IN_LEN` (R34). -/
  inLen : BitVec 32
  /-- `EXT_LEN` (R35). -/
  extLen : BitVec 8
  /-- `SYM_SEL` (R49). -/
  symSel : BitVec 8
  /-- `NODE_SEL` (R50). -/
  nodeSel : BitVec 9
  /-- The result registers and tables (R52). -/
  res : Results
  /-- `IN_BUF`, `EXT_IN`, `OUT_BUF` and `EXT_OUT` (R76 to R79). -/
  mem : Memory
  /-- MODEL: the draw at which `IN_BUF` and `EXT_IN` last became `any` (log 3). -/
  hostEpoch : Nat
  /-- MODEL: the draw at which `OUT_BUF` last became `any` (log 3). -/
  outEpoch : Nat
  /-- MODEL: the draw at which `EXT_OUT` last became `any` (log 3). -/
  extOutEpoch : Nat
  /-- MODEL: the next draw of a free value (log 3, log 4). -/
  draws : Nat
  /-- MODEL: what the host agent still has to do (log 2). -/
  host : List HostOp
  /-- MODEL: the scheduler's next choices (log 1). -/
  turns : List Turn
  /-- MODEL: what the bus has answered, newest first (log 2). -/
  replies : List Reply
  deriving DecidableEq, Repr

/-- Why a step stops the machine: nothing does. Every error of the spec is a completion with a code in `STATUS`
(R222, R260, R263), every refused access is a bus reply (R74), so no constructor is left (log 17). -/
inductive Fault where
  deriving DecidableEq, Repr

/-- Why an instruction has no meaning in this model. -/
inductive Refusal where
  /-- Raised by an arm of `exec` whose instruction is not modelled yet; safe. No arm raises it. -/
  | notModelled (mnemonic : String)
  deriving DecidableEq, Repr

/-- The block built with parameters `c`, right after power-on reset (R290, R293), beside a host with nothing to do.
`op` and `cmdword` have no reset value in the spec: DESIGN CHOICE 0 (log 6). The buffers are `any`: nothing is listed. -/
def State.resetWith (c : Config) : State where
  cfg := c
  irqEn := false
  busy := false
  done := false
  wign := false
  errCode := .none
  errStage := .none
  lastOp := 0
  op := 0
  cmdword := 0
  inLen := 0
  extLen := 0
  symSel := 0
  nodeSel := 0
  res := Results.reset
  mem := []
  hostEpoch := 0
  outEpoch := 0
  extOutEpoch := 0
  draws := 1
  host := []
  turns := []
  replies := []

/-- The machine right after reset. -/
def State.reset : State := State.resetWith Config.standard

end Sys2Proof.Machine
end

