-- ==== Sys2Proof/Machine/Ops.lean ====
section
/-!
DEFINITION. The shared operations: sparse maps, the buffers, issuing and completing a command, the one operation by
which a command fails (what other machines call taking an exception), and the two resets.
-/

namespace Sys2Proof.Machine

/-! ## Sparse maps -/

/-- The entry at key `a`. -/
def SMap.get? {α : Type} : SMap α → Nat → Option α
  | [], _ => none
  | (c, x) :: m, a => if a = c then some x else SMap.get? m a

/-- The map with entry `x` at key `a`, in canonical form when the map was. -/
def SMap.set {α : Type} : SMap α → Nat → α → SMap α
  | [], a, x => [(a, x)]
  | (c, y) :: m, a, x =>
    if a < c then (a, x) :: (c, y) :: m
    else if a = c then (a, x) :: m
    else (c, y) :: SMap.set m a x

/-- The map without the entries at the `n` keys from `a`. -/
def SMap.eraseRange {α : Type} (m : SMap α) (a n : Nat) : SMap α :=
  m.filter fun e => !(decide (a ≤ e.1) && decide (e.1 < a + n))

/-- `MemWrite` of a byte string at ascending offsets (00_scope.md R11, 20_memory.md R81). -/
def Memory.writeBytes : Memory → Nat → List Byte → Memory
  | m, _, [] => m
  | m, a, b :: bs => Memory.writeBytes (SMap.set m a b) (a + 1) bs

/-! ## Where the buffers lie (20_memory.md R71) -/

/-- Base of `EXT_IN`. -/
def extInBase : Nat := 0x100
/-- Base of `EXT_OUT`. -/
def extOutBase : Nat := 0x200
/-- The storage bytes of `EXT_IN` and of `EXT_OUT` (R7). -/
def extCap : Nat := 256
/-- Base of `IN_BUF`. -/
def inBase : Nat := 0x10000000
/-- Base of `OUT_BUF`. -/
def outBase : Nat := 0x20000000

/-- The draw at which the buffer an offset lies in last became `any` (log 3). -/
def State.epochAt (s : State) (a : Nat) : Nat :=
  if outBase ≤ a ∧ a < outBase + s.cfg.outCap.val then s.outEpoch
  else if extOutBase ≤ a ∧ a < extOutBase + extCap then s.extOutEpoch
  else s.hostEpoch

/-- The byte of a buffer at a host offset: what was last written there, or the free value of an undetermined byte.
Reading it again, with nothing written between, gives the same byte (R83, log 3). -/
def State.byteAt (s : State) (a : Nat) : Byte :=
  match SMap.get? s.mem a with
  | some b => b
  | none => Config.anyByte (s.epochAt a) a

/-- `MemRead` of `n` bytes as a byte string (R11). -/
def State.readBytes (s : State) (a n : Nat) : List Byte :=
  (List.range n).map fun i => s.byteAt (a + i)

/-- Every byte of `OUT_BUF` becomes `any` (R263, R292): nothing of it stays listed, and its free values are new ones. -/
def State.forgetOut (s : State) : State :=
  { s with mem := SMap.eraseRange s.mem outBase s.cfg.outCap.val, outEpoch := s.draws, draws := s.draws + 1 }

/-- Every byte of `EXT_OUT` becomes `any` (R79, R263, R292). -/
def State.forgetExtOut (s : State) : State :=
  { s with mem := SMap.eraseRange s.mem extOutBase extCap, extOutEpoch := s.draws, draws := s.draws + 1 }

/-! ## Issue (43_commands.md R221) -/

/-- The effect of an accepted write of `w` to `CMD` (R221, R29, R30, R32). -/
def State.accept (s : State) (w : Word) : State :=
  { s with
    cmdword := w
    op := w.extractLsb' 0 8
    busy := true
    done := false
    errCode := .none
    errStage := .none
    lastOp := w.extractLsb' 0 8 }

/-- A host write of `w` to `CMD`: dropped with `WIGN` while busy, accepted else, illegal words included (R221). -/
def State.issue (s : State) (w : Word) : State :=
  if s.busy then { s with wign := true } else s.accept w

/-! ## Completion (43_commands.md R222) -/

/-- The last line of R222: the command is no longer in flight, and the completion event is raised (R265). -/
def State.retire (s : State) : State := { s with busy := false, done := true }

/-- What a command other than NOP writes when it succeeds (R222, R232): every result register and table, the bytes of
`OUT_BUF` from 0 (none for ANALYZE and PARSE) and the bytes of `EXT_OUT` from 0. -/
structure Success where
  res : Results
  out : List Byte
  ext : List Byte
  deriving DecidableEq, Repr

/-- Completion of a successful command other than NOP. `OUT_BUF` beyond the bytes written keeps its contents (R233);
`EXT_OUT` beyond the extension becomes `any` (R79, R232, log 8). The error fields keep the 0 of the issue (R30). -/
def State.succeed (s : State) (r : Success) : State :=
  let t := s.forgetExtOut
  State.retire
    { t with
      res := r.res
      mem := Memory.writeBytes (Memory.writeBytes t.mem extOutBase r.ext) outBase r.out }

/-- Completion of a failed command, the block's one way to report an error (R222, R263): results and tables to reset,
the output buffers `any`, the code and stage recorded. Nothing is saved and no mode changes (R267). -/
def State.fail (s : State) (e : CmdError) : State :=
  let t := s.forgetOut.forgetExtOut
  State.retire { t with res := Results.reset, errCode := e.code, errStage := e.stage }

/-- The match of R222 on what a command other than NOP returned. -/
def State.finish (s : State) : Except CmdError Success → State
  | .ok r => s.succeed r
  | .error e => s.fail e

/-! ## Reset (70_reset_and_hazards.md R290 to R293) -/

/-- Every register and table takes its reset value; the parameters, the buffers, the host and the schedule stay.
`op` and `cmdword` have none in the spec: DESIGN CHOICE 0 (log 6). -/
def State.resetRegisters (s : State) : State :=
  { s with
    irqEn := false
    busy := false
    done := false
    wign := false
    errCode := .none
    errStage := .none
    lastOp := 0
    op := 0
    cmdword := 0
    inLen := 0
    extLen := 0
    symSel := 0
    nodeSel := 0
    res := Results.reset }

/-- R291: the buffers are kept, unless a command was in flight, whose abort makes the output buffers `any` (R292). -/
def State.softReset (s : State) : State :=
  if s.busy then s.forgetOut.forgetExtOut.resetRegisters else s.resetRegisters

/-- R290: an external event at any time; every buffer becomes `any`. The host and its replies are outside the block and
stay (log 14). -/
def State.powerOnReset (s : State) : State :=
  { s.resetRegisters with
    mem := []
    hostEpoch := s.draws
    outEpoch := s.draws
    extOutEpoch := s.draws
    draws := s.draws + 1 }

/-! ## Fetch -/

/-- The command the engine finds when it moves: the word latched at the accepted `CMD` write, decoded (R220, R88). The
block fetches no code of its own (R20, log 9). -/
def State.fetched (s : State) : Instr := decode s.cmdword

end Sys2Proof.Machine
end

