-- ==== Sys2Proof/Machine/Tree.lean ====
section
/-!
DEFINITION. The Huffman tree a command works on (00_scope.md R12): the arena's nodes, each with its index, linked to
its children, so that every walk of the tree is a structural recursion. BUILD and DESERIALIZE make one together with
the arena it is read out from.
-/

namespace Sys2Proof.Machine

/-- A subtree: the arena index of its root, the root's weight, and a leaf's byte or the two subtrees. -/
inductive Tree where
  | leaf (idx : Nat) (byte : Byte) (weight : Nat)
  | node (idx : Nat) (weight : Nat) (left right : Tree)
  deriving DecidableEq, Repr

/-- The arena index of the subtree's root. -/
def Tree.idx : Tree → Nat
  | .leaf i _ _ => i
  | .node i _ _ _ => i

/-- `w(i)` (R12). -/
def Tree.weight : Tree → Nat
  | .leaf _ _ w => w
  | .node _ w _ _ => w

/-- The node of `ARENA` that the root of a subtree is (R53): a 32-bit weight and 9-bit children, which hold them
whole (R145, R148). -/
def Tree.toNode : Tree → Node
  | .leaf _ b w => .leaf b (BitVec.ofNat 32 w)
  | .node _ w l r => .internal (BitVec.ofNat 32 w) (BitVec.ofNat 9 l.idx) (BitVec.ofNat 9 r.idx)

/-- k, the number of leaves (R15). -/
def Tree.leafCount : Tree → Nat
  | .leaf _ _ _ => 1
  | .node _ _ l r => l.leafCount + r.leafCount

/-- The number of nodes, leaves and internal ones. -/
def Tree.nodeCount : Tree → Nat
  | .leaf _ _ _ => 1
  | .node _ _ l r => 1 + l.nodeCount + r.nodeCount

/-- The leaf bytes, left to right. -/
def Tree.bytes : Tree → List Byte
  | .leaf _ b _ => [b]
  | .node _ _ l r => l.bytes ++ r.bytes

/-- The nodes in pre-order, the order a parsed tree is numbered in (R208). -/
def Tree.preorder : Tree → List Node
  | .leaf i b w => [Tree.toNode (.leaf i b w)]
  | .node i w l r => Tree.toNode (.node i w l r) :: (l.preorder ++ r.preorder)

end Sys2Proof.Machine
end

