-- ==== Sys2Proof/Machine/Encoder.lean ====
section
/-!
DEFINITION. The encoder stages (40_encoder.md): FREQ, BUILD, CODEGEN and PACK, each a pure function of its inputs.
Counts and weights are exact numbers here; they are narrowed where a result is stored (log 11).
-/

namespace Sys2Proof.Machine

/-! ## FREQ (R140 to R142) -/

/-- `F[b]`, 0 for a byte value that does not occur (R140). -/
def countOf (F : SMap Nat) (b : Byte) : Nat := (SMap.get? F b.toNat).getD 0

/-- One step of the linear pass: `F[B[i]] <- F[B[i]] + 1` (R140). -/
def countByte (F : SMap Nat) (b : Byte) : SMap Nat := SMap.set F b.toNat (countOf F b + 1)

/-- The frequency table of a byte string (R140). -/
def frequencies (B : List Byte) : SMap Nat := B.foldl countByte []

/-- The FREQ stage: no bytes is the error `EmptyInputError` (R140, R141). -/
def freqStage (B : List Byte) : Except CmdError (SMap Nat) :=
  match B with
  | [] => .error ⟨.emptyInput, .freq⟩
  | b :: B => .ok (frequencies (b :: B))

/-! ## BUILD (R143 to R149) -/

/-- The leaves, in ascending byte order, numbered from `j` (R143). `FREQ` lists exactly the byte values that occur, in
that order. -/
def leavesFrom : Nat → SMap Nat → List Tree
  | _, [] => []
  | j, (b, n) :: F => .leaf j (BitVec.ofNat 8 b) n :: leavesFrom (j + 1) F

/-- The order of extraction: by weight, then by index (R144). -/
def Tree.before (t u : Tree) : Bool :=
  decide (t.weight < u.weight) || (decide (t.weight = u.weight) && decide (t.idx < u.idx))

/-- The smallest of the active nodes `t :: ts`, and the others (R144). -/
def extractMin : Tree → List Tree → Tree × List Tree
  | t, [] => (t, [])
  | t, u :: us =>
    if u.before t then ((extractMin u us).1, t :: (extractMin u us).2)
    else ((extractMin t us).1, u :: (extractMin t us).2)

/-- Node `next`, made of the first extracted node `x`, its left child, and the second, `y`, its right one (R144, R146). -/
def mergeNodes (next : Nat) (x y : Tree) : Tree := .node next (x.weight + y.weight) x y

/-- What BUILD leaves: the tree and `ARENA`, of which `ROOT` and `NODE_COUNT` are views (R144). -/
structure Built where
  root : Tree
  arena : List Node
  deriving DecidableEq, Repr

/-- The loop of R144 over the active nodes `t :: ts`: while two are left, extract the smallest twice and merge. The
first argument bounds the merges; k leaves take k - 1. -/
def mergeLoop : Nat → Nat → List Node → Tree → List Tree → Built
  | 0, _, arena, t, _ => ⟨t, arena⟩
  | fuel + 1, next, arena, t, ts =>
    match extractMin t ts with
    | (x, []) => ⟨x, arena⟩
    | (x, u :: us) =>
      let p := extractMin u us
      let m := mergeNodes next x p.1
      mergeLoop fuel (next + 1) (arena ++ [m.toNode]) m p.2

/-- The BUILD stage (R144). A table with no entry never reaches it, because FREQ raised: the answer there is the reserved
`InternalError`, which R154 and R260 say is never raised (log 12). -/
def buildStage (F : SMap Nat) : Except CmdError Built :=
  match leavesFrom 0 F with
  | [] => .error ⟨.internalError, .build⟩
  | t :: ts => .ok (mergeLoop ts.length (ts.length + 1) ((t :: ts).map Tree.toNode) t ts)

/-! ## CODEGEN (R150 to R154) -/

/-- `walk` of R150: bit 0 (`false`) to the left, bit 1 (`true`) to the right; at a leaf the path is the byte's code. -/
def walk : Tree → List Bool → SMap (List Bool) → SMap (List Bool)
  | .leaf _ b _, path, C => SMap.set C b.toNat path
  | .node _ _ l r, path, C => walk r (path ++ [true]) (walk l (path ++ [false]) C)

/-- The CODEGEN stage (R150), with the single bit 0 for a root that is a leaf (R151). -/
def codegenStage : Tree → SMap (List Bool)
  | .leaf _ b _ => SMap.set [] b.toNat [false]
  | .node i w l r => walk (.node i w l r) [] []

/-- `CODE[b]`, empty for a byte value with no code (R152). -/
def codeOf (C : SMap (List Bool)) (b : Byte) : List Bool := (SMap.get? C b.toNat).getD []

/-! ## PACK (R155 to R160) -/

/-- The concatenated codes of the input bytes (R155). -/
def codeBits (C : SMap (List Bool)) (B : List Byte) : List Bool := B.flatMap (codeOf C)

/-- `pad` (R156). -/
def padCount (T : Nat) : Nat := (8 - T % 8) % 8

/-- `byteOf` of eight bits, the first one most significant (30_encoding.md R118, R157). -/
def byteOfBits (b7 b6 b5 b4 b3 b2 b1 b0 : Bool) : Byte :=
  BitVec.ofBool b7 ++ BitVec.ofBool b6 ++ BitVec.ofBool b5 ++ BitVec.ofBool b4 ++
    BitVec.ofBool b3 ++ BitVec.ofBool b2 ++ BitVec.ofBool b1 ++ BitVec.ofBool b0

/-- The bytes of a bit sequence whose length is a multiple of 8 (R155, R157). -/
def bytesOfBits : List Bool → List Byte
  | b7 :: b6 :: b5 :: b4 :: b3 :: b2 :: b1 :: b0 :: rest => byteOfBits b7 b6 b5 b4 b3 b2 b1 b0 :: bytesOfBits rest
  | _ => []

/-- What PACK leaves: the payload and the padding count, with the bit count T they come from. -/
structure Packed where
  payload : List Byte
  pad : Nat
  bits : Nat
  deriving DecidableEq, Repr

/-- The PACK stage (R155): the codes in input order, padded with zero bits to a byte boundary. -/
def packStage (B : List Byte) (C : SMap (List Bool)) : Packed :=
  let bits := codeBits C B
  let pad := padCount bits.length
  ⟨bytesOfBits (bits ++ List.replicate pad false), pad, bits.length⟩

/-- T, the payload bit count, from the tables alone: the sum of `F[b] · CODE[b].len` (R160). -/
def bitCount (F : SMap Nat) (C : SMap (List Bool)) : Nat :=
  (F.map fun e => e.2 * (codeOf C (BitVec.ofNat 8 e.1)).length).sum

/-- L, the payload length in bytes (R158). -/
def payloadLength (T : Nat) : Nat := (T + padCount T) / 8

/-! ## The tables of COMPRESS and ANALYZE -/

/-- What FREQ, BUILD and CODEGEN leave. -/
structure Tables where
  freq : SMap Nat
  built : Built
  code : SMap (List Bool)
  deriving DecidableEq, Repr

/-- FREQ, then BUILD, then CODEGEN; the first error ends the command (R224, R226, R264). -/
def buildTables (B : List Byte) : Except CmdError Tables :=
  match freqStage B with
  | .error e => .error e
  | .ok F =>
    match buildStage F with
    | .error e => .error e
    | .ok built => .ok ⟨F, built, codegenStage built.root⟩

/-- `FREQ` as it is stored: 32-bit counts, which hold them whole (R142). -/
def storedFreq (F : SMap Nat) : SMap (BitVec 32) := F.map fun e => (e.1, BitVec.ofNat 32 e.2)

end Sys2Proof.Machine
end

