-- ==== Sys2Proof/Machine/Flags.lean ====
section
/-!
DEFINITION. The flags: `STATUS` and its write-1-to-clear (10_state.md R27 to R32, R55), `CTRL` (R26) and the `irq`
output (R57).
-/

namespace Sys2Proof.Machine

/-- R260. -/
def ErrCode.toBits : ErrCode → BitVec 4
  | .none => 0
  | .emptyInput => 1
  | .invalidFormat => 2
  | .corruptPayload => 3
  | .illegalCommand => 4
  | .lengthError => 5
  | .outputOverflow => 6
  | .internalError => 7

/-- R262. -/
def Stage.toBits : Stage → BitVec 4
  | .none => 0
  | .command => 1
  | .freq => 2
  | .build => 3
  | .codegen => 4
  | .pack => 5
  | .serialize => 6
  | .deserialize => 7
  | .unpack => 8

/-- `STATUS.ERR` equals `ERR_CODE ≠ 0` (R27, R30). -/
def State.err (s : State) : Bool := decide (s.errCode ≠ .none)

/-- `STATUS` (R27), most significant field first: reserved, LAST_OP, ERR_STAGE, ERR_CODE, reserved, WIGN, ERR, DONE,
BUSY. -/
def State.statusWord (s : State) : Word :=
  0#8 ++ s.lastOp ++ s.errStage.toBits ++ s.errCode.toBits ++ 0#4 ++
    BitVec.ofBool s.wign ++ BitVec.ofBool s.err ++ BitVec.ofBool s.done ++ BitVec.ofBool s.busy

/-- A write of `v` to `STATUS`: bit 1 clears DONE, bit 3 clears WIGN, nothing else changes (R27). It is the host's
acknowledgement of a completion (R267). -/
def State.clearStatus (s : State) (v : Word) : State :=
  { s with done := s.done && !v.getLsbD 1, wign := s.wign && !v.getLsbD 3 }

/-- `CTRL` reads `IRQ_EN` in bit 0 and 0 elsewhere (R26). -/
def State.ctrlWord (s : State) : Word := 0#31 ++ BitVec.ofBool s.irqEn

/-- A write of `v` to `CTRL`: bit 1 is a soft reset, whatever bit 0 holds; else bit 0 is `IRQ_EN` (R26, R291). -/
def State.writeCtrl (s : State) (v : Word) : State :=
  if v.getLsbD 1 then s.softReset else { s with irqEn := v.getLsbD 0 }

/-- The interrupt output (R57, R266). -/
def State.irq (s : State) : Bool := s.done && s.irqEn

end Sys2Proof.Machine
end

