-- ==== Sys2Proof/Machine/Registers.lean ====
section
/-!
DEFINITION. The register window (10_state.md R21 to R51): names, offsets, what a read returns and what a write does.
-/

namespace Sys2Proof.Machine

/-- The registers of R21, and the reserved offsets of R51. -/
inductive Reg where
  | id
  | version
  | inCap
  | outCap
  | ctrl
  | status
  | cmd
  | inLen
  | extLen
  | outLen
  | resOrigLo
  | resOrigHi
  | resPad
  | resNsym
  | resBitsLo
  | resBitsHi
  | resPayloadOff
  | resPayloadLen
  | resExtLen
  | nodeCount
  | root
  | statOrig
  | statComp
  | statSavedLo
  | statSavedHi
  | statRatioLo
  | statRatioHi
  | symSel
  | symFreq
  | symCodeLen
  | symCodeW (j : Fin 8)
  | nodeSel
  | nodeInfo
  | nodeLeft
  | nodeRight
  | nodeWeight
  | reserved
  deriving DecidableEq, Repr

/-- The rows of R21, offset and register. -/
def regTable : List (Nat × Reg) :=
  [(0x000, .id), (0x004, .version), (0x008, .inCap), (0x00C, .outCap), (0x010, .ctrl), (0x014, .status), (0x018, .cmd),
    (0x01C, .inLen), (0x020, .extLen)] ++
  [(0x024, .outLen), (0x028, .resOrigLo), (0x02C, .resOrigHi), (0x030, .resPad), (0x034, .resNsym), (0x038, .resBitsLo),
    (0x03C, .resBitsHi), (0x040, .resPayloadOff), (0x044, .resPayloadLen), (0x048, .resExtLen), (0x04C, .nodeCount),
    (0x050, .root)] ++
  [(0x054, .statOrig), (0x058, .statComp), (0x05C, .statSavedLo), (0x060, .statSavedHi), (0x064, .statRatioLo),
    (0x068, .statRatioHi)] ++
  [(0x06C, .symSel), (0x070, .symFreq), (0x074, .symCodeLen), (0x078, .symCodeW 0), (0x07C, .symCodeW 1),
    (0x080, .symCodeW 2), (0x084, .symCodeW 3), (0x088, .symCodeW 4), (0x08C, .symCodeW 5), (0x090, .symCodeW 6),
    (0x094, .symCodeW 7)] ++
  [(0x098, .nodeSel), (0x09C, .nodeInfo), (0x0A0, .nodeLeft), (0x0A4, .nodeRight), (0x0A8, .nodeWeight)]

/-- The first register of rows that an offset names; an offset of no row is reserved (R51). -/
def findReg : List (Nat × Reg) → Nat → Reg
  | [], _ => .reserved
  | (o, r) :: rows, off => if off = o then r else findReg rows off

/-- The register at an offset of the window (R21, R51). -/
def regAt (off : Nat) : Reg := findReg regTable off

/-- The offset rows give a register. -/
def findOffset : List (Nat × Reg) → Reg → Nat
  | [], _ => 0x0AC
  | (o, q) :: rows, r => if r = q then o else findOffset rows r

/-- The offset a register name stands for in host assembly (R105); the first reserved one for `reserved`. -/
def Reg.offset (r : Reg) : Nat := findOffset regTable r

/-- The R-res registers of R21, which read `any` while busy (R302). -/
def Reg.isResult : Reg → Bool
  | .outLen | .resOrigLo | .resOrigHi | .resPad | .resNsym | .resBitsLo | .resBitsHi | .resPayloadOff | .resPayloadLen
  | .resExtLen | .nodeCount | .root | .statOrig | .statComp | .statSavedLo | .statSavedHi | .statRatioLo | .statRatioHi
  | .symFreq | .symCodeLen | .symCodeW _ | .nodeInfo | .nodeLeft | .nodeRight | .nodeWeight => true
  | .id | .version | .inCap | .outCap | .ctrl | .status | .cmd | .inLen | .extLen | .symSel | .nodeSel | .reserved => false

/-! ## The readout windows (R49, R50) -/

/-- A code read as a binary number with its first bit most significant (R49). -/
def codeValue (code : List Bool) : Nat := code.foldl (fun v b => 2 * v + b.toNat) 0

/-- The code of the byte value `SYM_SEL` selects (R49). -/
def State.selectedCode (s : State) : List Bool := codeOf s.res.code s.symSel

/-- `FREQ[b]` of the byte value `SYM_SEL` selects (R49). -/
def State.selectedFreq (s : State) : BitVec 32 := (SMap.get? s.res.freq s.symSel.toNat).getD 0

/-- The node `NODE_SEL` selects, if it is a valid one (R50). -/
def State.selectedNode (s : State) : Option Node := s.res.arena[s.nodeSel.toNat]?

/-- `NODE_INFO`: bit 0 VALID, bit 1 LEAF, bits [15:8] BYTE (R50). -/
def nodeInfo : Option Node → Word
  | none => 0
  | some (.leaf b _) => 0#16 ++ b ++ 0#6 ++ 1#1 ++ 1#1
  | some (.internal _ _ _) => 1

/-- `NODE_LEFT` (R50). -/
def nodeLeft : Option Node → Word
  | some (.internal _ l _) => l.setWidth 32
  | some (.leaf _ _) => 0
  | none => 0

/-- `NODE_RIGHT` (R50). -/
def nodeRight : Option Node → Word
  | some (.internal _ _ r) => r.setWidth 32
  | some (.leaf _ _) => 0
  | none => 0

/-- `NODE_WEIGHT` (R50). -/
def nodeWeight : Option Node → Word
  | some (.leaf _ w) => w
  | some (.internal w _ _) => w
  | none => 0

/-! ## Reads and writes -/

/-- `*_LO` of a 64-bit quantity (R36). -/
def loHalf (v : BitVec 64) : Word := v.extractLsb' 0 32

/-- `*_HI` of a 64-bit quantity (R36). -/
def hiHalf (v : BitVec 64) : Word := v.extractLsb' 32 32

/-- The value of a register (R21 to R51), fields not defined reading 0. -/
def State.readReg (s : State) : Reg → Word
  | .id => 0x48554646
  | .version => 0x00000101
  | .inCap => BitVec.ofNat 32 s.cfg.inCap.val
  | .outCap => BitVec.ofNat 32 s.cfg.outCap.val
  | .ctrl => s.ctrlWord
  | .status => s.statusWord
  | .cmd => 0
  | .inLen => s.inLen
  | .extLen => s.extLen.setWidth 32
  | .outLen => s.res.outLen
  | .resOrigLo => loHalf s.res.orig
  | .resOrigHi => hiHalf s.res.orig
  | .resPad => s.res.pad.setWidth 32
  | .resNsym => s.res.nsym.setWidth 32
  | .resBitsLo => loHalf s.res.bits
  | .resBitsHi => hiHalf s.res.bits
  | .resPayloadOff => s.res.payloadOff
  | .resPayloadLen => s.res.payloadLen
  | .resExtLen => s.res.extLen.setWidth 32
  | .nodeCount => (BitVec.ofNat 10 s.res.arena.length).setWidth 32
  | .root => s.res.root.setWidth 32
  | .statOrig => s.res.statOrig
  | .statComp => s.res.statComp
  | .statSavedLo => loHalf s.res.statSaved
  | .statSavedHi => hiHalf s.res.statSaved
  | .statRatioLo => loHalf s.res.statRatio
  | .statRatioHi => hiHalf s.res.statRatio
  | .symSel => s.symSel.setWidth 32
  | .symFreq => s.selectedFreq
  | .symCodeLen => (BitVec.ofNat 8 s.selectedCode.length).setWidth 32
  | .symCodeW j => BitVec.ofNat 32 (codeValue s.selectedCode >>> (32 * j.val))
  | .nodeSel => s.nodeSel.setWidth 32
  | .nodeInfo => nodeInfo s.selectedNode
  | .nodeLeft => nodeLeft s.selectedNode
  | .nodeRight => nodeRight s.selectedNode
  | .nodeWeight => nodeWeight s.selectedNode
  | .reserved => 0

/-- A write that R301 ignores while busy, setting `WIGN`, and that does `t` when idle. -/
def State.unlessBusy (s t : State) : State := if s.busy then { s with wign := true } else t

/-- A host write of `v` to a register: RW registers keep their defined fields (R25), `CTRL` and `STATUS` take the write at
any time (R26, R27, R301), read-only and reserved registers ignore it (R22 to R24, R51). -/
def State.writeReg (s : State) (v : Word) : Reg → State
  | .ctrl => s.writeCtrl v
  | .status => s.clearStatus v
  | .cmd => s.issue v
  | .inLen => s.unlessBusy { s with inLen := v }
  | .extLen => s.unlessBusy { s with extLen := v.setWidth 8 }
  | .symSel => s.unlessBusy { s with symSel := v.setWidth 8 }
  | .nodeSel => s.unlessBusy { s with nodeSel := v.setWidth 9 }
  | .id | .version | .inCap | .outCap | .outLen | .resOrigLo | .resOrigHi | .resPad | .resNsym | .resBitsLo | .resBitsHi
  | .resPayloadOff | .resPayloadLen | .resExtLen | .nodeCount | .root | .statOrig | .statComp | .statSavedLo
  | .statSavedHi | .statRatioLo | .statRatioHi | .symFreq | .symCodeLen | .symCodeW _ | .nodeInfo | .nodeLeft | .nodeRight
  | .nodeWeight | .reserved => s

end Sys2Proof.Machine
end

