-- ==== Sys2Proof/Machine/Bus.lean ====
section
/-!
DEFINITION. The host bus (20_memory.md R70 to R75, R82 to R84) and the host agent's turn (30_encoding.md R105, R106).
-/

namespace Sys2Proof.Machine

/-! ## The address map (R71) -/

/-- The ranges of R71, the unmapped ones taken together. -/
inductive Region where
  | regs
  | extIn
  | extOut
  | inBuf
  | outBuf
  | unmapped
  deriving DecidableEq, Repr

/-- The region an offset lies in (R71). -/
def regionOf (c : Config) (off : Nat) : Region :=
  if off < extInBase then .regs
  else if off < extInBase + extCap then .extIn
  else if off < extOutBase + extCap then .extOut
  else if inBase ≤ off ∧ off < inBase + c.inCap.val then .inBuf
  else if outBase ≤ off ∧ off < outBase + c.outCap.val then .outBuf
  else .unmapped

/-- Offsets of the block from platform addresses (R71, D2, log 5): the window of 2^32 bytes at `HCC_BASE`. -/
def offsetOfAddress (c : Config) (addr : Nat) : Option Word :=
  if c.hccBase ≤ addr ∧ addr < c.hccBase + 2 ^ 32 then some (BitVec.ofNat 32 (addr - c.hccBase)) else none

/-- The engine writes these two regions, and the host only reads them (R74, R78, R79). -/
def Region.hostReadOnly : Region → Bool
  | .extOut => true
  | .outBuf => true
  | .regs => false
  | .extIn => false
  | .inBuf => false
  | .unmapped => false

/-- The accesses the map takes, before the direction is looked at: aligned words in the register window (R72); bytes, and
aligned words that lie wholly inside, in a buffer (R73); none at an unmapped offset (R74). -/
def accessible (c : Config) (off : Nat) : Size → Bool
  | .byte =>
    match regionOf c off with
    | .regs => false
    | .unmapped => false
    | .extIn => true
    | .extOut => true
    | .inBuf => true
    | .outBuf => true
  | .word =>
    decide (off % 4 = 0) &&
      match regionOf c off with
      | .regs => true
      | .unmapped => false
      | .extIn => decide (regionOf c (off + 3) = .extIn)
      | .extOut => decide (regionOf c (off + 3) = .extOut)
      | .inBuf => decide (regionOf c (off + 3) = .inBuf)
      | .outBuf => decide (regionOf c (off + 3) = .outBuf)

/-- A write is refused too where the host may only read (R74). -/
def writable (c : Config) (off : Nat) (size : Size) : Bool :=
  accessible c off size && !(regionOf c off).hostReadOnly

/-! ## Data (R75) -/

/-- What a read of a buffer transfers: four bytes, the lowest offset in bits [7:0], or one byte zero-extended (R75). -/
def State.readBuffer (s : State) (off : Nat) : Size → Word
  | .byte => (s.byteAt off).setWidth 32
  | .word => s.byteAt (off + 3) ++ s.byteAt (off + 2) ++ s.byteAt (off + 1) ++ s.byteAt off

/-- The bytes a write transfers, lowest offset first; a 1-byte write ignores the other bits of the data (R75). -/
def writeData (data : Word) : Size → List Byte
  | .byte => [data.extractLsb' 0 8]
  | .word => [data.extractLsb' 0 8, data.extractLsb' 8 8, data.extractLsb' 16 8, data.extractLsb' 24 8]

/-- `any` data of a read while busy (R302): a free word, or a free byte zero-extended, since a 1-byte read has
`data[31:8] = 0` (R75, log 4). -/
def anyData (draw : Nat) : Size → Word
  | .byte => ((Config.anyWord draw).extractLsb' 0 8).setWidth 32
  | .word => Config.anyWord draw

/-! ## Transactions -/

/-- A read whose value is the result of a command, while one is in flight: `any`, and the next such read is a fresh draw
(R302, R83). -/
def State.readWhileBusy (s : State) (size : Size) : Reply × State :=
  (.read (anyData s.draws size) .okay, { s with draws := s.draws + 1 })

/-- `Read(off, size)` (R70, R72 to R75, R302). No read changes any state of the block (R83). -/
def State.busRead (s : State) (off : Nat) (size : Size) : Reply × State :=
  if accessible s.cfg off size then
    match regionOf s.cfg off with
    | .regs =>
      if s.busy && (regAt off).isResult then s.readWhileBusy size else (.read (s.readReg (regAt off)) .okay, s)
    | .extOut => if s.busy then s.readWhileBusy size else (.read (s.readBuffer off size) .okay, s)
    | .outBuf => if s.busy then s.readWhileBusy size else (.read (s.readBuffer off size) .okay, s)
    | .extIn => (.read (s.readBuffer off size) .okay, s)
    | .inBuf => (.read (s.readBuffer off size) .okay, s)
    | .unmapped => (.read 0 .slverr, s)
  else (.read 0 .slverr, s)

/-- `Write(off, size, data)` (R70, R72 to R75, R301). A refused write changes nothing, `WIGN` included (R72, R301). -/
def State.busWrite (s : State) (off : Nat) (size : Size) (data : Word) : Reply × State :=
  if writable s.cfg off size then
    match regionOf s.cfg off with
    | .regs => (.write .okay, s.writeReg data (regAt off))
    | .extIn => (.write .okay, s.unlessBusy { s with mem := Memory.writeBytes s.mem off (writeData data size) })
    | .inBuf => (.write .okay, s.unlessBusy { s with mem := Memory.writeBytes s.mem off (writeData data size) })
    | .extOut => (.write .slverr, s)
    | .outBuf => (.write .slverr, s)
    | .unmapped => (.write .slverr, s)
  else (.write .slverr, s)

/-- What the bus makes of a transaction: the answer and the state (R70, R84). -/
def State.transact (s : State) : Txn → Reply × State
  | .read off size => s.busRead off.toNat size
  | .write off size data => s.busWrite off.toNat size data

/-- A transaction with its answer given to the host (log 2). -/
def State.perform (s : State) (t : Txn) : State :=
  let p := s.transact t
  { p.2 with replies := p.1 :: p.2.replies }

/-! ## The host agent -/

/-- The read that `WAITDONE` repeats (R106). -/
def pollStatus : Txn := .read 0x014#32 .word

/-- Bit 1 of the data of a read's answer: the exit condition of `WAITDONE` (R106). -/
def Reply.bit1 : Reply → Bool
  | .read data _ => data.getLsbD 1
  | .write _ => false

/-- The host's turn: its next transaction; or one round of `WAITDONE`, which stays until bit 1 of `STATUS` reads 1 (R106);
or nothing, when it has nothing to do. -/
def State.hostTurn (s : State) : State :=
  match s.host with
  | [] => s
  | .txn t :: rest => State.perform { s with host := rest } t
  | .waitDone :: rest =>
    if (s.transact pollStatus).1.bit1 then State.perform { s with host := rest } pollStatus
    else s.perform pollStatus

end Sys2Proof.Machine
end

