-- ==== Sys2Proof/Machine/Operands.lean ====
section
/-!
DEFINITION. The operands of the commands (20_memory.md R80): the input length, the input bytes and the extension.
-/

namespace Sys2Proof.Machine

/-- `IN_LEN` as a number (R34). -/
def State.inputLength (s : State) : Nat := s.inLen.toNat

/-- `IN_BUF[0..IN_LEN)`: the bytes to compress, or the container (R34, R76). -/
def State.inputBytes (s : State) : List Byte := s.readBytes inBase s.inputLength

/-- `EXT_IN[0..EXT_LEN)`: the extension, opaque bytes (R35, R77). -/
def State.extensionBytes (s : State) : List Byte := s.readBytes extInBase s.extLen.toNat

/-- R235: every command but NOP and ILLEGAL first checks `IN_LEN ≤ IN_CAP`, and reads no byte of `IN_BUF` when the
check fails. -/
def State.checkedInput (s : State) : Except CmdError (List Byte) :=
  if s.inputLength ≤ s.cfg.inCap.val then .ok s.inputBytes else .error ⟨.lengthError, .command⟩

end Sys2Proof.Machine
end

