-- ==== Sys2Proof/Machine/Container.lean ====
section
/-!
DEFINITION. The container (30_encoding.md R110 to R121) and the stages SERIALIZE (42_container.md R190 to R197) and
DESERIALIZE (R198 to R210).
-/

namespace Sys2Proof.Machine

/-- MAGIC and VER, the format marker (R111). -/
def marker : List Byte := [0x48#8, 0x55#8, 0x46#8, 0x46#8, 0x01#8]

/-- Tag of an internal node (R116). -/
def tagInternal : Byte := 0x00#8

/-- Tag of a leaf (R116). -/
def tagLeaf : Byte := 0x01#8

/-! ## SERIALIZE -/

/-- `le64` (R190): eight bytes, least significant first (R113). -/
def le64 (v : Nat) : List Byte := (List.range 8).map fun i => BitVec.ofNat 8 (v >>> (8 * i))

/-- The tree in pre-order, one tag a node (R115, R195). -/
def Tree.ser : Tree → List Byte
  | .leaf _ b _ => [tagLeaf, b]
  | .node _ _ l r => tagInternal :: (l.ser ++ r.ser)

/-- The container (R110, R190), of the extension `X`, the byte count `n`, the padding count, the tree and the payload. -/
def container (X : List Byte) (n pad : Nat) (root : Tree) (P : List Byte) : List Byte :=
  marker ++ (BitVec.ofNat 8 X.length :: X) ++ le64 n ++ [BitVec.ofNat 8 pad] ++ root.ser ++ P

/-- The SERIALIZE stage: a container that does not fit is refused before a byte is written (R190, R197). -/
def serializeStage (outCap : Nat) (X : List Byte) (n pad : Nat) (root : Tree) (P : List Byte) :
    Except CmdError (List Byte) :=
  if outCap < (container X n pad root P).length then .error ⟨.outputOverflow, .serialize⟩
  else .ok (container X n pad root P)

/-- `15 + E + S`, the offset of the payload in a container whose tree has k leaves (R42, R115, R120). -/
def payloadOffset (E k : Nat) : Nat := 15 + E + (3 * k - 1)

/-! ## DESERIALIZE -/

/-- `rd()` (R198): the next byte and the rest, or the end of the container. -/
def rd : List Byte → Option (Byte × List Byte)
  | [] => none
  | b :: rest => some (b, rest)

/-- `n` calls of `rd()`, in order. -/
def rdMany : Nat → List Byte → Option (List Byte × List Byte)
  | 0, C => some ([], C)
  | n + 1, C =>
    match rd C with
    | none => none
    | some (b, rest) => (rdMany n rest).map fun p => (b :: p.1, p.2)

/-- The unsigned number a byte string spells, least significant byte first (R113). -/
def ofLe : List Byte → Nat
  | [] => 0
  | b :: bs => b.toNat + 256 * ofLe bs

/-- The cursor and the counters of the tree parse (R198). -/
structure TreeCursor where
  /-- The bytes not yet read. -/
  rest : List Byte
  /-- Nodes parsed so far, the next index (R204, R208). -/
  nodes : Nat
  /-- Internal tags so far (R207). -/
  internals : Nat
  /-- Leaf bytes so far (R206). -/
  seen : List Byte
  deriving DecidableEq, Repr

/-- `parseTree` (R204); `none` is `InvalidFormatError`. The first argument bounds the nesting depth, to which R207 sets
256: a call deeper than that would follow a 256th internal tag, which has already raised (log 16). -/
def parseTree : Nat → TreeCursor → Option (Tree × TreeCursor)
  | 0, _ => none
  | depth + 1, c =>
    match rd c.rest with
    | none => none
    | some (t, rest) =>
      if t = tagLeaf then
        match rd rest with
        | none => none
        | some (b, rest') =>
          if b ∈ c.seen then none
          else some (.leaf c.nodes b 0, { c with rest := rest', nodes := c.nodes + 1, seen := b :: c.seen })
      else if t = tagInternal then
        if 255 < c.internals + 1 then none
        else
          match parseTree depth { c with rest := rest, nodes := c.nodes + 1, internals := c.internals + 1 } with
          | none => none
          | some (l, c₁) =>
            match parseTree depth c₁ with
            | none => none
            | some (r, c₂) => some (.node c.nodes 0 l r, c₂)
      else none

/-- The nesting depth R207 bounds a parse to. -/
def maxDepth : Nat := 256

/-- What DESERIALIZE returns (R198): extension, byte count, padding count, tree, payload offset, and the payload the
offset points at (R209). `ARENA` is the tree in pre-order (R208). -/
structure Parsed where
  ext : List Byte
  n : Nat
  pad : Nat
  root : Tree
  off : Nat
  payload : List Byte
  deriving DecidableEq, Repr

/-- `parseStage` after the extension: count, padding count, tree (R202 to R209), of a container of `len` bytes. -/
def parseFields (len : Nat) (X C : List Byte) : Option Parsed :=
  match rdMany 8 C with
  | none => none
  | some (count, C₁) =>
    if ofLe count = 0 then none
    else
      match rd C₁ with
      | none => none
      | some (pad, C₂) =>
        if 7 < pad.toNat then none
        else
          match parseTree maxDepth ⟨C₂, 0, 0, []⟩ with
          | none => none
          | some (t, c) => some ⟨X, ofLe count, pad.toNat, t, len - c.rest.length, c.rest⟩

/-- `parseStage` (R198): marker (R199, R200), extension (R201), then the rest. -/
def parseContainer (C : List Byte) : Option Parsed :=
  match rdMany 5 C with
  | none => none
  | some (m, C₁) =>
    if m ≠ marker then none
    else
      match rd C₁ with
      | none => none
      | some (E, C₂) =>
        match rdMany E.toNat C₂ with
        | none => none
        | some (X, C₃) => parseFields C.length X C₃

/-- The DESERIALIZE stage: every violation is the one error (R198 to R207). -/
def parseStage (C : List Byte) : Except CmdError Parsed :=
  match parseContainer C with
  | some p => .ok p
  | none => .error ⟨.invalidFormat, .deserialize⟩

end Sys2Proof.Machine
end

