-- ==== Sys2Proof/Machine/Decoder.lean ====
section
/-!
DEFINITION. The decoder stage UNPACK (41_decoder.md R170 to R180).
-/

namespace Sys2Proof.Machine

/-- The bits of a byte, most significant first (30_encoding.md R118). -/
def bitsOfByte (b : Byte) : List Bool :=
  [b.getLsbD 7, b.getLsbD 6, b.getLsbD 5, b.getLsbD 4, b.getLsbD 3, b.getLsbD 2, b.getLsbD 1, b.getLsbD 0]

/-- The payload bit stream (R118): stream bit t is bit `7 - t mod 8` of byte `t div 8`. -/
def streamBits (P : List Byte) : List Bool := P.flatMap bitsOfByte

/-- `avail`, the number of data bits of a payload of `L` bytes (R171): `8·L - pad`, and 0 where that is negative. -/
def availBits (L pad : Nat) : Nat := 8 * L - pad

/-- The stream with the padding stripped (R171): its bits are never fetched (R172), whatever their value (R177). -/
def dataBits (P : List Byte) (pad : Nat) : List Bool := (streamBits P).take (availBits P.length pad)

/-- The child a bit leads to: 0 to the left, 1 to the right (R173). -/
def childFor (bit : Bool) (l r : Tree) : Tree := if bit then r else l

/-- The loop of R173, `need` bytes before the end, at `cur`; `none` is `CorruptPayloadError` (R176). It stops as soon as the
last byte is emitted, so that residual bits are never read (R175). -/
def unpackLoop (root : Tree) : Tree → List Bool → Nat → Option (List Byte)
  | _, _, 0 => some []
  | _, [], _ + 1 => none
  | .leaf _ b _, _ :: bits, need + 1 => (unpackLoop root root bits need).map (b :: ·)
  | .node _ _ l r, bit :: bits, need + 1 =>
    match childFor bit l r with
    | .leaf _ b _ => (unpackLoop root root bits need).map (b :: ·)
    | .node i w l' r' => unpackLoop root (.node i w l' r') bits (need + 1)

/-- The UNPACK stage on the payload `P` (R173). A root that is a leaf emits its byte once per bit, whatever the bit
(R174): that is the loop's leaf case. -/
def unpackStage (root : Tree) (P : List Byte) (pad n : Nat) : Except CmdError (List Byte) :=
  match unpackLoop root root (dataBits P pad) n with
  | some out => .ok out
  | none => .error ⟨.corruptPayload, .unpack⟩

end Sys2Proof.Machine
end

