-- ==== Sys2Proof/Machine/Results.lean ====
section
/-!
DEFINITION. What the commands compute (43_commands.md R224 to R232): each command as a pure function of its inputs
(R220), and the statistics (R229 to R231).
-/

namespace Sys2Proof.Machine

/-! ## Statistics -/

/-- Space saved, negative when the container is the larger one (R231). -/
def savedBytes (orig comp : Nat) : Int := (orig : Int) - (comp : Int)

/-- The ratio in hundredths of a percent, rounded toward zero (R230). -/
def ratio (orig comp : Nat) : Int := Int.tdiv (10000 * savedBytes orig comp) orig

/-- `stats(orig, comp)` written into the result registers (R229). -/
def withStats (r : Results) (orig comp : Nat) : Results :=
  { r with
    statOrig := BitVec.ofNat 32 orig
    statComp := BitVec.ofNat 32 comp
    statSaved := BitVec.ofInt 64 (savedBytes orig comp)
    statRatio := BitVec.ofInt 64 (ratio orig comp) }

/-! ## COMPRESS and ANALYZE -/

/-- The results COMPRESS and ANALYZE share (R224, R226): for an input of `n` bytes, an extension of `E` bytes, the tables,
T, the padding count and L. -/
def encodedResults (n E : Nat) (t : Tables) (T pad L : Nat) : Results :=
  { Results.reset with
    orig := BitVec.ofNat 64 n
    pad := BitVec.ofNat 3 pad
    nsym := BitVec.ofNat 9 t.built.root.leafCount
    bits := BitVec.ofNat 64 T
    payloadOff := BitVec.ofNat 32 (payloadOffset E t.built.root.leafCount)
    payloadLen := BitVec.ofNat 32 L
    root := BitVec.ofNat 9 t.built.root.idx
    freq := storedFreq t.freq
    code := t.code
    arena := t.built.arena }

/-- COMPRESS of the bytes `B` with the extension `X` (R224). -/
def compressBytes (outCap : Nat) (X B : List Byte) : Except CmdError Success :=
  match buildTables B with
  | .error e => .error e
  | .ok t =>
    let p := packStage B t.code
    match serializeStage outCap X B.length p.pad t.built.root p.payload with
    | .error e => .error e
    | .ok C =>
      let r := encodedResults B.length X.length t p.bits p.pad p.payload.length
      .ok ⟨withStats { r with outLen := BitVec.ofNat 32 C.length } B.length C.length, C, []⟩

/-- ANALYZE of the bytes `B` with an extension of `E` bytes (R226). -/
def analyzeBytes (E : Nat) (B : List Byte) : Except CmdError Success :=
  match buildTables B with
  | .error e => .error e
  | .ok t =>
    let T := bitCount t.freq t.code
    .ok ⟨encodedResults B.length E t T (padCount T) (payloadLength T), [], []⟩

/-! ## PARSE and DECOMPRESS -/

/-- The results PARSE and DECOMPRESS share (R225, R227). -/
def parsedResults (p : Parsed) : Results :=
  { Results.reset with
    orig := BitVec.ofNat 64 p.n
    pad := BitVec.ofNat 3 p.pad
    nsym := BitVec.ofNat 9 p.root.leafCount
    bits := BitVec.ofNat 64 (availBits p.payload.length p.pad)
    payloadOff := BitVec.ofNat 32 p.off
    payloadLen := BitVec.ofNat 32 p.payload.length
    extLen := BitVec.ofNat 8 p.ext.length
    root := BitVec.ofNat 9 p.root.idx
    arena := p.root.preorder }

/-- PARSE of the container `C` (R227). -/
def parseBytes (C : List Byte) : Except CmdError Success :=
  match parseStage C with
  | .error e => .error e
  | .ok p => .ok ⟨parsedResults p, [], p.ext⟩

/-- DECOMPRESS of the container `C` (R225): the capacity check stands between DESERIALIZE and UNPACK (D39). -/
def decompressBytes (outCap : Nat) (C : List Byte) : Except CmdError Success :=
  match parseStage C with
  | .error e => .error e
  | .ok p =>
    if outCap < p.n then .error ⟨.outputOverflow, .unpack⟩
    else
      match unpackStage p.root p.payload p.pad p.n with
      | .error e => .error e
      | .ok out =>
        .ok ⟨withStats { parsedResults p with outLen := BitVec.ofNat 32 p.n } p.n C.length, out, p.ext⟩

end Sys2Proof.Machine
end

