-- ==== Sys2Proof/Machine/Codec.lean ====
section
/-!
DEFINITION. The codec commands COMPRESS and DECOMPRESS (43_commands.md R224, R225).
-/

namespace Sys2Proof.Machine

/-- What COMPRESS returns in a state (R224). -/
def compressResult (s : State) : Except CmdError Success :=
  s.checkedInput.bind (compressBytes s.cfg.outCap.val s.extensionBytes)

/-- COMPRESS (R224), completed by R222. -/
def execCompress (s : State) : Host.Outcome State Fault Refusal := .next (s.finish (compressResult s))

/-- What DECOMPRESS returns in a state (R225). -/
def decompressResult (s : State) : Except CmdError Success :=
  s.checkedInput.bind (decompressBytes s.cfg.outCap.val)

/-- DECOMPRESS (R225), completed by R222. -/
def execDecompress (s : State) : Host.Outcome State Fault Refusal := .next (s.finish (decompressResult s))

end Sys2Proof.Machine
end

