-- ==== Sys2Proof/Machine/Inspect.lean ====
section
/-!
DEFINITION. The commands that write no output buffer but the extension, ANALYZE and PARSE (43_commands.md R226, R227).
-/

namespace Sys2Proof.Machine

/-- What ANALYZE returns in a state (R226): of the extension it reads only the length (R80). -/
def analyzeResult (s : State) : Except CmdError Success :=
  s.checkedInput.bind (analyzeBytes s.extLen.toNat)

/-- ANALYZE (R226), completed by R222. -/
def execAnalyze (s : State) : Host.Outcome State Fault Refusal := .next (s.finish (analyzeResult s))

/-- What PARSE returns in a state (R227). -/
def parseResult (s : State) : Except CmdError Success := s.checkedInput.bind parseBytes

/-- PARSE (R227), completed by R222. -/
def execParse (s : State) : Host.Outcome State Fault Refusal := .next (s.finish (parseResult s))

end Sys2Proof.Machine
end

