-- ==== Sys2Proof/Machine/Sequencer.lean ====
section
/-!
DEFINITION. The commands the sequencer answers alone: NOP and every illegal word (43_commands.md R223, R228).
-/

namespace Sys2Proof.Machine

/-- NOP completes and names no item of the result state (R222, R223). -/
def execNop (s : State) : Host.Outcome State Fault Refusal := .next s.retire

/-- An illegal word fails with `IllegalCommand` at stage COMMAND and reads no input (R228). Which word it was shows in
`LAST_OP` alone, which the issue has latched (R32, R260). -/
def execIllegal (_w : Word) (s : State) : Host.Outcome State Fault Refusal :=
  .next (s.finish (.error ⟨.illegalCommand, .command⟩))

end Sys2Proof.Machine
end

