-- ==== Sys2Proof/Machine/Step.lean ====
section
/-!
DEFINITION. One step of the machine: one turn of an agent (00_scope.md R6, 20_memory.md R84, 43_commands.md R220).
-/

namespace Sys2Proof.Machine

/-- The engine's `complete` step, enabled exactly when busy (R220); a turn it cannot use passes. -/
def engineTurn (s : State) : Host.Outcome State Fault Refusal :=
  if s.busy then exec s.fetched s else .next s

/-- One turn. The schedule says whose it is; when it says nothing more, the engine goes first if it can, and the host else,
so that no command is in flight for ever (R310, log 1). -/
def step (s : State) : Host.Outcome State Fault Refusal :=
  match s.turns with
  | [] => if s.busy then engineTurn s else .next s.hostTurn
  | .engine :: ts => engineTurn { s with turns := ts }
  | .host :: ts => .next (State.hostTurn { s with turns := ts })
  | .powerOn :: ts => .next (State.powerOnReset { s with turns := ts })

/-- The schedule with the engine's turn first: an empty one already has it while busy. -/
def engineFirst : List Turn → List Turn
  | [] => []
  | t :: ts => .engine :: t :: ts

/-- `s` with the word of value `w` in its low `nbits` bits issued as R221 says, and the engine's turn next (log 9). -/
def State.withFetchWord (s : State) (nbits w : Nat) : State :=
  { s.accept ((BitVec.ofNat nbits w).setWidth 32) with turns := engineFirst s.turns }

end Sys2Proof.Machine
end

