-- ==== Sys2Proof/Machine/HostAsm.lean ====
section
/-!
DEFINITION. The host assembly of 30_encoding.md R105 and R106: the four machine transactions and the expansions of the
pseudo-instructions, as lists of host operations; and the host's sequence for one command (70_reset_and_hazards.md R295).
-/

namespace Sys2Proof.Machine

/-- `WR32 off, imm` (R105). -/
def wr32 (off : Nat) (imm : Word) : HostOp := .txn (.write (BitVec.ofNat 32 off) .word imm)

/-- `WR8 off, imm` (R105). -/
def wr8 (off : Nat) (imm : Byte) : HostOp := .txn (.write (BitVec.ofNat 32 off) .byte (imm.setWidth 32))

/-- `RD32 off` (R105). -/
def rd32 (off : Nat) : HostOp := .txn (.read (BitVec.ofNat 32 off) .word)

/-- `RD8 off` (R105). -/
def rd8 (off : Nat) : HostOp := .txn (.read (BitVec.ofNat 32 off) .byte)

/-- `ISSUE m`: write the command word of `m` to `CMD` (R106). -/
def issueOp (i : Instr) : List HostOp := [wr32 Reg.cmd.offset (encode i)]

/-- `WRBYTES base, bytes` (R106). -/
def wrBytes (base : Nat) (bytes : List Byte) : List HostOp :=
  (bytes.zipIdx).map fun p => wr8 (base + p.2) p.1

/-- `FILL8 base, m, b` (R106). -/
def fill8 (base m : Nat) (b : Byte) : List HostOp := wrBytes base (List.replicate m b)

/-- `WAITDONE` (R106). -/
def waitDone : List HostOp := [.waitDone]

/-- `CLRDONE` (R106). -/
def clrDone : List HostOp := [wr32 Reg.status.offset 0x00000002#32]

/-- `RD64 X`: the low half, then the high half (R106). -/
def rd64 (lo hi : Reg) : List HostOp := [rd32 lo.offset, rd32 hi.offset]

/-- `RDBYTES base, m` (R106). -/
def rdBytes (base m : Nat) : List HostOp := (List.range m).map fun i => rd8 (base + i)

/-- Steps 1 to 5 and 7 of R295 for a command with input `B` and extension `X`; the reads of step 6 are the host's choice. -/
def hostCommand (i : Instr) (B X : List Byte) (irqEn : Bool) : List HostOp :=
  wrBytes inBase B ++ [wr32 Reg.inLen.offset (BitVec.ofNat 32 B.length)] ++
    wrBytes extInBase X ++ [wr32 Reg.extLen.offset (BitVec.ofNat 32 X.length)] ++
    [wr32 Reg.ctrl.offset (if irqEn then 1 else 0)] ++
    issueOp i ++ waitDone ++ [rd32 Reg.status.offset] ++ clrDone

end Sys2Proof.Machine
end

