-- ==== Sys2Proof/Safety.lean ====
section
/-!
DEFINITION. The terms claims are stated in: whose turn a step is, where the buffers lie, which accesses the bus refuses,
the shape of a tree, and the two invariants of the machine. Nothing here is part of the machine.
-/

namespace Sys2Proof.Machine

/-! ## The address space (R71) -/

/-- The offset is one of `EXT_IN`. -/
def inExtIn (a : Nat) : Prop := 0x100 ≤ a ∧ a ≤ 0x1FF

/-- The offset is one of `EXT_OUT`. -/
def inExtOut (a : Nat) : Prop := 0x200 ≤ a ∧ a ≤ 0x2FF

/-- The offset is one of `IN_BUF`. -/
def inInBuf (c : Config) (a : Nat) : Prop := 0x10000000 ≤ a ∧ a < 0x10000000 + c.inCap.val

/-- The offset is one of `OUT_BUF`. -/
def inOutBuf (c : Config) (a : Nat) : Prop := 0x20000000 ≤ a ∧ a < 0x20000000 + c.outCap.val

/-- An access of `size` bytes at `off` lies wholly in the region `p` and is aligned (R73). -/
def bufferAccess (p : Nat → Prop) (off : Nat) : Size → Prop
  | .byte => p off
  | .word => off % 4 = 0 ∧ p off ∧ p (off + 3)

/-- The accesses of R72: aligned words of the register window. -/
def registerAccess (off : Nat) : Size → Prop
  | .byte => False
  | .word => off < 0x100 ∧ off % 4 = 0

/-- The reads R72 to R74 answer with OKAY. -/
def readAllowed (c : Config) (off : Nat) (size : Size) : Prop :=
  registerAccess off size ∨ bufferAccess inExtIn off size ∨ bufferAccess inExtOut off size ∨
    bufferAccess (inInBuf c) off size ∨ bufferAccess (inOutBuf c) off size

/-- The writes R72 to R74 answer with OKAY: the host may not write `EXT_OUT` and `OUT_BUF`. -/
def writeAllowed (c : Config) (off : Nat) (size : Size) : Prop :=
  registerAccess off size ∨ bufferAccess inExtIn off size ∨ bufferAccess (inInBuf c) off size

/-- The writes R301 ignores while busy: to `CMD`, `IN_LEN`, `EXT_LEN`, `SYM_SEL`, `NODE_SEL`, and to the input buffers. -/
def lockedWrite (c : Config) (off : Nat) (size : Size) : Prop :=
  (size = .word ∧ off ∈ [0x018, 0x01C, 0x020, 0x06C, 0x098]) ∨ bufferAccess inExtIn off size ∨
    bufferAccess (inInBuf c) off size

/-- The reads of a buffer that R302 leaves true: of the input buffers always, of the output buffers when idle. -/
def trueBufferRead (s : State) (off : Nat) (size : Size) : Prop :=
  bufferAccess inExtIn off size ∨ bufferAccess (inInBuf s.cfg) off size ∨
    (s.busy = false ∧ (bufferAccess inExtOut off size ∨ bufferAccess (inOutBuf s.cfg) off size))

/-- The reserved offsets of the register window (R51). -/
def reservedOffset (off : Nat) : Prop := off % 4 = 0 ∧ 0x0AC ≤ off ∧ off ≤ 0x0FC

/-- The offsets of the R-res registers of R21. -/
def resultOffset (off : Nat) : Prop :=
  off % 4 = 0 ∧ ((0x024 ≤ off ∧ off ≤ 0x068) ∨ (0x070 ≤ off ∧ off ≤ 0x094) ∨ (0x09C ≤ off ∧ off ≤ 0x0A8))

/-! ## Turns -/

/-- Whose turn the next step is (log 1). -/
def State.mover (s : State) : Turn :=
  match s.turns with
  | [] => if s.busy then .engine else .host
  | t :: _ => t

/-- The transaction the next step performs, if it is the host's turn and the host has one to perform. -/
def State.nextTxn (s : State) : Option Txn :=
  match s.mover with
  | .engine => none
  | .powerOn => none
  | .host =>
    match s.host with
    | [] => none
    | .txn t :: _ => some t
    | .waitDone :: _ => some pollStatus

/-- The next step is a completion: the engine's turn, with a command in flight (R220). -/
def State.completesNext (s : State) : Prop := s.mover = .engine ∧ s.busy = true

/-- The next step is a soft reset: an aligned word write to `CTRL` with bit 1 set (R291). -/
def State.softResetsNext (s : State) : Prop :=
  ∃ v : Word, s.nextTxn = some (.write 0x010#32 .word v) ∧ v.getLsbD 1 = true

/-- The next step is a reset of either kind (R290, R291). -/
def State.resetsNext (s : State) : Prop := s.mover = .powerOn ∨ s.softResetsNext

/-- The next step is an accepted `CMD` write of `w` (R221). -/
def State.acceptsNext (s : State) (w : Word) : Prop :=
  s.nextTxn = some (.write 0x018#32 .word w) ∧ s.busy = false

/-- The next step is an ignored write: one of those R301 lists, while busy. -/
def State.ignoresNext (s : State) : Prop :=
  s.busy = true ∧ ∃ off size data, s.nextTxn = some (.write off size data) ∧ lockedWrite s.cfg off.toNat size

/-! ## What commands may change -/

/-- Every part of the state that no command's completion may touch is the same: the parameters, `CTRL`, `WIGN`, `LAST_OP`, the
sequencer's words, the command inputs, the selects, and what lies outside the block. -/
def sameInputs (s t : State) : Prop :=
  t.cfg = s.cfg ∧ t.irqEn = s.irqEn ∧ t.wign = s.wign ∧ t.lastOp = s.lastOp ∧ t.op = s.op ∧ t.cmdword = s.cmdword ∧
    t.inLen = s.inLen ∧ t.extLen = s.extLen ∧ t.symSel = s.symSel ∧ t.nodeSel = s.nodeSel ∧
    t.host = s.host ∧ t.turns = s.turns ∧ t.replies = s.replies

/-- Every byte at the addresses `p` is `any`: the free values of one draw that had not been made in `s` (R11, log 3). -/
def becameAny (s t : State) (p : Nat → Prop) : Prop :=
  ∃ draw, s.draws ≤ draw ∧ ∀ a, p a → t.byteAt a = Config.anyByte draw a

/-- Every byte at the addresses `p` reads as before. -/
def sameBytes (s t : State) (p : Nat → Prop) : Prop := ∀ a, p a → t.byteAt a = s.byteAt a

/-- The command completed with an error, in the way R263 says: `t` is what `s` becomes by `raise code(stage)`. -/
structure FailsWith (s t : State) (code : ErrCode) (stage : Stage) : Prop where
  busy : t.busy = false
  done : t.done = true
  code_eq : t.errCode = code
  stage_eq : t.errStage = stage
  results : t.res = Results.reset
  inputs : sameInputs s t
  out_any : becameAny s t (inOutBuf s.cfg)
  ext_any : becameAny s t inExtOut
  others : sameBytes s t fun a => ¬ inOutBuf s.cfg a ∧ ¬ inExtOut a

/-- The command completed without an error: the completion event is raised, the error fields and everything a command may
not touch are as before (R222). -/
structure Completes (s t : State) : Prop where
  busy : t.busy = false
  done : t.done = true
  code_eq : t.errCode = s.errCode
  stage_eq : t.errStage = s.errStage
  inputs : sameInputs s t

/-- The statistics registers hold `stats(orig, comp)` (R229 to R231), read as the numbers they spell. -/
def hasStats (r : Results) (orig comp : Nat) : Prop :=
  r.statOrig.toNat = orig ∧ r.statComp.toNat = comp ∧ r.statSaved.toInt = (orig : Int) - comp ∧
    r.statRatio.toInt = (10000 * ((orig : Int) - comp)).tdiv orig

/-- The statistics registers hold 0. -/
def noStats (r : Results) : Prop := r.statOrig = 0 ∧ r.statComp = 0 ∧ r.statSaved = 0 ∧ r.statRatio = 0

/-- The length of the container of `E` extension bytes, k distinct input bytes and T payload bits (R120). -/
def containerLength (E k T : Nat) : Nat := 15 + E + (3 * k - 1) + (T + 7) / 8

/-- What each register reads after a reset (R21, R293): the identity registers their constants, every other one 0. -/
def resetValue (c : Config) : Reg → Word
  | .id => 0x48554646#32
  | .version => 0x00000101#32
  | .inCap => BitVec.ofNat 32 c.inCap.val
  | .outCap => BitVec.ofNat 32 c.outCap.val
  | _ => 0#32

/-! ## Trees -/

/-- A tree numbered in pre-order from `i`, with every weight 0: the numbering of a parsed arena (R208). -/
def Tree.numbered : Nat → Tree → Tree
  | i, .leaf _ b _ => .leaf i b 0
  | i, .node _ _ l r => .node i 0 (l.numbered (i + 1)) (r.numbered (i + 1 + l.nodeCount))

/-- Every weight in the tree is the sum of its children's and lies between 1 and `n` (R145). -/
def Tree.weighted (n : Nat) : Tree → Prop
  | .leaf _ _ w => 1 ≤ w ∧ w ≤ n
  | .node _ w l r => w = l.weight + r.weight ∧ 1 ≤ w ∧ w ≤ n ∧ l.weighted n ∧ r.weighted n

/-- The bits lead from the root of the tree to a leaf of the byte, 0 to the left and 1 to the right (R150, R173). -/
def Tree.leadsTo : Tree → List Bool → Byte → Prop
  | .leaf _ c _, [], b => c = b
  | .leaf _ _ _, _ :: _, _ => False
  | .node _ _ _ _, [], _ => False
  | .node _ _ l _, false :: p, b => l.leadsTo p b
  | .node _ _ _ r, true :: p, b => r.leadsTo p b

/-- The arena holds every node of the tree at its index: a leaf with its byte and weight, an internal node with its weight
and the indices of its left and right child, all of them whole (R12, R53). -/
def Tree.storedIn (A : List Node) : Tree → Prop
  | .leaf i b w => ∃ v, A[i]? = some (.leaf b v) ∧ v.toNat = w
  | .node i w l r =>
    (∃ v x y, A[i]? = some (.internal v x y) ∧ v.toNat = w ∧ x.toNat = l.idx ∧ y.toNat = r.idx) ∧
      l.storedIn A ∧ r.storedIn A

/-- `w(i)` of an arena (R12), and 0 where it has no node. -/
def weightAt (A : List Node) (i : Nat) : Nat :=
  match A[i]? with
  | some (.leaf _ w) => w.toNat
  | some (.internal w _ _) => w.toNat
  | none => 0

/-- The order of extraction on the indices of an arena: the pair of weight and index, lexicographically (R144). -/
def lighter (A : List Node) (i j : Nat) : Prop :=
  weightAt A i < weightAt A j ∨ (weightAt A i = weightAt A j ∧ i < j)

/-- Index i is active when node j is made (R144): it was made before, and no node made before has it as a child. -/
def activeAt (A : List Node) (j i : Nat) : Prop :=
  i < j ∧ ∀ (m : Nat) (w : BitVec 32) (l r : BitVec 9), m < j → A[m]? = some (.internal w l r) → l.toNat ≠ i ∧ r.toNat ≠ i

/-- Node j is the merge R144 and R146 make: of the active nodes the least becomes its left child, the next its right one, and
its weight is their sum. -/
def isMergeAt (A : List Node) (j : Nat) : Prop :=
  ∃ w x y, A[j]? = some (.internal w x y) ∧ w.toNat = weightAt A x.toNat + weightAt A y.toNat ∧
    activeAt A j x.toNat ∧ activeAt A j y.toNat ∧ lighter A x.toNat y.toNat ∧
    ∀ i, activeAt A j i → i ≠ x.toNat → i ≠ y.toNat → lighter A y.toNat i

/-! ## Invariants -/

/-- The invariant of the state: canonical memory inside the buffers; what `STATUS` never says (R29, R30, R260); what a failed
command leaves (R263); an output that fits; and draws that are spent only once. -/
structure Inv (s : State) : Prop where
  memory : s.mem.wf
  buffers : ∀ e ∈ s.mem, inExtIn e.1 ∨ inExtOut e.1 ∨ inInBuf s.cfg e.1 ∨ inOutBuf s.cfg e.1
  busy_not_done : s.busy = true → s.done = false
  busy_no_error : s.busy = true → s.errCode = .none
  busy_op : s.busy = true → s.op = opField s.cmdword ∧ s.lastOp = s.op
  code_stage : s.errCode = .none ↔ s.errStage = .none
  never_internal : s.errCode ≠ .internalError
  error_clears : s.errCode ≠ .none → s.res = Results.reset
  output_fits : s.res.outLen.toNat ≤ s.cfg.outCap.val
  draws_spent : s.hostEpoch < s.draws ∧ s.outEpoch < s.draws ∧ s.extOutEpoch < s.draws

/-- The invariant of the result tables (R45, R53, R142, R148, R150, R208). -/
structure TablesOk (r : Results) : Prop where
  freq_sorted : SMap.sorted r.freq = true
  freq_entries : ∀ e ∈ r.freq, e.1 < 256 ∧ e.2 ≠ 0
  code_sorted : SMap.sorted r.code = true
  code_entries : ∀ e ∈ r.code, e.1 < 256 ∧ 1 ≤ e.2.length ∧ e.2.length ≤ 255
  arena_length : r.arena.length = 2 * r.nsym.toNat - 1
  arena_bound : r.arena.length ≤ 511
  root_valid : (r.arena = [] ∧ r.root = 0) ∨ r.root.toNat < r.arena.length
  children_valid : ∀ w l r', Node.internal w l r' ∈ r.arena → l.toNat < r.arena.length ∧ r'.toNat < r.arena.length

end Sys2Proof.Machine
end

