-- ==== Sys2Proof/Certificates/Slice0/Obligations.lean ====
section
/-!
DEFINITION. The statements about the machine, in the order: encoding, steps, commands, stages, container, bus, registers,
status, resets, whole-machine rules, invariants.
-/

open Sys2Proof Sys2Proof.Machine

/-! ## Encoding -/

/-- 30_encoding.md section 1: decoding a command's word gives the command back. That an illegal command carries its word, so that
words and commands correspond one to one, is the model's choice (log 21): R104 names one ILLEGAL for all of them. -/
def Obligations.CommandsAndWordsCorrespond : Prop :=
  (∀ i : Instr, i.WellFormed → decode (encode i) = i) ∧
    ∀ w : Word, (decode w).WellFormed ∧ encode (decode w) = w

/-- 30_encoding.md R101: the five words of the opcode map, and words of 95_test_vectors.md V-X16 to V-X20. -/
def Obligations.OpcodeMapWordsDecode : Prop :=
  decode 0x00000000#32 = .nop ∧ decode 0x00000001#32 = .compress ∧ decode 0x00000002#32 = .decompress ∧
    decode 0x00000003#32 = .analyze ∧ decode 0x00000004#32 = .parse ∧
    decode 0x00000005#32 = .illegal 0x00000005#32 ∧ decode 0x000000FF#32 = .illegal 0x000000FF#32 ∧
    decode 0x00000100#32 = .illegal 0x00000100#32 ∧ decode 0x00000105#32 = .illegal 0x00000105#32 ∧
    decode 0x80000001#32 = .illegal 0x80000001#32

/-- R102, R103: a word with a reserved bit set, and every word but the five, is accepted as a command when idle and
completes with `IllegalCommand` at stage COMMAND. -/
def Obligations.EveryOtherWordFailsAsIllegal : Prop :=
  (∀ w : Word, w.extractLsb' 8 24 ≠ 0 → decode w = .illegal w) ∧
    (∀ w : Word, w ≠ 0 → w ≠ 1 → w ≠ 2 → w ≠ 3 → w ≠ 4 → decode w = .illegal w) ∧
    ∀ (w : Word) (s : State),
      (∃ t, exec (.illegal w) s = .next t ∧ FailsWith s t .illegalCommand .command) ∧
        (s.busy = false → (s.issue w).busy = true ∧ (s.issue w).cmdword = w ∧
          ∃ t, exec (.illegal w) (s.issue w) = .next t ∧ FailsWith (s.issue w) t .illegalCommand .command ∧
            t.lastOp = w.extractLsb' 0 8)

/-! ## Steps -/

/-- R220: when it is the engine's turn and a command is in flight, a step is `exec` of the decoded command word; the engine's
place in the schedule is used up. -/
def Obligations.StepRunsTheDecodedCommand : Prop :=
  ∀ s : State, s.busy = true →
    (s.turns = [] → step s = exec (decode s.cmdword) s) ∧
      ∀ ts, s.turns = .engine :: ts → step s = exec (decode s.cmdword) { s with turns := ts }

/-- R310, log 1: a command in flight is over, by completion or by a reset, after at most one step more than the schedule is
long. -/
def Obligations.CommandEndsWithinTheSchedule : Prop :=
  ∀ s : State, s.busy = true →
    ∃ k, k ≤ s.turns.length + 1 ∧ ∃ t, Sys2Proof.core.run k s = .next t ∧ t.busy = false

/-- 20_memory.md R84, logs 1 and 2: at the host's turn a step is the host's turn, which performs its next transaction on the state
with that operation, and the turn, taken off, and gives the host the bus's answer; a turn its agent cannot use changes nothing
else. -/
def Obligations.StepPerformsTheHostTransaction : Prop :=
  (∀ (s : State) (x : Txn) (rest : List HostOp), s.host = .txn x :: rest →
    (s.turns = [] → s.busy = false → step s = .next (State.perform { s with host := rest } x)) ∧
      ∀ ts, s.turns = .host :: ts → step s = .next (State.perform { s with host := rest, turns := ts } x)) ∧
    (∀ (s : State) (x : Txn),
      s.perform x = { (s.transact x).2 with replies := (s.transact x).1 :: s.replies }) ∧
    (∀ (s : State) (rest : List HostOp), s.host = .waitDone :: rest →
      (s.turns = [] → s.busy = false → step s = .next s.hostTurn) ∧
        ∀ ts, s.turns = .host :: ts → step s = .next (State.hostTurn { s with turns := ts })) ∧
    (∀ s : State, s.host = [] →
      (s.turns = [] → s.busy = false → step s = .next s) ∧
        ∀ ts, s.turns = .host :: ts → step s = .next { s with turns := ts }) ∧
    ∀ (s : State) (ts : List Turn), s.busy = false → s.turns = .engine :: ts → step s = .next { s with turns := ts }

/-- R106: a round of `WAITDONE` reads `STATUS`, and goes on to the host's next operation exactly when bit 1 reads 1. -/
def Obligations.WaitDonePollsUntilDone : Prop :=
  ∀ (s : State) (rest : List HostOp), s.host = .waitDone :: rest →
    s.hostTurn = { s with
      host := if s.done then rest else .waitDone :: rest
      replies := .read s.statusWord .okay :: s.replies }

/-! ## Commands -/

/-- R223: NOP completes, changes nothing but BUSY and DONE, and leaves ERR 0 after its issue; its opcode with a reserved bit
set is not NOP. -/
def Obligations.NopCompletesAndKeepsEverything : Prop :=
  decode 0x00000000#32 = .nop ∧
    (∀ s : State, exec .nop s = .next { s with busy := false, done := true }) ∧
    (∀ s t : State, exec .nop (s.accept 0x00000000#32) = .next t → t.err = false ∧ t.done = true ∧ t.res = s.res) ∧
    ∀ w : Word, w.extractLsb' 0 8 = 0x00#8 → w.extractLsb' 8 24 ≠ 0 → decode w = .illegal w

/-- R235: `IN_LEN > IN_CAP` fails COMPRESS, DECOMPRESS, ANALYZE and PARSE with `LengthError`, whatever `IN_BUF` holds; NOP and
ILLEGAL do not look. -/
def Obligations.LengthCheckComesFirst : Prop :=
  ∀ s : State, s.cfg.inCap.val < s.inLen.toNat →
    (∀ i ∈ [Instr.compress, .decompress, .analyze, .parse], ∀ (m : Memory) (e : Nat),
      ∃ t, exec i { s with mem := m, hostEpoch := e } = .next t ∧
        FailsWith { s with mem := m, hostEpoch := e } t .lengthError .command) ∧
    (∃ t, exec .nop s = .next t ∧ t.errCode = s.errCode) ∧
    ∀ w : Word, ∃ t, exec (.illegal w) s = .next t ∧ t.errCode = .illegalCommand

/-- R141, R197: no input is `EmptyInputError` at stage FREQ, for COMPRESS and for ANALYZE, whatever `OUT_CAP` is; a container longer
than `OUT_CAP` is `OutputOverflow` at stage SERIALIZE. -/
def Obligations.EncoderFailures : Prop :=
  (∀ s : State, s.inLen = 0 →
    (∃ t, exec .compress s = .next t ∧ FailsWith s t .emptyInput .freq) ∧
      ∃ t, exec .analyze s = .next t ∧ FailsWith s t .emptyInput .freq) ∧
    ∀ (s : State) (tb : Tables), 1 ≤ s.inLen.toNat → s.inLen.toNat ≤ s.cfg.inCap.val →
      buildTables s.inputBytes = .ok tb →
      s.cfg.outCap.val <
        containerLength s.extLen.toNat s.inputBytes.dedup.length (bitCount tb.freq tb.code) →
      ∃ t, exec .compress s = .next t ∧ FailsWith s t .outputOverflow .serialize

/-- R224, R232, R233: COMPRESS of an input whose container fits completes, with the container in `OUT_BUF`, the results of
R224 and nothing else changed. -/
def Obligations.CompressCompletes : Prop :=
  ∀ s : State, 1 ≤ s.inLen.toNat → s.inLen.toNat ≤ s.cfg.inCap.val →
    ∃ tb, buildTables s.inputBytes = .ok tb ∧
      let n := s.inLen.toNat
      let k := s.inputBytes.dedup.length
      let T := bitCount tb.freq tb.code
      let len := containerLength s.extLen.toNat k T
      let P := packStage s.inputBytes tb.code
      (len ≤ s.cfg.outCap.val →
        ∃ t, exec .compress s = .next t ∧ Completes s t ∧
          t.res.outLen.toNat = len ∧ t.res.orig.toNat = n ∧ t.res.pad.toNat = (8 - T % 8) % 8 ∧
          t.res.nsym.toNat = k ∧ t.res.bits.toNat = T ∧
          t.res.payloadOff.toNat = 15 + s.extLen.toNat + (3 * k - 1) ∧ t.res.payloadLen.toNat = (T + 7) / 8 ∧
          t.res.extLen = 0 ∧ t.res.arena.length = 2 * k - 1 ∧ t.res.root.toNat = 2 * k - 2 ∧
          t.res.arena = tb.built.arena ∧ t.res.code = tb.code ∧
          (∀ b : Byte, ((SMap.get? t.res.freq b.toNat).getD 0).toNat = s.inputBytes.count b) ∧
          hasStats t.res n len ∧
          t.readBytes outBase len =
            [0x48#8, 0x55#8, 0x46#8, 0x46#8, 0x01#8] ++ (s.extLen :: s.extensionBytes) ++
              (List.range 8).map (fun i => BitVec.ofNat 8 (n / 256 ^ i)) ++ [BitVec.ofNat 8 ((8 - T % 8) % 8)] ++
              tb.built.root.ser ++ P.payload ∧
          becameAny s t inExtOut ∧
          sameBytes s t fun a => ¬ (outBase ≤ a ∧ a < outBase + len) ∧ ¬ inExtOut a)

/-- R226, R232: ANALYZE of a non-empty input completes with the results of R226 and writes no output. The 32-bit
`RES_PAYLOAD_LEN` holds L narrowed (log 11). -/
def Obligations.AnalyzeCompletes : Prop :=
  ∀ s : State, 1 ≤ s.inLen.toNat → s.inLen.toNat ≤ s.cfg.inCap.val →
    ∃ tb, buildTables s.inputBytes = .ok tb ∧
      let k := s.inputBytes.dedup.length
      let T := bitCount tb.freq tb.code
      ∃ t, exec .analyze s = .next t ∧ Completes s t ∧
        t.res.outLen = 0 ∧ t.res.orig.toNat = s.inLen.toNat ∧ t.res.pad.toNat = (8 - T % 8) % 8 ∧
        t.res.nsym.toNat = k ∧ t.res.bits.toNat = T ∧
        t.res.payloadOff.toNat = 15 + s.extLen.toNat + (3 * k - 1) ∧
        t.res.payloadLen = BitVec.ofNat 32 ((T + 7) / 8) ∧
        t.res.extLen = 0 ∧ t.res.arena.length = 2 * k - 1 ∧ t.res.root.toNat = 2 * k - 2 ∧
        t.res.arena = tb.built.arena ∧ t.res.code = tb.code ∧
        (∀ b : Byte, ((SMap.get? t.res.freq b.toNat).getD 0).toNat = s.inputBytes.count b) ∧
        noStats t.res ∧ becameAny s t inExtOut ∧ sameBytes s t fun a => ¬ inExtOut a

/-- R227, R232, 20_memory.md R79: PARSE of a container completes with the results of R227; `EXT_OUT` begins with the extension and
is `any` beyond it, and every byte outside `EXT_OUT` is as before. -/
def Obligations.ParseCompletes : Prop :=
  ∀ (s : State) (p : Parsed), s.inLen.toNat ≤ s.cfg.inCap.val → parseContainer s.inputBytes = some p →
    ∃ t, exec .parse s = .next t ∧ Completes s t ∧
      t.res.outLen = 0 ∧ t.res.orig.toNat = p.n ∧ t.res.pad.toNat = p.pad ∧ t.res.nsym.toNat = p.root.leafCount ∧
      t.res.bits.toNat = 8 * (s.inLen.toNat - p.off) - p.pad ∧ t.res.payloadOff.toNat = p.off ∧
      t.res.payloadLen.toNat = s.inLen.toNat - p.off ∧ t.res.extLen.toNat = p.ext.length ∧
      t.res.arena = p.root.preorder ∧ p.root.storedIn t.res.arena ∧ t.res.root = 0 ∧ t.res.freq = [] ∧ t.res.code = [] ∧ noStats t.res ∧
      t.readBytes extOutBase p.ext.length = p.ext ∧
      (becameAny s t fun a => inExtOut a ∧ extOutBase + p.ext.length ≤ a) ∧
      sameBytes s t fun a => ¬ inExtOut a

/-- R198, R261: bytes that are no container are `InvalidFormatError` at stage DESERIALIZE, for PARSE and for DECOMPRESS. -/
def Obligations.NoContainerFailsAtDeserialize : Prop :=
  ∀ s : State, s.inLen.toNat ≤ s.cfg.inCap.val → parseContainer s.inputBytes = none →
    (∃ t, exec .parse s = .next t ∧ FailsWith s t .invalidFormat .deserialize) ∧
      ∃ t, exec .decompress s = .next t ∧ FailsWith s t .invalidFormat .deserialize

/-- R225, R229, R232, R233, 20_memory.md R79: DECOMPRESS of a container that fits and whose payload holds n symbols completes with
the decoded bytes in `OUT_BUF` and the extension in `EXT_OUT`, which is `any` beyond it. -/
def Obligations.DecompressCompletes : Prop :=
  ∀ (s : State) (p : Parsed) (out : List Byte), s.inLen.toNat ≤ s.cfg.inCap.val →
    parseContainer s.inputBytes = some p → p.n ≤ s.cfg.outCap.val →
    unpackStage p.root p.payload p.pad p.n = .ok out →
    ∃ t, exec .decompress s = .next t ∧ Completes s t ∧
      t.res.outLen.toNat = p.n ∧ t.res.orig.toNat = p.n ∧ t.res.pad.toNat = p.pad ∧
      t.res.nsym.toNat = p.root.leafCount ∧
      t.res.bits.toNat = 8 * (s.inLen.toNat - p.off) - p.pad ∧ t.res.payloadOff.toNat = p.off ∧
      t.res.payloadLen.toNat = s.inLen.toNat - p.off ∧ t.res.extLen.toNat = p.ext.length ∧
      t.res.arena = p.root.preorder ∧ p.root.storedIn t.res.arena ∧ t.res.root = 0 ∧ t.res.freq = [] ∧ t.res.code = [] ∧
      hasStats t.res p.n s.inLen.toNat ∧
      out.length = p.n ∧ t.readBytes outBase p.n = out ∧
      t.readBytes extOutBase p.ext.length = p.ext ∧
      (becameAny s t fun a => inExtOut a ∧ extOutBase + p.ext.length ≤ a) ∧
      sameBytes s t fun a => ¬ (outBase ≤ a ∧ a < outBase + p.n) ∧ ¬ inExtOut a

/-- R225, R264: after DESERIALIZE, n over `OUT_CAP` is `OutputOverflow`, and else a stream that ends early is
`CorruptPayloadError`, both at stage UNPACK. -/
def Obligations.DecompressFailsAtUnpack : Prop :=
  ∀ (s : State) (p : Parsed), s.inLen.toNat ≤ s.cfg.inCap.val → parseContainer s.inputBytes = some p →
    (s.cfg.outCap.val < p.n → ∃ t, exec .decompress s = .next t ∧ FailsWith s t .outputOverflow .unpack) ∧
      (p.n ≤ s.cfg.outCap.val → unpackLoop p.root p.root (dataBits p.payload p.pad) p.n = none →
        ∃ t, exec .decompress s = .next t ∧ FailsWith s t .corruptPayload .unpack)

/-- R263: a command that ends with an error leaves results and tables at reset, the output buffers `any`, and every input and
RW register unchanged. -/
def Obligations.AnErrorLeavesNoResult : Prop :=
  ∀ (i : Instr) (s t : State), s.errCode = .none → exec i s = .next t → t.errCode ≠ .none →
    FailsWith s t t.errCode t.errStage ∧ t.res.outLen = 0 ∧ t.err = true

/-- R154, R262: no command raises `InternalError`, and none names BUILD, CODEGEN or PACK as its stage. -/
def Obligations.InternalErrorIsNeverRaised : Prop :=
  ∀ (i : Instr) (s t : State), exec i s = .next t →
    (t.errCode = s.errCode ∧ t.errStage = s.errStage) ∨
      (t.errCode, t.errStage) ∈
        [(ErrCode.emptyInput, Stage.freq), (.invalidFormat, .deserialize), (.corruptPayload, .unpack),
          (.illegalCommand, .command), (.lengthError, .command), (.outputOverflow, .serialize),
          (.outputOverflow, .unpack)]

/-- 20_memory.md R76, R77, 43_commands.md R222: every command completes, and whatever its outcome it changes no input, no
select, no control bit, and no byte outside `OUT_BUF` and `EXT_OUT`. -/
def Obligations.EveryCommandLeavesItsInputs : Prop :=
  ∀ (i : Instr) (s : State), ∃ t, exec i s = .next t ∧ t.busy = false ∧ t.done = true ∧ sameInputs s t ∧
    sameBytes s t fun a => ¬ inOutBuf s.cfg a ∧ ¬ inExtOut a

/-- R233: after a command that ends without an error, every byte of `OUT_BUF` at or above `OUT_LEN` is as before. -/
def Obligations.OutputBeyondItsLengthIsKept : Prop :=
  ∀ (i : Instr) (s t : State), i = .compress ∨ i = .decompress → s.errCode = .none →
    exec i s = .next t → t.errCode = .none →
    sameBytes s t (fun a => inOutBuf s.cfg a ∧ outBase + t.res.outLen.toNat ≤ a) ∧
      outBase + t.res.outLen.toNat ≤ outBase + s.cfg.outCap.val

/-- 20_memory.md R80: a command's results and outputs depend on the inputs R80 lists for it, and on nothing else. -/
def Obligations.ResultsDependOnInputsAlone : Prop :=
  ∀ (i : Instr) (s s' t t' : State), i ≠ .nop → s.cfg = s'.cfg → s.inLen = s'.inLen →
    s.inputBytes = s'.inputBytes → s.errCode = .none → s'.errCode = .none →
    (i = .compress ∨ i = .analyze → s.extLen = s'.extLen) →
    (i = .compress → s.extensionBytes = s'.extensionBytes) →
    exec i s = .next t → exec i s' = .next t' →
    t.res = t'.res ∧ t.errCode = t'.errCode ∧ (t.errCode ≠ .none → t.errStage = t'.errStage) ∧
      t.readBytes outBase t.res.outLen.toNat = t'.readBytes outBase t'.res.outLen.toNat ∧
      t.readBytes extOutBase t.res.extLen.toNat = t'.readBytes extOutBase t'.res.extLen.toNat

/-! ## Encoder stages -/

/-- R140: FREQ raises `EmptyInputError` on no bytes, and else counts every byte value; the counts sum to n. -/
def Obligations.FreqStageCountsBytes : Prop :=
  freqStage [] = .error ⟨.emptyInput, .freq⟩ ∧
    ∀ B : List Byte, B ≠ [] → ∃ F, freqStage B = .ok F ∧
      (∀ b : Byte, countOf F b = B.count b) ∧
      ((List.range 256).map fun b => countOf F (BitVec.ofNat 8 b)).sum = B.length

/-- R144: an extraction takes, of active nodes with distinct indices, the one with the least weight, and of those the one with
the least index; the others stay. -/
def Obligations.ExtractionTakesTheSmallest : Prop :=
  ∀ (t : Machine.Tree) (ts : List Machine.Tree), ((t :: ts).map Machine.Tree.idx).Nodup →
    List.Perm ((extractMin t ts).1 :: (extractMin t ts).2) (t :: ts) ∧
      ∀ u ∈ (extractMin t ts).2, (extractMin t ts).1.weight < u.weight ∨
        ((extractMin t ts).1.weight = u.weight ∧ (extractMin t ts).1.idx < u.idx)

/-- R143, R144, R146, R148: after BUILD of the counts of k byte values, the first k arena entries are the leaves in ascending byte
order, each later one the merge of the two least active nodes, the least to the left; children have lower indices, the root is the
last, and no byte stands in two leaves. The merges are read off the 32-bit weights, of an input a block can hold (R8). -/
def Obligations.BuiltArenaShape : Prop :=
  ∀ (B : List Byte) (tb : Tables), buildTables B = .ok tb →
    let k := B.dedup.length
    let A := tb.built.arena
    A.length = 2 * k - 1 ∧ tb.built.root.idx = 2 * k - 2 ∧ tb.built.root.leafCount = k ∧
      (∃ bytes : List Byte, bytes.length = k ∧ (bytes.map BitVec.toNat).Pairwise (· < ·) ∧ (∀ b, b ∈ bytes ↔ b ∈ B) ∧
        A.take k = bytes.map fun b => Node.leaf b (BitVec.ofNat 32 (B.count b))) ∧
      (∀ j, k ≤ j → j < 2 * k - 1 →
        ∃ w l r, A[j]? = some (.internal w l r) ∧ l.toNat < j ∧ r.toNat < j) ∧
      (B.length ≤ 2 ^ 28 → ∀ j, k ≤ j → j < 2 * k - 1 → isMergeAt A j) ∧
      tb.built.root.bytes.Nodup

/-- R145: the weight of the root is n, and every internal weight is the sum of its children's, between 1 and n; and the arena holds
that tree node for node, weights and children whole, for an input a block can hold (R8). -/
def Obligations.WeightsSumToTheLength : Prop :=
  ∀ (B : List Byte) (tb : Tables), buildTables B = .ok tb →
    tb.built.root.weight = B.length ∧ tb.built.root.weighted B.length ∧
      (B.length ≤ 2 ^ 28 → tb.built.root.storedIn tb.built.arena)

/-- R151, R152: a byte value that does not occur has no code; with one byte value its code is the single bit 0; with k of
them every code is the path from the root to the leaf of its byte, 0 to the left, and has 1 to k - 1 bits (R150). -/
def Obligations.CodeLengthsAndAbsentBytes : Prop :=
  ∀ (B : List Byte) (tb : Tables), buildTables B = .ok tb →
    (∀ b : Byte, b ∉ B → codeOf tb.code b = []) ∧
      (B.dedup.length = 1 → ∀ b ∈ B, codeOf tb.code b = [false]) ∧
      (2 ≤ B.dedup.length → ∀ b ∈ B, tb.built.root.leadsTo (codeOf tb.code b) b ∧
        1 ≤ (codeOf tb.code b).length ∧ (codeOf tb.code b).length ≤ B.dedup.length - 1)

/-- R153: no code is the beginning of another one. -/
def Obligations.CodesArePrefixFree : Prop :=
  ∀ (B : List Byte) (tb : Tables), buildTables B = .ok tb →
    ∀ b ∈ B, ∀ c ∈ B, b ≠ c → ¬ codeOf tb.code b <+: codeOf tb.code c

/-- R156, R158, R160: T is the sum of the counts times the code lengths, below 2^36 for an input that fits a block; PACK pads
T with zero bits to L = ceil(T / 8) bytes, at least one; byte j is the sum of bit 8j + u times 2^(7 - u) (R118, R157). -/
def Obligations.PackedPayloadIsTheCodesPadded : Prop :=
  ∀ (B : List Byte) (tb : Tables), buildTables B = .ok tb →
    let p := packStage B tb.code
    let T := ((List.range 256).map fun b =>
      countOf tb.freq (BitVec.ofNat 8 b) * (codeOf tb.code (BitVec.ofNat 8 b)).length).sum
    p.bits = T ∧ bitCount tb.freq tb.code = T ∧ (B.length ≤ 2 ^ 28 → T < 2 ^ 36) ∧
      p.pad = (8 - T % 8) % 8 ∧ p.pad ≤ 7 ∧
      streamBits p.payload = B.flatMap (codeOf tb.code) ++ List.replicate p.pad false ∧
      (∀ (j : Nat) (x : Byte), p.payload[j]? = some x →
        x.toNat = ((List.range 8).map fun u =>
          ((B.flatMap (codeOf tb.code) ++ List.replicate p.pad false).getD (8 * j + u) false).toNat * 2 ^ (7 - u)).sum) ∧
      p.payload.length = (T + p.pad) / 8 ∧ p.payload.length = (T + 7) / 8 ∧ 1 ≤ T ∧ 1 ≤ p.payload.length

/-! ## Decoder stage -/

/-- 41_decoder.md R173, R174: of a tree of two or more leaves, UNPACK decodes exactly the sequences of n leaf bytes whose codes,
the paths to their leaves with 0 to the left, begin the data bits; of a single leaf, exactly n copies of its byte if there are n
data bits. Stream bit i is bit 7 - i mod 8 of byte i div 8 (30_encoding.md R118). -/
def Obligations.UnpackDecodesTheCodes : Prop :=
  (∀ (t : Machine.Tree) (P out : List Byte) (pad n : Nat), t.bytes.Nodup →
    (unpackStage t P pad n = .ok out ↔
      match t with
      | .leaf _ b _ => out = List.replicate n b ∧ n ≤ 8 * P.length - pad
      | .node _ _ _ _ => out.length = n ∧ (∀ b ∈ out, b ∈ t.bytes) ∧
          out.flatMap (codeOf (codegenStage t)) <+: (streamBits P).take (8 * P.length - pad))) ∧
    (∀ (t : Machine.Tree) (b : Byte), t.bytes.Nodup → b ∈ t.bytes → 2 ≤ t.leafCount →
      t.leadsTo (codeOf (codegenStage t) b) b) ∧
    ∀ (P : List Byte) (i : Nat), i < 8 * P.length →
      (streamBits P)[i]? = some ((P.getD (i / 8) 0).getLsbD (7 - i % 8))

/-- R175, R177: decoding stops with the n-th byte, so bits and whole bytes after the ones it needed change nothing; and payloads
of one length that differ in the stripped padding bits alone decode the same. -/
def Obligations.ResidualAndPaddingBitsAreIgnored : Prop :=
  (∀ (root cur : Machine.Tree) (bits more : List Bool) (n : Nat) (out : List Byte),
    unpackLoop root cur bits n = some out → unpackLoop root cur (bits ++ more) n = some out ∧ out.length = n) ∧
    (∀ (root : Machine.Tree) (P Q : List Byte) (pad n : Nat) (out : List Byte),
      unpackStage root P pad n = .ok out → unpackStage root (P ++ Q) pad n = .ok out) ∧
    ∀ (root : Machine.Tree) (P Q : List Byte) (pad n : Nat), P.length = Q.length →
      (∀ i, i < 8 * P.length - pad → (streamBits P)[i]? = (streamBits Q)[i]?) →
      unpackStage root P pad n = unpackStage root Q pad n

/-- R180: UNPACK of what PACK made gives the input back, for the built tree and for any tree of its shape. -/
def Obligations.UnpackInvertsPack : Prop :=
  ∀ (B : List Byte) (tb : Tables), buildTables B = .ok tb →
    let p := packStage B tb.code
    unpackStage tb.built.root p.payload p.pad B.length = .ok B ∧
      unpackStage (tb.built.root.numbered 0) p.payload p.pad B.length = .ok B

/-! ## Container -/

/-- R120: the length of a container COMPRESS makes. -/
def Obligations.ContainerLengthFormula : Prop :=
  ∀ (outCap : Nat) (X B : List Byte) (tb : Tables) (r : Success), buildTables B = .ok tb →
    compressBytes outCap X B = .ok r →
    r.out.length = 15 + X.length + (3 * B.dedup.length - 1) + ((bitCount tb.freq tb.code) + 7) / 8

/-- R210 and R198 to R208: a byte string parses exactly when it is the container of some extension, count, padding count,
tree with distinct leaf bytes, and payload; the parse gives these back, the tree numbered in pre-order. The tree is serialized as
01 and its byte for a leaf, and as 00, the left and then the right subtree for an internal node (R195, R115, R116). -/
def Obligations.ParseInvertsSerialize : Prop :=
  (∀ (i : Nat) (b : Byte) (w : Nat), Machine.Tree.ser (.leaf i b w) = [0x01#8, b]) ∧
  (∀ (i w : Nat) (l r : Machine.Tree), Machine.Tree.ser (.node i w l r) = 0x00#8 :: (l.ser ++ r.ser)) ∧
  ∀ (C : List Byte) (p : Parsed),
    parseContainer C = some p ↔
      ∃ (X : List Byte) (n pad : Nat) (t : Machine.Tree) (P : List Byte),
        X.length ≤ 255 ∧ 1 ≤ n ∧ n < 2 ^ 64 ∧ pad ≤ 7 ∧ t.bytes.Nodup ∧
          C = [0x48#8, 0x55#8, 0x46#8, 0x46#8, 0x01#8] ++ (BitVec.ofNat 8 X.length :: X) ++
            (List.range 8).map (fun i => BitVec.ofNat 8 (n / 256 ^ i)) ++ [BitVec.ofNat 8 pad] ++ t.ser ++ P ∧
          p = ⟨X, n, pad, t.numbered 0, C.length - P.length, P⟩

/-- R179: a container COMPRESS made, cut by its last byte, is `CorruptPayloadError` at stage UNPACK. -/
def Obligations.TruncatedPayloadIsDetected : Prop :=
  (∀ (B : List Byte) (tb : Tables), buildTables B = .ok tb →
    let p := packStage B tb.code
    unpackStage (tb.built.root.numbered 0) p.payload.dropLast p.pad B.length = .error ⟨.corruptPayload, .unpack⟩) ∧
    ∀ (cap outCap : Nat) (X B : List Byte) (r : Success), X.length ≤ 255 → B.length < 2 ^ 64 → B.length ≤ outCap →
      compressBytes cap X B = .ok r →
      decompressBytes outCap r.out.dropLast = .error ⟨.corruptPayload, .unpack⟩

/-- R234: what COMPRESS put into `OUT_BUF`, relayed into `IN_BUF` of a block it fits, DECOMPRESS turns back into the input and
the extension. -/
def Obligations.DecompressInvertsCompress : Prop :=
  ∀ s t u : State, s.errCode = .none → exec .compress s = .next t → t.errCode = .none →
    u.inLen = t.res.outLen → u.inLen.toNat ≤ u.cfg.inCap.val →
    u.inputBytes = t.readBytes outBase t.res.outLen.toNat → s.inLen.toNat ≤ u.cfg.outCap.val →
    ∃ v, exec .decompress u = .next v ∧ Completes u v ∧ v.res.outLen = s.inLen ∧
      v.readBytes outBase v.res.outLen.toNat = s.inputBytes ∧
      v.readBytes extOutBase v.res.extLen.toNat = s.extensionBytes

/-- R230, R231: the statistics registers hold the exact difference, and the ratio in hundredths of a percent rounded toward
zero, for every pair of sizes a block can report. -/
def Obligations.StatisticsAreExact : Prop :=
  ∀ (r : Results) (orig comp : Nat), 1 ≤ orig → orig < 2 ^ 29 → comp < 2 ^ 29 →
    hasStats (withStats r orig comp) orig comp ∧ ratio 10 29 = -19000 ∧ ratio 1000 142 = 8580 ∧ ratio 7 3 = 5714 ∧
      ratio 7 9 = -2857 ∧ loHalf (withStats r 10 29).statSaved = 0xFFFFFFED#32 ∧
      hiHalf (withStats r 10 29).statSaved = 0xFFFFFFFF#32

/-! ## Host bus -/

/-- R74: SLVERR for exactly the accesses R72 to R74 do not allow, with data 0 and no other effect; OKAY for all others. -/
def Obligations.RefusedAccessesHaveNoEffect : Prop :=
  ∀ (s : State) (off : Word) (size : Size) (data : Word),
    (¬ readAllowed s.cfg off.toNat size →
      s.perform (.read off size) = { s with replies := .read 0 .slverr :: s.replies }) ∧
    (¬ writeAllowed s.cfg off.toNat size →
      s.perform (.write off size data) = { s with replies := .write .slverr :: s.replies }) ∧
    (readAllowed s.cfg off.toNat size → ∃ d, (s.transact (.read off size)).1 = .read d .okay) ∧
    (writeAllowed s.cfg off.toNat size → (s.transact (.write off size data)).1 = .write .okay)

/-- 20_memory.md R83: a read changes nothing of the block; when idle, the same read again gives the same answer. Only the
model's counter of free values moves, and only while busy (log 4). A byte or word read of a buffer (of an output buffer when idle)
answers the bytes it holds there, the lowest offset in bits [7:0] (R75, R78, R79, R302). -/
def Obligations.ReadsHaveNoSideEffect : Prop :=
  ∀ (s : State) (off : Word) (size : Size),
    (∃ rep draws, s.perform (.read off size) = { s with replies := rep :: s.replies, draws := draws }) ∧
      (s.busy = false →
        (s.transact (.read off size)).2 = s ∧
          ((s.perform (.read off size)).transact (.read off size)).1 = (s.transact (.read off size)).1) ∧
      (trueBufferRead s off.toNat .byte →
        s.transact (.read off .byte) = (.read ((s.byteAt off.toNat).setWidth 32) .okay, s)) ∧
      (trueBufferRead s off.toNat .word → ∃ d, s.transact (.read off .word) = (.read d .okay, s) ∧
        d.extractLsb' 0 8 = s.byteAt off.toNat ∧ d.extractLsb' 8 8 = s.byteAt (off.toNat + 1) ∧
        d.extractLsb' 16 8 = s.byteAt (off.toNat + 2) ∧ d.extractLsb' 24 8 = s.byteAt (off.toNat + 3))

/-- R301: the writes ignored while busy change `WIGN` alone; `STATUS` and `CTRL` writes are taken; read-only and reserved
registers ignore writes without `WIGN`, and so do refused writes. -/
def Obligations.WritesWhileBusy : Prop :=
  ∀ (s : State) (off : Word) (size : Size) (data : Word), s.busy = true →
    (lockedWrite s.cfg off.toNat size →
      s.perform (.write off size data) = { s with wign := true, replies := .write .okay :: s.replies }) ∧
    s.perform (.write 0x014#32 .word data) =
      { s with done := s.done && !data.getLsbD 1, wign := s.wign && !data.getLsbD 3,
               replies := .write .okay :: s.replies } ∧
    (data.getLsbD 1 = false → s.perform (.write 0x010#32 .word data) =
      { s with irqEn := data.getLsbD 0, replies := .write .okay :: s.replies }) ∧
    (data.getLsbD 1 = true → (s.perform (.write 0x010#32 .word data)).busy = false) ∧
    (registerAccess off.toNat size → ¬ lockedWrite s.cfg off.toNat size → off ≠ 0x010#32 → off ≠ 0x014#32 →
      s.perform (.write off size data) = { s with replies := .write .okay :: s.replies }) ∧
    (¬ writeAllowed s.cfg off.toNat size →
      s.perform (.write off size data) = { s with replies := .write .slverr :: s.replies })

/-- R302: while busy, a read of a result register or of an output buffer returns a free value, a fresh draw each time, and every
other register, the reserved offsets (0) and both input buffers return their true values. -/
def Obligations.ReadsWhileBusy : Prop :=
  ∀ (s : State) (off : Word) (size : Size), s.busy = true →
    (resultOffset off.toNat → s.transact (.read off .word) =
      (.read (Config.anyWord s.draws) .okay, { s with draws := s.draws + 1 })) ∧
    (bufferAccess inExtOut off.toNat size ∨ bufferAccess (inOutBuf s.cfg) off.toNat size →
      s.transact (.read off size) = (.read (anyData s.draws size) .okay, { s with draws := s.draws + 1 })) ∧
    (bufferAccess inExtIn off.toNat size ∨ bufferAccess (inInBuf s.cfg) off.toNat size →
      s.transact (.read off size) = (.read (s.readBuffer off.toNat size) .okay, s)) ∧
    (reservedOffset off.toNat → s.transact (.read off .word) = (.read 0 .okay, s)) ∧
    (∀ q ∈ [(0x000#32, 0x48554646#32), (0x004#32, 0x00000101#32), (0x008#32, BitVec.ofNat 32 s.cfg.inCap.val),
        (0x00C#32, BitVec.ofNat 32 s.cfg.outCap.val), (0x010#32, s.ctrlWord), (0x014#32, s.statusWord),
        (0x018#32, 0#32), (0x01C#32, s.inLen), (0x020#32, s.extLen.setWidth 32), (0x06C#32, s.symSel.setWidth 32),
        (0x098#32, s.nodeSel.setWidth 32)],
      s.transact (.read q.1 .word) = (.read q.2 .okay, s))

/-- R75: an accepted write of an input buffer stores its bytes little-endian and changes no other byte and no register; a word
read gives the four bytes back. -/
def Obligations.BufferWritesAreLittleEndian : Prop :=
  ∀ (s : State) (off : Word) (size : Size) (data : Word), s.busy = false →
    bufferAccess inExtIn off.toNat size ∨ bufferAccess (inInBuf s.cfg) off.toNat size →
    ∃ m, s.perform (.write off size data) = { s with mem := m, replies := .write .okay :: s.replies } ∧
      let t := s.perform (.write off size data)
      t.byteAt off.toNat = data.extractLsb' 0 8 ∧
      (size = .word → t.byteAt (off.toNat + 1) = data.extractLsb' 8 8 ∧
        t.byteAt (off.toNat + 2) = data.extractLsb' 16 8 ∧ t.byteAt (off.toNat + 3) = data.extractLsb' 24 8 ∧
        (t.transact (.read off .word)).1 = .read data .okay) ∧
      (size = .byte → sameBytes s t (fun a => a ≠ off.toNat) ∧
        (t.transact (.read off .byte)).1 = .read ((data.extractLsb' 0 8).setWidth 32) .okay) ∧
      (size = .word → sameBytes s t fun a => a < off.toNat ∨ off.toNat + 3 < a)

/-! ## Registers -/

/-- 10_state.md R21: an idle read of each register row below the readout windows, and of the two selects, gives the register of that
row, and the reserved offsets read 0. -/
def Obligations.RegisterMapReads : Prop :=
  ∀ s : State, s.busy = false →
    (∀ q ∈ [(0x000#32, 0x48554646#32), (0x004#32, 0x00000101#32), (0x008#32, BitVec.ofNat 32 s.cfg.inCap.val),
        (0x00C#32, BitVec.ofNat 32 s.cfg.outCap.val), (0x010#32, s.ctrlWord), (0x014#32, s.statusWord),
        (0x018#32, 0#32), (0x01C#32, s.inLen), (0x020#32, s.extLen.setWidth 32), (0x024#32, s.res.outLen),
        (0x028#32, s.res.orig.extractLsb' 0 32), (0x02C#32, s.res.orig.extractLsb' 32 32),
        (0x030#32, s.res.pad.setWidth 32), (0x034#32, s.res.nsym.setWidth 32),
        (0x038#32, s.res.bits.extractLsb' 0 32), (0x03C#32, s.res.bits.extractLsb' 32 32),
        (0x040#32, s.res.payloadOff), (0x044#32, s.res.payloadLen), (0x048#32, s.res.extLen.setWidth 32)],
      s.transact (.read q.1 .word) = (.read q.2 .okay, s)) ∧
    (∀ q ∈ [(0x050#32, s.res.root.setWidth 32), (0x054#32, s.res.statOrig), (0x058#32, s.res.statComp),
        (0x05C#32, s.res.statSaved.extractLsb' 0 32), (0x060#32, s.res.statSaved.extractLsb' 32 32),
        (0x064#32, s.res.statRatio.extractLsb' 0 32), (0x068#32, s.res.statRatio.extractLsb' 32 32),
        (0x06C#32, s.symSel.setWidth 32), (0x098#32, s.nodeSel.setWidth 32)],
      s.transact (.read q.1 .word) = (.read q.2 .okay, s)) ∧
    (s.res.arena.length ≤ 511 → ∃ d, s.transact (.read 0x04C#32 .word) = (.read d .okay, s) ∧
      d.toNat = s.res.arena.length) ∧
    ∀ off : Word, reservedOffset off.toNat →
      s.transact (.read off .word) = (.read 0 .okay, s)

/-- R22, R24: `ID`, `IN_CAP` and `OUT_CAP` read their constants in every state, whatever was written to them. -/
def Obligations.ConstantRegisters : Prop :=
  ∀ (s : State) (v : Word),
    s.transact (.read 0x000#32 .word) = (.read 0x48554646#32 .okay, s) ∧
    (∃ d, s.transact (.read 0x008#32 .word) = (.read d .okay, s) ∧ d.toNat = s.cfg.inCap.val) ∧
    (∃ d, s.transact (.read 0x00C#32 .word) = (.read d .okay, s) ∧ d.toNat = s.cfg.outCap.val) ∧
    ∀ off ∈ [0x000#32, 0x004#32, 0x008#32, 0x00C#32], s.transact (.write off .word v) = (.write .okay, s)

/-- R34, R35, R49, R50 and R25: an idle write of an RW register sets its defined field and nothing else. -/
def Obligations.InputRegistersKeepTheirFields : Prop :=
  ∀ (s : State) (v : Word), s.busy = false →
    s.transact (.write 0x01C#32 .word v) = (.write .okay, { s with inLen := v }) ∧
    s.transact (.write 0x020#32 .word v) = (.write .okay, { s with extLen := v.extractLsb' 0 8 }) ∧
    s.transact (.write 0x06C#32 .word v) = (.write .okay, { s with symSel := v.extractLsb' 0 8 }) ∧
    s.transact (.write 0x098#32 .word v) = (.write .okay, { s with nodeSel := v.extractLsb' 0 9 })

/-- R49: the symbol readout of an idle block shows the selected count, the length of the selected code, and its bits as one
256-bit number, first bit most significant. -/
def Obligations.SymbolReadout : Prop :=
  ∀ s : State, s.busy = false →
    let code := codeOf s.res.code s.symSel
    s.transact (.read 0x070#32 .word) = (.read ((SMap.get? s.res.freq s.symSel.toNat).getD 0) .okay, s) ∧
    (code.length ≤ 255 →
      (∃ d, s.transact (.read 0x074#32 .word) = (.read d .okay, s) ∧ d.toNat = code.length) ∧
      ∀ j : Fin 8, ∃ d, s.transact (.read (BitVec.ofNat 32 (0x078 + 4 * j.val)) .word) = (.read d .okay, s) ∧
        ∀ i, i < 32 → d.getLsbD i = (code.reverse[32 * j.val + i]?).getD false)

/-- R50: the node readout of an idle block. -/
def Obligations.NodeReadout : Prop :=
  ∀ s : State, s.busy = false →
    ∃ info left right weight,
      s.transact (.read 0x09C#32 .word) = (.read info .okay, s) ∧
      s.transact (.read 0x0A0#32 .word) = (.read left .okay, s) ∧
      s.transact (.read 0x0A4#32 .word) = (.read right .okay, s) ∧
      s.transact (.read 0x0A8#32 .word) = (.read weight .okay, s) ∧
      (info.getLsbD 0 = true ↔ s.nodeSel.toNat < s.res.arena.length) ∧
      (∀ b w, s.res.arena[s.nodeSel.toNat]? = some (.leaf b w) →
        info.toNat = 3 + 256 * b.toNat ∧ left = 0 ∧ right = 0 ∧ weight = w) ∧
      (∀ w l r, s.res.arena[s.nodeSel.toNat]? = some (.internal w l r) →
        info = 1 ∧ left.toNat = l.toNat ∧ right.toNat = r.toNat ∧ weight = w) ∧
      (s.res.arena.length ≤ s.nodeSel.toNat → info = 0 ∧ left = 0 ∧ right = 0 ∧ weight = 0)

/-! ## STATUS, CTRL, CMD, irq -/

/-- R27: the fields of `STATUS`, and its write-1-to-clear, taken at any time; and the numbers of the error codes and stages
(60_exceptions.md sections 1 and 2). -/
def Obligations.StatusFieldsAndClearing : Prop :=
  ∀ (s : State) (v : Word),
    s.transact (.read 0x014#32 .word) = (.read s.statusWord .okay, s) ∧
    s.statusWord.getLsbD 0 = s.busy ∧ s.statusWord.getLsbD 1 = s.done ∧
    s.statusWord.getLsbD 2 = decide (s.errCode ≠ .none) ∧ s.statusWord.getLsbD 3 = s.wign ∧
    s.statusWord.extractLsb' 4 4 = 0 ∧ s.statusWord.extractLsb' 8 4 = s.errCode.toBits ∧
    s.statusWord.extractLsb' 12 4 = s.errStage.toBits ∧ s.statusWord.extractLsb' 16 8 = s.lastOp ∧
    s.statusWord.extractLsb' 24 8 = 0 ∧
    s.transact (.write 0x014#32 .word v) =
      (.write .okay, { s with done := s.done && !v.getLsbD 1, wign := s.wign && !v.getLsbD 3 }) ∧
    [ErrCode.none, .emptyInput, .invalidFormat, .corruptPayload, .illegalCommand, .lengthError, .outputOverflow,
      .internalError].map (fun c => c.toBits.toNat) = List.range 8 ∧
    [Stage.none, .command, .freq, .build, .codegen, .pack, .serialize, .deserialize, .unpack].map
      (fun c => c.toBits.toNat) = List.range 9 ∧
    ∀ c : Config, (State.resetWith c).statusWord = 0

/-- R26: `CTRL` reads `IRQ_EN` alone; a write without bit 1 sets it, at any time; a write with bit 1 resets, and leaves it 0. -/
def Obligations.ControlRegister : Prop :=
  ∀ (s : State) (v : Word),
    (∃ d, s.transact (.read 0x010#32 .word) = (.read d .okay, s) ∧ d.toNat = s.irqEn.toNat) ∧
    (v.getLsbD 1 = false →
      s.transact (.write 0x010#32 .word v) = (.write .okay, { s with irqEn := v.getLsbD 0 })) ∧
    (v.getLsbD 1 = true →
      s.transact (.write 0x010#32 .word v) = (.write .okay, s.softReset) ∧ s.softReset.irqEn = false)

/-- R221: a `CMD` write is ignored with `WIGN` while busy, and else latched, with DONE and the error fields cleared. -/
def Obligations.CommandWriteIssues : Prop :=
  ∀ (s : State) (w : Word),
    (s.busy = true → s.transact (.write 0x018#32 .word w) = (.write .okay, { s with wign := true })) ∧
    (s.busy = false → s.transact (.write 0x018#32 .word w) =
      (.write .okay, { s with cmdword := w, op := w.extractLsb' 0 8, busy := true, done := false,
                              errCode := .none, errStage := .none, lastOp := w.extractLsb' 0 8 }))

/-- R57, R266: `irq` is DONE and IRQ_EN; it follows IRQ_EN at once while DONE, and falls by an acknowledgement, an accepted
command and either reset. -/
def Obligations.InterruptLevel : Prop :=
  ∀ (s : State) (w v : Word),
    s.irq = (s.done && s.irqEn) ∧ (s.irqEn = false → s.irq = false) ∧
    (s.done = true → v.getLsbD 0 = true → v.getLsbD 1 = false →
      (s.perform (.write 0x010#32 .word v)).irq = true) ∧
    (v.getLsbD 0 = false → v.getLsbD 1 = false →
      (s.perform (.write 0x010#32 .word v)).irq = false ∧ (s.perform (.write 0x010#32 .word v)).done = s.done) ∧
    (v.getLsbD 1 = true → (s.perform (.write 0x014#32 .word v)).irq = false) ∧
    (s.busy = false → (s.perform (.write 0x018#32 .word w)).irq = false) ∧
    s.softReset.irq = false ∧ s.powerOnReset.irq = false

/-! ## Reset -/

/-- R293: after either reset, for every choice of the parameters: the identity registers hold their constants, every other
register reads 0, every table is empty, busy and irq are 0. -/
def Obligations.ResetRegisterValues : Prop :=
  (∀ c : Config, ∀ r : Reg, (State.resetWith c).readReg r = resetValue c r) ∧
    (∀ c : Config, (State.resetWith c).cfg = c ∧ (State.resetWith c).busy = false ∧ (State.resetWith c).irq = false ∧
      (State.resetWith c).res = Results.reset ∧ (State.resetWith c).mem = []) ∧
    ∀ s : State, (∀ r : Reg, s.softReset.readReg r = resetValue s.cfg r ∧ s.powerOnReset.readReg r = resetValue s.cfg r) ∧
      s.softReset.busy = false ∧ s.powerOnReset.busy = false ∧ s.softReset.irq = false ∧ s.powerOnReset.irq = false ∧
      s.softReset.res = Results.reset ∧ s.powerOnReset.res = Results.reset

/-- R290: power-on reset, at any time: every register and table as after reset, the parameters kept, and every buffer `any`. -/
def Obligations.PowerOnResetAtAnyTime : Prop :=
  ∀ (s : State) (ts : List Turn), s.turns = .powerOn :: ts →
    ∃ t, step s = .next t ∧ t.cfg = s.cfg ∧ t.busy = false ∧ t.irq = false ∧ t.res = Results.reset ∧
      (∀ r : Reg, t.readReg r = resetValue s.cfg r) ∧
      (becameAny s t fun a => inInBuf s.cfg a ∨ inExtIn a ∨ inOutBuf s.cfg a ∨ inExtOut a)

/-- R291, R292: a `CTRL` write with bit 1 set resets every register and table at any time; it keeps the buffers, but an abort
makes the output buffers `any`, and raises no completion. -/
def Obligations.SoftResetAndAbort : Prop :=
  ∀ (s : State) (v : Word), v.getLsbD 1 = true →
    let t := s.perform (.write 0x010#32 .word v)
    t.cfg = s.cfg ∧ t.busy = false ∧ t.done = false ∧ t.errCode = .none ∧ t.errStage = .none ∧ t.irq = false ∧
      t.res = Results.reset ∧ (∀ r : Reg, t.readReg r = resetValue s.cfg r) ∧
      sameBytes s t (fun a => inInBuf s.cfg a ∨ inExtIn a) ∧
      (s.busy = false → sameBytes s t fun a => inOutBuf s.cfg a ∨ inExtOut a) ∧
      (s.busy = true → becameAny s t (inOutBuf s.cfg) ∧ becameAny s t inExtOut)

/-! ## Whole-machine rules -/

/-- R28, R29: BUSY is set by an accepted command and cleared by completion and by a reset; DONE is set by completion and cleared by
an accepted command, an acknowledgement and a reset; nothing else changes them. -/
def Obligations.OnlyTheseEventsChangeBusyAndDone : Prop :=
  ∀ s t : State, step s = .next t →
    (∀ w, s.acceptsNext w → t.busy = true ∧ t.done = false) ∧ (s.completesNext → t.busy = false ∧ t.done = true) ∧
      (s.resetsNext → t.busy = false ∧ t.done = false) ∧
      (∀ v, s.nextTxn = some (.write 0x014#32 .word v) → t.done = (s.done && !v.getLsbD 1)) ∧
      ((∀ w, ¬ s.acceptsNext w) → ¬ s.completesNext → ¬ s.resetsNext → t.busy = s.busy ∧
        ((∀ v, s.nextTxn ≠ some (.write 0x014#32 .word v)) → t.done = s.done))

/-- R31: what changes WIGN; a command does not. -/
def Obligations.OnlyTheseEventsChangeWign : Prop :=
  ∀ s t : State, step s = .next t →
    (s.ignoresNext → t.wign = true) ∧
      (∀ v, s.nextTxn = some (.write 0x014#32 .word v) → t.wign = (s.wign && !v.getLsbD 3)) ∧
      (s.resetsNext → t.wign = false) ∧
      (¬ s.ignoresNext → (∀ v, s.nextTxn ≠ some (.write 0x014#32 .word v)) → ¬ s.resetsNext → t.wign = s.wign)

/-- R30, R32: what changes the error fields and LAST_OP. -/
def Obligations.OnlyTheseEventsChangeErrorFields : Prop :=
  ∀ s t : State, step s = .next t →
    (∀ w, s.acceptsNext w → t.errCode = .none ∧ t.errStage = .none ∧ t.err = false ∧ t.lastOp = w.extractLsb' 0 8) ∧
      (s.completesNext → t.lastOp = s.lastOp ∧
        ((t.errCode = s.errCode ∧ t.errStage = s.errStage) ∨
          (t.errCode ≠ .none ∧ t.errStage ≠ .none ∧ t.err = true ∧ t.res = Results.reset))) ∧
      (s.resetsNext → t.errCode = .none ∧ t.errStage = .none ∧ t.err = false ∧ t.lastOp = 0) ∧
      ((∀ w, ¬ s.acceptsNext w) → ¬ s.completesNext → ¬ s.resetsNext →
        t.errCode = s.errCode ∧ t.errStage = s.errStage ∧ t.lastOp = s.lastOp)

/-- R304: results, tables and output buffers change by a completion and by a reset alone, so a host write to `IN_BUF` after
completion changes no result. -/
def Obligations.ResultStateIsStable : Prop :=
  ∀ s t : State, step s = .next t → ¬ s.completesNext → ¬ s.resetsNext →
    t.res = s.res ∧ sameBytes s t fun a => inOutBuf s.cfg a ∨ inExtOut a

/-! ## Invariants -/

/-- The state after reset meets both invariants, for every choice of the parameters; the sparse form in the second is the model's
choice (log 19). -/
def Obligations.ResetMeetsTheInvariants : Prop :=
  ∀ c : Config, Inv (State.resetWith c) ∧ TablesOk (State.resetWith c).res

/-- Every step keeps the invariant of the state: canonical memory inside the buffers, what `STATUS` never says, what an error
leaves, an output that fits, draws spent once. -/
def Obligations.EveryStepKeepsTheInvariant : Prop :=
  ∀ s t : State, Inv s → step s = .next t → Inv t

/-- Every step keeps the invariant of the result tables: codes of 1 to 255 bits, an arena of at most 511 nodes with a valid root and
valid children; and `FREQ` and `CODE` in ascending order with no default entry, which is the model's own sparse form (log 19) and not
the 256-entry tables of R53. -/
def Obligations.EveryStepKeepsTheTables : Prop :=
  ∀ s t : State, TablesOk s.res → step s = .next t → TablesOk t.res
end

