-- ==== Sys2Proof/Laws/SMap.lean ====
section
/-!
SUPPORT. Sparse maps: reading after writing, erasing, and that every operation keeps the canonical form.
-/

namespace Sys2Proof.Machine

/-! ## The canonical form as a pairwise order -/

/-- The keys rise strictly. -/
theorem SMap.sorted_iff_pairwise {α : Type} (m : SMap α) :
    SMap.sorted m = true ↔ m.Pairwise fun e f => e.1 < f.1 := by
  induction m with
  | nil => simp [SMap.sorted]
  | cons e m ih =>
    obtain ⟨a, x⟩ := e
    cases m with
    | nil => simp [SMap.sorted]
    | cons f m =>
      obtain ⟨b, y⟩ := f
      simp only [SMap.sorted, Bool.and_eq_true, decide_eq_true_eq, ih, List.pairwise_cons]
      constructor
      · rintro ⟨hab, hb, hm⟩
        refine ⟨?_, hb, hm⟩
        intro g hg
        rcases List.mem_cons.mp hg with rfl | hg
        · exact hab
        · exact lt_trans hab (hb g hg)
      · rintro ⟨ha, hb, hm⟩
        exact ⟨ha (b, y) (List.mem_cons_self ..), hb, hm⟩

theorem SMap.sorted_nil {α : Type} : SMap.sorted ([] : SMap α) = true := rfl

/-- A canonical map without its first entry is canonical, and that entry has the least key. -/
theorem SMap.sorted_cons {α : Type} {e : Nat × α} {m : SMap α} :
    SMap.sorted (e :: m) = true ↔ (∀ f ∈ m, e.1 < f.1) ∧ SMap.sorted m = true := by
  simp [SMap.sorted_iff_pairwise]

/-! ## Reading -/

@[simp] theorem SMap.get?_nil {α : Type} (a : Nat) : SMap.get? ([] : SMap α) a = none := rfl

theorem SMap.get?_cons {α : Type} (e : Nat × α) (m : SMap α) (a : Nat) :
    SMap.get? (e :: m) a = if a = e.1 then some e.2 else SMap.get? m a := by
  rcases e with ⟨c, x⟩
  rfl

/-- What is read is an entry of the list. -/
theorem SMap.mem_of_get? {α : Type} {m : SMap α} {a : Nat} {x : α} (h : SMap.get? m a = some x) : (a, x) ∈ m := by
  induction m with
  | nil => simp at h
  | cons e m ih =>
    rw [SMap.get?_cons] at h
    split at h
    · rename_i hae
      cases h
      cases e
      simp_all
    · exact List.mem_cons_of_mem _ (ih h)

/-- A key that no entry has reads as absent. -/
theorem SMap.get?_eq_none {α : Type} {m : SMap α} {a : Nat} (h : ∀ e ∈ m, e.1 ≠ a) : SMap.get? m a = none := by
  induction m with
  | nil => rfl
  | cons e m ih =>
    rw [SMap.get?_cons, if_neg fun hae => h e (List.mem_cons_self ..) hae.symm]
    exact ih fun f hf => h f (List.mem_cons_of_mem _ hf)

/-- In a canonical map every entry is what its key reads as. -/
theorem SMap.get?_of_mem {α : Type} {m : SMap α} {a : Nat} {x : α} (hm : SMap.sorted m = true) (h : (a, x) ∈ m) :
    SMap.get? m a = some x := by
  induction m with
  | nil => simp at h
  | cons e m ih =>
    rw [SMap.get?_cons]
    rcases List.mem_cons.mp h with rfl | h
    · simp
    · have hlt := (SMap.sorted_cons.mp hm).1 _ h
      rw [if_neg (by simp at hlt; omega)]
      exact ih (SMap.sorted_cons.mp hm).2 h

/-! ## Writing -/

/-- A read after a write to the same key gives the value written. -/
@[simp] theorem SMap.get?_set_self {α : Type} (m : SMap α) (a : Nat) (x : α) :
    SMap.get? (SMap.set m a x) a = some x := by
  induction m with
  | nil => simp [SMap.set, SMap.get?]
  | cons e m ih =>
    rcases e with ⟨c, y⟩
    simp only [SMap.set]
    split
    · simp [SMap.get?]
    · split
      · simp [SMap.get?]
      · rename_i h
        simp [SMap.get?, h, ih]

/-- A write leaves every other key alone. -/
theorem SMap.get?_set_of_ne {α : Type} (m : SMap α) {a b : Nat} (x : α) (hab : b ≠ a) :
    SMap.get? (SMap.set m a x) b = SMap.get? m b := by
  induction m with
  | nil => simp [SMap.set, SMap.get?, hab]
  | cons e m ih =>
    rcases e with ⟨c, y⟩
    simp only [SMap.set]
    split
    · simp [SMap.get?, hab]
    · split
      · rename_i h
        subst h
        simp [SMap.get?, hab]
      · simp [SMap.get?, ih]

theorem SMap.get?_set {α : Type} (m : SMap α) (a b : Nat) (x : α) :
    SMap.get? (SMap.set m a x) b = if b = a then some x else SMap.get? m b := by
  split
  · subst_vars; simp
  · exact SMap.get?_set_of_ne m x ‹_›

/-- The entries after a write: the new one, and old ones of other keys. -/
theorem SMap.mem_set {α : Type} {m : SMap α} {a : Nat} {x : α} {e : Nat × α} (h : e ∈ SMap.set m a x) :
    e = (a, x) ∨ e ∈ m := by
  induction m with
  | nil => simpa [SMap.set] using h
  | cons f m ih =>
    rcases f with ⟨c, y⟩
    simp only [SMap.set] at h
    split at h
    · simpa using h
    · split at h
      · rcases List.mem_cons.mp h with h | h
        · exact .inl h
        · exact .inr (List.mem_cons_of_mem _ h)
      · rcases List.mem_cons.mp h with h | h
        · exact .inr (h ▸ List.mem_cons_self ..)
        · exact (ih h).imp id (List.mem_cons_of_mem _)

/-- A write keeps the canonical form. -/
theorem SMap.sorted_set {α : Type} {m : SMap α} (a : Nat) (x : α) (hm : SMap.sorted m = true) :
    SMap.sorted (SMap.set m a x) = true := by
  induction m with
  | nil => rfl
  | cons e m ih =>
    rcases e with ⟨c, y⟩
    obtain ⟨hc, hm'⟩ := SMap.sorted_cons.mp hm
    simp only [SMap.set]
    split
    · rename_i hac
      refine SMap.sorted_cons.mpr ⟨?_, hm⟩
      intro f hf
      rcases List.mem_cons.mp hf with rfl | hf
      · exact hac
      · exact lt_trans hac (hc f hf)
    · split
      · rename_i hac
        subst hac
        exact SMap.sorted_cons.mpr ⟨hc, hm'⟩
      · refine SMap.sorted_cons.mpr ⟨?_, ih hm'⟩
        intro f hf
        rcases SMap.mem_set hf with rfl | hf
        · simp; omega
        · exact hc f hf

/-! ## Erasing -/

theorem SMap.mem_eraseRange {α : Type} {m : SMap α} {a n : Nat} {e : Nat × α} :
    e ∈ SMap.eraseRange m a n ↔ e ∈ m ∧ ¬ (a ≤ e.1 ∧ e.1 < a + n) := by
  simp only [SMap.eraseRange, List.mem_filter, Bool.not_eq_true', Bool.and_eq_false_iff, decide_eq_false_iff_not]
  refine and_congr_right fun _ => ?_
  omega

/-- Erasing keeps the canonical form. -/
theorem SMap.sorted_eraseRange {α : Type} {m : SMap α} (a n : Nat) (hm : SMap.sorted m = true) :
    SMap.sorted (SMap.eraseRange m a n) = true := by
  rw [SMap.sorted_iff_pairwise] at *
  exact hm.filter _

/-- An erased key reads as absent, every other one as before. -/
theorem SMap.get?_eraseRange {α : Type} (m : SMap α) (a n b : Nat) :
    SMap.get? (SMap.eraseRange m a n) b = if a ≤ b ∧ b < a + n then none else SMap.get? m b := by
  induction m with
  | nil => simp [SMap.eraseRange, SMap.get?]
  | cons e m ih =>
    rcases e with ⟨c, y⟩
    have hstep : SMap.eraseRange ((c, y) :: m) a n =
        if a ≤ c ∧ c < a + n then SMap.eraseRange m a n else (c, y) :: SMap.eraseRange m a n := by
      simp only [SMap.eraseRange, List.filter_cons]
      by_cases h : a ≤ c ∧ c < a + n
      · simp [h.1, h.2]
      · have : (!(decide (a ≤ c) && decide (c < a + n))) = true := by
          simp only [Bool.not_eq_true', Bool.and_eq_false_iff, decide_eq_false_iff_not]
          omega
        simp [this, h]
    rw [hstep]
    by_cases hbc : b = c
    · subst hbc
      by_cases h : a ≤ b ∧ b < a + n
      · simp [h, ih]
      · simp [h, SMap.get?]
    · by_cases h : a ≤ c ∧ c < a + n
      · simp [h, ih, SMap.get?, hbc]
      · simp [h, ih, SMap.get?, hbc]

/-! ## Byte strings -/

/-- Inside the written range the byte written, elsewhere what was there. -/
theorem Memory.get?_writeBytes (m : Memory) (a : Nat) (bs : List Byte) (b : Nat) :
    SMap.get? (Memory.writeBytes m a bs) b =
      if a ≤ b ∧ b < a + bs.length then bs[b - a]? else SMap.get? m b := by
  induction bs generalizing m a with
  | nil => simp [Memory.writeBytes]
  | cons x bs ih =>
    simp only [Memory.writeBytes, ih, SMap.get?_set, List.length_cons]
    by_cases hba : b = a
    · subst hba
      simp
    · by_cases h : a + 1 ≤ b ∧ b < a + 1 + bs.length
      · have hb : b - a = (b - (a + 1)) + 1 := by omega
        rw [if_pos h, if_pos (by omega), hb]
        simp
      · rw [if_neg h, if_neg hba, if_neg (by omega)]

theorem Memory.sorted_writeBytes {m : Memory} (a : Nat) (bs : List Byte) (hm : SMap.sorted m = true) :
    SMap.sorted (Memory.writeBytes m a bs) = true := by
  induction bs generalizing m a with
  | nil => exact hm
  | cons x bs ih => exact ih _ (SMap.sorted_set a x hm)

/-- The entries after writing a byte string: old ones, and new ones inside the range. -/
theorem Memory.mem_writeBytes {m : Memory} {a : Nat} {bs : List Byte} {e : Nat × Byte}
    (h : e ∈ Memory.writeBytes m a bs) : e ∈ m ∨ (a ≤ e.1 ∧ e.1 < a + bs.length) := by
  induction bs generalizing m a with
  | nil => exact .inl h
  | cons x bs ih =>
    rcases ih h with h | h
    · rcases SMap.mem_set h with rfl | h
      · right; simp
      · exact .inl h
    · right
      simp only [List.length_cons]
      omega

end Sys2Proof.Machine
end

