-- ==== Sys2Proof/Laws/Tree.lean ====
section
/-!
SUPPORT. Trees: leaves, nodes, depth, the pre-order numbering and the path to a leaf.
-/

namespace Sys2Proof.Machine

/-- The nesting depth of a tree, a leaf having depth 1. -/
def Tree.depth : Tree → Nat
  | .leaf _ _ _ => 1
  | .node _ _ l r => 1 + max l.depth r.depth

theorem Tree.one_le_leafCount (t : Tree) : 1 ≤ t.leafCount := by
  induction t with
  | leaf => simp [Tree.leafCount]
  | node i w l r ihl ihr => simp only [Tree.leafCount]; omega

@[simp] theorem Tree.length_bytes (t : Tree) : t.bytes.length = t.leafCount := by
  induction t with
  | leaf => rfl
  | node i w l r ihl ihr => simp [Tree.bytes, Tree.leafCount, ihl, ihr]

/-- Every tree has one node less than twice its leaves. -/
theorem Tree.nodeCount_eq (t : Tree) : t.nodeCount + 1 = 2 * t.leafCount := by
  induction t with
  | leaf => rfl
  | node i w l r ihl ihr => simp only [Tree.nodeCount, Tree.leafCount]; omega

@[simp] theorem Tree.length_preorder (t : Tree) : t.preorder.length = t.nodeCount := by
  induction t with
  | leaf => rfl
  | node i w l r ihl ihr => simp [Tree.preorder, Tree.nodeCount, ihl, ihr]; omega

theorem Tree.depth_le_leafCount (t : Tree) : t.depth ≤ t.leafCount := by
  induction t with
  | leaf => exact le_refl _
  | node i w l r ihl ihr =>
    have := l.one_le_leafCount
    have := r.one_le_leafCount
    simp only [Tree.depth, Tree.leafCount]
    omega

/-- Distinct bytes are at most 256. -/
theorem Byte.length_le_of_nodup {bs : List Byte} (h : bs.Nodup) : bs.length ≤ 256 := by
  have h1 : (bs.map fun b => b.toNat).Nodup := h.map fun a b hab => BitVec.eq_of_toNat_eq hab
  have h2 : bs.map (fun b => b.toNat) ⊆ List.range 256 := by
    intro n hn
    obtain ⟨b, -, rfl⟩ := List.mem_map.mp hn
    exact List.mem_range.mpr b.isLt
  have := (h1.subperm h2).length_le
  simpa using this

theorem Tree.leafCount_le_of_nodup {t : Tree} (h : t.bytes.Nodup) : t.leafCount ≤ 256 := by
  have := Byte.length_le_of_nodup h
  simpa using this

/-! ## The pre-order numbering -/

@[simp] theorem Tree.idx_numbered (i : Nat) (t : Tree) : (t.numbered i).idx = i := by
  cases t <;> rfl

@[simp] theorem Tree.nodeCount_numbered (i : Nat) (t : Tree) : (t.numbered i).nodeCount = t.nodeCount := by
  induction t generalizing i with
  | leaf => rfl
  | node j w l r ihl ihr => simp [Tree.numbered, Tree.nodeCount, ihl, ihr]

@[simp] theorem Tree.leafCount_numbered (i : Nat) (t : Tree) : (t.numbered i).leafCount = t.leafCount := by
  induction t generalizing i with
  | leaf => rfl
  | node j w l r ihl ihr => simp [Tree.numbered, Tree.leafCount, ihl, ihr]

@[simp] theorem Tree.bytes_numbered (i : Nat) (t : Tree) : (t.numbered i).bytes = t.bytes := by
  induction t generalizing i with
  | leaf => rfl
  | node j w l r ihl ihr => simp [Tree.numbered, Tree.bytes, ihl, ihr]

@[simp] theorem Tree.ser_numbered (i : Nat) (t : Tree) : (t.numbered i).ser = t.ser := by
  induction t generalizing i with
  | leaf => rfl
  | node j w l r ihl ihr => simp [Tree.numbered, Tree.ser, ihl, ihr]

@[simp] theorem Tree.numbered_numbered (i j : Nat) (t : Tree) : (t.numbered j).numbered i = t.numbered i := by
  induction t generalizing i j with
  | leaf => rfl
  | node k w l r ihl ihr => simp [Tree.numbered, ihl, ihr]

/-- S = 3k - 1 (R115). -/
theorem Tree.length_ser (t : Tree) : t.ser.length + 1 = 3 * t.leafCount := by
  induction t with
  | leaf => rfl
  | node i w l r ihl ihr => simp only [Tree.ser, Tree.leafCount, List.length_cons, List.length_append]; omega

/-! ## Paths -/

/-- The path to the leaf of a byte: `false` to the left, `true` to the right (R150). -/
def Tree.path : Tree → Byte → List Bool
  | .leaf _ _ _, _ => []
  | .node _ _ l r, b => if b ∈ l.bytes then false :: l.path b else true :: r.path b

@[simp] theorem Tree.path_numbered (i : Nat) (t : Tree) (b : Byte) : (t.numbered i).path b = t.path b := by
  induction t generalizing i with
  | leaf => rfl
  | node j w l r ihl ihr => simp [Tree.numbered, Tree.path, ihl, ihr]

theorem Tree.length_path_lt_depth (t : Tree) (b : Byte) : (t.path b).length < t.depth := by
  induction t with
  | leaf => simp [Tree.path, Tree.depth]
  | node i w l r ihl ihr =>
    simp only [Tree.path, Tree.depth]
    split <;> simp only [List.length_cons] <;> omega

/-- No path to a leaf continues a path to another leaf (R153). -/
theorem Tree.path_prefixFree {t : Tree} {b c : Byte} (hn : t.bytes.Nodup) (hb : b ∈ t.bytes) (hc : c ∈ t.bytes)
    (h : t.path b <+: t.path c) : b = c := by
  induction t with
  | leaf => simp [Tree.bytes] at hb hc; rw [hb, hc]
  | node i w l r ihl ihr =>
    simp only [Tree.bytes, List.nodup_append, List.mem_append] at hn hb hc
    obtain ⟨hl, hr, hd⟩ := hn
    simp only [Tree.path] at h
    split at h <;> split at h
    · exact ihl hl ‹_› ‹_› (by simpa using h)
    · simp at h
    · simp at h
    · exact ihr hr (hb.resolve_left ‹_›) (hc.resolve_left ‹_›) (by simpa using h)

/-- The path to a leaf byte leads to it. -/
theorem Tree.leadsTo_path {t : Tree} {b : Byte} (hb : b ∈ t.bytes) : t.leadsTo (t.path b) b := by
  induction t with
  | leaf i c w => simpa [Tree.bytes, Tree.leadsTo, eq_comm, Tree.path] using hb
  | node i w l r ihl ihr =>
    simp only [Tree.path]
    split
    · exact ihl ‹_›
    · exact ihr ((List.mem_append.mp hb).resolve_left ‹_›)

/-! ## Arenas -/

theorem getElem?_append_of_some {A : List Node} {i : Nat} {x : Node} (h : A[i]? = some x) (B : List Node) :
    (A ++ B)[i]? = some x := by
  rw [List.getElem?_append_left (List.getElem?_eq_some_iff.mp h).1]
  exact h

/-- A longer arena still holds a tree. -/
theorem Tree.storedIn_append {A : List Node} {t : Tree} (h : t.storedIn A) (B : List Node) : t.storedIn (A ++ B) := by
  induction t with
  | leaf i b w =>
    obtain ⟨v, h1, h2⟩ := h
    exact ⟨v, getElem?_append_of_some h1 B, h2⟩
  | node i w l r ihl ihr =>
    obtain ⟨⟨v, x, y, h1, h2⟩, hl, hr⟩ := h
    exact ⟨⟨v, x, y, getElem?_append_of_some h1 B, h2⟩, ihl hl, ihr hr⟩

theorem Tree.weightAt_of_storedIn {A : List Node} {t : Tree} (h : t.storedIn A) : weightAt A t.idx = t.weight := by
  cases t with
  | leaf i b w =>
    obtain ⟨v, h1, h2⟩ := h
    simp [weightAt, Tree.idx, Tree.weight, h1, h2]
  | node i w l r =>
    obtain ⟨⟨v, x, y, h1, h2, -⟩, -⟩ := h
    simp [weightAt, Tree.idx, Tree.weight, h1, h2]

theorem weightAt_append {A : List Node} {i : Nat} (h : i < A.length) (B : List Node) :
    weightAt (A ++ B) i = weightAt A i := by
  simp [weightAt, List.getElem?_append_left h]

theorem lighter_append {A : List Node} {i j : Nat} (hi : i < A.length) (hj : j < A.length) (B : List Node) :
    lighter (A ++ B) i j ↔ lighter A i j := by
  rw [lighter, lighter, weightAt_append hi, weightAt_append hj]

theorem activeAt_append {A : List Node} {j : Nat} (h : j ≤ A.length) (B : List Node) (i : Nat) :
    activeAt (A ++ B) j i ↔ activeAt A j i := by
  have hget : ∀ m, m < j → (A ++ B)[m]? = A[m]? := fun m hm => List.getElem?_append_left (by omega)
  constructor
  · rintro ⟨h1, h2⟩
    exact ⟨h1, fun m w l r hm hA => h2 m w l r hm ((hget m hm).trans hA)⟩
  · rintro ⟨h1, h2⟩
    exact ⟨h1, fun m w l r hm hA => h2 m w l r hm ((hget m hm).symm.trans hA)⟩

/-- A merge stays one in a longer arena. -/
theorem isMergeAt_append {A : List Node} {j : Nat} (h : j < A.length) (B : List Node) (hm : isMergeAt A j) :
    isMergeAt (A ++ B) j := by
  obtain ⟨w, x, y, h1, h2, h3, h4, h5, h6⟩ := hm
  have hx := h3.1
  have hy := h4.1
  refine ⟨w, x, y, getElem?_append_of_some h1 B, ?_, (activeAt_append h.le ..).mpr h3, (activeAt_append h.le ..).mpr h4,
    (lighter_append (by omega) (by omega) B).mpr h5, fun i hi hix hiy => ?_⟩
  · rw [weightAt_append (by omega), weightAt_append (by omega)]
    exact h2
  · rw [activeAt_append h.le] at hi
    have := hi.1
    exact (lighter_append (by omega) (by omega) B).mpr (h6 i hi hix hiy)

/-- A tree numbered from `i` is stored in an arena that holds its pre-order from index `i` on. -/
theorem Tree.storedIn_preorder (t : Tree) (i : Nat) (A B : List Node) (hA : A.length = i) (hi : i + t.nodeCount ≤ 512) :
    (t.numbered i).storedIn (A ++ (t.numbered i).preorder ++ B) := by
  induction t generalizing i A B with
  | leaf j b w => exact ⟨0, by simp [Tree.numbered, Tree.preorder, Tree.toNode, ← hA], rfl⟩
  | node j w l r ihl ihr =>
    have hl1 := l.nodeCount_eq
    have hl2 := l.one_le_leafCount
    have hr1 := r.nodeCount_eq
    have hr2 := r.one_le_leafCount
    simp only [Tree.nodeCount] at hi
    have hl := ihl (i + 1) (A ++ [(Tree.node i 0 (l.numbered (i + 1)) (r.numbered (i + 1 + l.nodeCount))).toNode])
      ((r.numbered (i + 1 + l.nodeCount)).preorder ++ B) (by simp [hA]) (by omega)
    have hr := ihr (i + 1 + l.nodeCount)
      (A ++ (Tree.node i 0 (l.numbered (i + 1)) (r.numbered (i + 1 + l.nodeCount))).toNode :: (l.numbered (i + 1)).preorder)
      B (by simp [hA]; omega) (by omega)
    refine ⟨⟨0, BitVec.ofNat 9 (i + 1), BitVec.ofNat 9 (i + 1 + l.nodeCount), ?_, rfl, ?_, ?_⟩, ?_, ?_⟩
    · simp [Tree.numbered, Tree.preorder, Tree.toNode, ← hA]
    · simp; omega
    · simp; omega
    · simpa [Tree.numbered, Tree.preorder] using hl
    · simpa [Tree.numbered, Tree.preorder] using hr

end Sys2Proof.Machine
end

