-- ==== Sys2Proof/Laws/Codes.lean ====
section
/-!
SUPPORT. CODEGEN gives every leaf byte its path, and UNPACK walks paths back to bytes.
-/

namespace Sys2Proof.Machine

/-! ## CODEGEN (R150 to R152) -/

theorem Byte.toNat_inj {a b : Byte} : a.toNat = b.toNat ↔ a = b :=
  ⟨BitVec.eq_of_toNat_eq, fun h => h ▸ rfl⟩

/-- `walk` writes, at each leaf byte, the path so far and the path to the leaf, and leaves the other bytes alone. -/
theorem codeOf_walk (t : Tree) (p : List Bool) (C : SMap (List Bool)) (b : Byte) (hn : t.bytes.Nodup) :
    codeOf (walk t p C) b = if b ∈ t.bytes then p ++ t.path b else codeOf C b := by
  induction t generalizing p C with
  | leaf i x w =>
    simp only [walk, codeOf, SMap.get?_set, Byte.toNat_inj, Tree.bytes, List.mem_singleton, Tree.path,
      List.append_nil]
    split <;> rfl
  | node i w l r ihl ihr =>
    simp only [Tree.bytes, List.nodup_append] at hn
    obtain ⟨hl, hr, hd⟩ := hn
    simp only [walk, ihr _ _ hr, ihl _ _ hl, Tree.bytes, List.mem_append, Tree.path]
    by_cases h1 : b ∈ l.bytes
    · have h2 : b ∉ r.bytes := fun h => hd b h1 b h rfl
      simp [h1, h2]
    · by_cases h2 : b ∈ r.bytes <;> simp [h1, h2]

/-- The code of a byte of a tree with two or more leaves is its path; other bytes have none. -/
theorem codeOf_codegen_node (i w : Nat) (l r : Tree) (b : Byte) (hn : (Tree.node i w l r).bytes.Nodup) :
    codeOf (codegenStage (.node i w l r)) b =
      if b ∈ (Tree.node i w l r).bytes then (Tree.node i w l r).path b else [] := by
  rw [codegenStage, codeOf_walk _ _ _ _ hn]
  simp [codeOf]

/-- The code of the byte of a single leaf is the bit 0; other bytes have none. -/
theorem codeOf_codegen_leaf (i : Nat) (x : Byte) (w : Nat) (b : Byte) :
    codeOf (codegenStage (.leaf i x w)) b = if b = x then [false] else [] := by
  simp only [codegenStage, codeOf, SMap.get?_set, Byte.toNat_inj, SMap.get?_nil]
  split <;> rfl

/-- The codes depend on the shape and the leaf bytes alone (R180, R210). -/
theorem codeOf_codegen_numbered (t : Tree) (j : Nat) (b : Byte) (hn : t.bytes.Nodup) :
    codeOf (codegenStage (t.numbered j)) b = codeOf (codegenStage t) b := by
  cases t with
  | leaf i x w => rw [Tree.numbered, codeOf_codegen_leaf, codeOf_codegen_leaf]
  | node i w l r =>
    have hp := Tree.path_numbered j (.node i w l r) b
    have hb := Tree.bytes_numbered j (.node i w l r)
    rw [codeOf_codegen_node _ _ _ _ _ hn]
    simp only [Tree.numbered] at hp hb ⊢
    rw [codeOf_codegen_node _ _ _ _ _ (hb ▸ hn), hb, hp]

/-- Every entry `walk` makes has the key of a byte and a path from it. -/
theorem mem_walk {t : Tree} {p : List Bool} {C : SMap (List Bool)} {e : Nat × List Bool} (h : e ∈ walk t p C) :
    e ∈ C ∨ (e.1 < 256 ∧ ∃ b q, b ∈ t.bytes ∧ e = (b.toNat, p ++ q) ∧ q.length < t.depth) := by
  induction t generalizing p C with
  | leaf i x w =>
    rcases SMap.mem_set h with rfl | h
    · exact .inr ⟨x.isLt, x, [], by simp [Tree.bytes], by simp, by simp [Tree.depth]⟩
    · exact .inl h
  | node i w l r ihl ihr =>
    rcases ihr h with h | ⟨h1, b, q, hb, he, hq⟩
    · rcases ihl h with h | ⟨h1, b, q, hb, he, hq⟩
      · exact .inl h
      · exact .inr ⟨h1, b, false :: q, by simp [Tree.bytes, hb], by simp [he],
          by simp only [List.length_cons, Tree.depth]; omega⟩
    · exact .inr ⟨h1, b, true :: q, by simp [Tree.bytes, hb], by simp [he],
        by simp only [List.length_cons, Tree.depth]; omega⟩

theorem sorted_walk {t : Tree} {p : List Bool} {C : SMap (List Bool)} (h : SMap.sorted C = true) :
    SMap.sorted (walk t p C) = true := by
  induction t generalizing p C with
  | leaf i x w => exact SMap.sorted_set _ _ h
  | node i w l r ihl ihr => exact ihr (ihl h)

theorem sorted_codegenStage (t : Tree) : SMap.sorted (codegenStage t) = true := by
  cases t with
  | leaf i x w => rfl
  | node i w l r => exact sorted_walk rfl

/-! ## Bits and bytes (R118) -/

@[simp] theorem length_bitsOfByte (b : Byte) : (bitsOfByte b).length = 8 := rfl

@[simp] theorem length_streamBits (P : List Byte) : (streamBits P).length = 8 * P.length := by
  induction P with
  | nil => rfl
  | cons b P ih =>
    rw [streamBits] at ih
    simp only [streamBits, List.flatMap_cons, List.length_append, length_bitsOfByte, ih, List.length_cons]
    omega

theorem streamBits_append (P Q : List Byte) : streamBits (P ++ Q) = streamBits P ++ streamBits Q := by
  simp [streamBits]

/-- Stream bit i is bit `7 - i mod 8` of byte `i div 8` (R118). -/
theorem getElem?_streamBits (P : List Byte) (i : Nat) (h : i < 8 * P.length) :
    (streamBits P)[i]? = some ((P.getD (i / 8) 0).getLsbD (7 - i % 8)) := by
  induction P generalizing i with
  | nil => simp at h
  | cons b P ih =>
    have hc : streamBits (b :: P) = bitsOfByte b ++ streamBits P := by simp [streamBits]
    rw [hc]
    by_cases h8 : i < 8
    · rw [List.getElem?_append_left (by simpa using h8)]
      interval_cases i <;> rfl
    · rw [List.getElem?_append_right (by simp; omega), length_bitsOfByte, ih (i - 8) (by simp at h; omega)]
      have e1 : i / 8 = (i - 8) / 8 + 1 := by omega
      have e2 : (i - 8) % 8 = i % 8 := by omega
      rw [e1, e2]
      simp

/-- A byte is the sum of its bits' weights. -/
theorem Byte.toNat_eq_sum (b : Byte) :
    b.toNat = ((List.range 8).map fun u => (b.getLsbD (7 - u)).toNat * 2 ^ (7 - u)).sum := by
  revert b
  decide +kernel

/-- Byte j of a stream is the sum of stream bit `8j + u` times `2^(7 - u)` (R157). -/
theorem toNat_of_streamBits {P : List Byte} {j : Nat} {x : Byte} (hx : P[j]? = some x) :
    x.toNat = ((List.range 8).map fun u => ((streamBits P).getD (8 * j + u) false).toNat * 2 ^ (7 - u)).sum := by
  have hj := (List.getElem?_eq_some_iff.mp hx).1
  rw [Byte.toNat_eq_sum x]
  congr 1
  apply List.map_congr_left
  intro u hu
  have hu := List.mem_range.mp hu
  rw [List.getD_eq_getElem?_getD, getElem?_streamBits P _ (by omega)]
  have e1 : (8 * j + u) / 8 = j := by omega
  have e2 : (8 * j + u) % 8 = u := by omega
  simp [e1, e2, hx]

theorem bitsOfByte_byteOfBits (b7 b6 b5 b4 b3 b2 b1 b0 : Bool) :
    bitsOfByte (byteOfBits b7 b6 b5 b4 b3 b2 b1 b0) = [b7, b6, b5, b4, b3, b2, b1, b0] := by
  revert b7 b6 b5 b4 b3 b2 b1 b0
  decide

/-- Bytes formed from a whole number of bytes' bits give the bits back. -/
theorem streamBits_bytesOfBits {n : Nat} {bits : List Bool} (h : bits.length = 8 * n) :
    streamBits (bytesOfBits bits) = bits ∧ (bytesOfBits bits).length = n := by
  induction n generalizing bits with
  | zero =>
    have : bits = [] := by simpa using h
    subst this
    exact ⟨rfl, rfl⟩
  | succ n ih =>
    match bits, h with
    | b7 :: b6 :: b5 :: b4 :: b3 :: b2 :: b1 :: b0 :: rest, h =>
      have hr : rest.length = 8 * n := by simp only [List.length_cons] at h; omega
      obtain ⟨h1, h2⟩ := ih hr
      rw [streamBits] at h1
      simp [bytesOfBits, streamBits, bitsOfByte_byteOfBits, h1, h2]
    | [], h => simp at h
    | [_], h => simp only [List.length_cons, List.length_nil] at h; omega
    | [_, _], h => simp only [List.length_cons, List.length_nil] at h; omega
    | [_, _, _], h => simp only [List.length_cons, List.length_nil] at h; omega
    | [_, _, _, _], h => simp only [List.length_cons, List.length_nil] at h; omega
    | [_, _, _, _, _], h => simp only [List.length_cons, List.length_nil] at h; omega
    | [_, _, _, _, _, _], h => simp only [List.length_cons, List.length_nil] at h; omega
    | [_, _, _, _, _, _, _], h => simp only [List.length_cons, List.length_nil] at h; omega

theorem padCount_le (T : Nat) : padCount T ≤ 7 := by
  unfold padCount
  omega

theorem eight_dvd_padded (T : Nat) : T + padCount T = 8 * ((T + padCount T) / 8) := by
  unfold padCount
  omega

theorem payloadLength_eq (T : Nat) : (T + padCount T) / 8 = (T + 7) / 8 := by
  unfold padCount
  omega

/-- PACK's payload is the codes and the padding, most significant bit first. -/
theorem packStage_spec (B : List Byte) (C : SMap (List Bool)) :
    streamBits (packStage B C).payload = codeBits C B ++ List.replicate (packStage B C).pad false ∧
      (packStage B C).payload.length = ((packStage B C).bits + 7) / 8 ∧
      (packStage B C).bits = (codeBits C B).length ∧ (packStage B C).pad = padCount (codeBits C B).length := by
  have h : (codeBits C B ++ List.replicate (padCount (codeBits C B).length) false).length =
      8 * (((codeBits C B).length + padCount (codeBits C B).length) / 8) := by
    rw [List.length_append, List.length_replicate]
    exact eight_dvd_padded _
  obtain ⟨h1, h2⟩ := streamBits_bytesOfBits h
  exact ⟨h1, h2.trans (payloadLength_eq _), rfl, rfl⟩

/-- The data bits of what PACK made are the codes. -/
theorem dataBits_packStage (B : List Byte) (C : SMap (List Bool)) :
    dataBits (packStage B C).payload (packStage B C).pad = codeBits C B := by
  obtain ⟨h1, h2, h3, h4⟩ := packStage_spec B C
  have : availBits (packStage B C).payload.length (packStage B C).pad = (codeBits C B).length := by
    rw [h2, h3, h4, ← payloadLength_eq, availBits, ← eight_dvd_padded]
    omega
  rw [dataBits, this, h1]
  simp

/-! ## UNPACK (R173 to R176) -/

/-- The loop never emits more or fewer bytes than asked for, and later bits do not matter (R175). -/
theorem unpackLoop_append {root cur : Tree} {bits more : List Bool} {n : Nat} {out : List Byte}
    (h : unpackLoop root cur bits n = some out) :
    unpackLoop root cur (bits ++ more) n = some out ∧ out.length = n := by
  induction bits generalizing cur n out with
  | nil =>
    cases n with
    | zero => simp only [unpackLoop, Option.some.injEq] at h; simp [unpackLoop, ← h]
    | succ n => simp [unpackLoop] at h
  | cons bit bits ih =>
    cases n with
    | zero => simp only [unpackLoop, Option.some.injEq] at h; simp [unpackLoop, ← h]
    | succ n =>
      cases cur with
      | leaf i b w =>
        simp only [unpackLoop, Option.map_eq_some_iff, List.cons_append] at h ⊢
        obtain ⟨o, ho, rfl⟩ := h
        obtain ⟨h1, h2⟩ := ih ho
        exact ⟨⟨o, h1, rfl⟩, by simp [h2]⟩
      | node i w l r =>
        simp only [unpackLoop, List.cons_append] at h ⊢
        split at h
        · rename_i heq
          simp only [Option.map_eq_some_iff] at h ⊢
          obtain ⟨o, ho, rfl⟩ := h
          obtain ⟨h1, h2⟩ := ih ho
          exact ⟨⟨o, h1, rfl⟩, by simp [h2]⟩
        · exact ih h

/-- A single leaf emits its byte once per bit (R174). -/
theorem unpackLoop_leaf (i : Nat) (b : Byte) (w : Nat) (bits : List Bool) (n : Nat) :
    unpackLoop (.leaf i b w) (.leaf i b w) bits n =
      if n ≤ bits.length then some (List.replicate n b) else none := by
  induction bits generalizing n with
  | nil => cases n <;> simp [unpackLoop]
  | cons bit bits ih =>
    cases n with
    | zero => simp [unpackLoop]
    | succ n =>
      simp only [unpackLoop, ih, List.length_cons, Nat.add_le_add_iff_right]
      split <;> simp [List.replicate_succ]

/-- From an internal node, the path to a leaf emits its byte and returns to the root. -/
theorem unpackLoop_path (root : Tree) (i w : Nat) (l r : Tree) (b : Byte) (rest : List Bool) (n : Nat)
    (hn : (Tree.node i w l r).bytes.Nodup) (hb : b ∈ (Tree.node i w l r).bytes) :
    unpackLoop root (.node i w l r) ((Tree.node i w l r).path b ++ rest) (n + 1) =
      (unpackLoop root root rest n).map (b :: ·) := by
  induction hs : (Tree.node i w l r).path b generalizing i w l r with
  | nil => simp only [Tree.path] at hs; split at hs <;> cases hs
  | cons bit q ih =>
    simp only [Tree.bytes, List.nodup_append, List.mem_append] at hn hb
    obtain ⟨hl, hr, hd⟩ := hn
    simp only [Tree.path] at hs
    split at hs
    · rename_i hbl
      obtain ⟨rfl, rfl⟩ := List.cons.inj hs
      cases l with
      | leaf j x v =>
        have : b = x := by simpa [Tree.bytes] using hbl
        subst this
        simp [unpackLoop, childFor, Tree.path]
      | node j v l' r' =>
        simp only [List.cons_append, unpackLoop, childFor]
        exact ih j v l' r' hl hbl rfl
    · rename_i hbl
      have hbr := hb.resolve_left hbl
      obtain ⟨rfl, rfl⟩ := List.cons.inj hs
      cases r with
      | leaf j x v =>
        have : b = x := by simpa [Tree.bytes] using hbr
        subst this
        simp [unpackLoop, childFor, Tree.path]
      | node j v l' r' =>
        simp only [List.cons_append, unpackLoop, childFor]
        exact ih j v l' r' hr hbr rfl

/-- From an internal node, bits that emit anything begin with the path of the first byte emitted. -/
theorem unpackLoop_begins (root : Tree) (i w : Nat) (l r : Tree) (bits : List Bool) (n : Nat) (out : List Byte)
    (hn : (Tree.node i w l r).bytes.Nodup) (h : unpackLoop root (.node i w l r) bits (n + 1) = some out) :
    ∃ b rest out', b ∈ (Tree.node i w l r).bytes ∧ bits = (Tree.node i w l r).path b ++ rest ∧ out = b :: out' ∧
      unpackLoop root root rest n = some out' := by
  induction bits generalizing i w l r with
  | nil => simp [unpackLoop] at h
  | cons bit bits ih =>
    simp only [Tree.bytes, List.nodup_append] at hn
    obtain ⟨hl, hr, hd⟩ := hn
    simp only [unpackLoop] at h
    cases bit with
    | false =>
      simp only [childFor, Bool.false_eq_true, if_false] at h
      cases l with
      | leaf j x v =>
        simp only [Option.map_eq_some_iff] at h
        obtain ⟨o, ho, rfl⟩ := h
        exact ⟨x, bits, o, by simp [Tree.bytes], by simp [Tree.path, Tree.bytes], rfl, ho⟩
      | node j v l' r' =>
        obtain ⟨b, rest, o, hb, hbits, ho, hrest⟩ := ih j v l' r' hl h
        refine ⟨b, rest, o, ?_, ?_, ho, hrest⟩
        · rw [Tree.bytes]; exact List.mem_append_left _ hb
        · rw [Tree.path, if_pos hb, hbits]; rfl
    | true =>
      simp only [childFor, if_true] at h
      cases r with
      | leaf j x v =>
        simp only [Option.map_eq_some_iff] at h
        obtain ⟨o, ho, rfl⟩ := h
        have hx : x ∉ l.bytes := fun hx => hd x hx x (by simp [Tree.bytes]) rfl
        exact ⟨x, bits, o, by simp [Tree.bytes], by simp [Tree.path, hx], rfl, ho⟩
      | node j v l' r' =>
        obtain ⟨b, rest, o, hb, hbits, ho, hrest⟩ := ih j v l' r' hr h
        have hx : b ∉ l.bytes := fun hx => hd b hx b hb rfl
        refine ⟨b, rest, o, ?_, ?_, ho, hrest⟩
        · rw [Tree.bytes]; exact List.mem_append_right _ hb
        · rw [Tree.path, if_neg hx, hbits]; rfl

/-- From the root of two or more leaves, UNPACK emits exactly the byte sequences whose paths the bits begin with. -/
theorem unpackLoop_node_iff (i w : Nat) (l r : Tree) (bits : List Bool) (n : Nat) (out : List Byte)
    (hn : (Tree.node i w l r).bytes.Nodup) :
    unpackLoop (.node i w l r) (.node i w l r) bits n = some out ↔
      out.length = n ∧ (∀ b ∈ out, b ∈ (Tree.node i w l r).bytes) ∧
        out.flatMap (Tree.node i w l r).path <+: bits := by
  constructor
  · intro h
    induction n generalizing bits out with
    | zero => simp only [unpackLoop, Option.some.injEq] at h; subst h; simp
    | succ n ih =>
      obtain ⟨b, rest, o, hb, rfl, rfl, hrest⟩ := unpackLoop_begins _ _ _ _ _ _ _ _ hn h
      obtain ⟨h1, h2, h3⟩ := ih rest o hrest
      refine ⟨by simp [h1], ?_, ?_⟩
      · intro c hc
        rcases List.mem_cons.mp hc with rfl | hc
        · exact hb
        · exact h2 c hc
      · rw [List.flatMap_cons]
        exact (List.prefix_append_right_inj _).mpr h3
  · rintro ⟨rfl, hb, hp⟩
    induction out generalizing bits with
    | nil => simp [unpackLoop]
    | cons b out ih =>
      obtain ⟨rest, rfl⟩ := hp
      rw [List.flatMap_cons, List.append_assoc, List.length_cons,
        unpackLoop_path _ _ _ _ _ _ _ _ hn (hb b (List.mem_cons_self ..)),
        ih _ (fun c hc => hb c (List.mem_cons_of_mem _ hc)) (List.prefix_append ..)]
      rfl

end Sys2Proof.Machine
end

