-- ==== Sys2Proof/Laws/Build.lean ====
section
/-!
SUPPORT. FREQ counts, and BUILD merges what FREQ counted: the arena, the weights and the leaves of the built tree.
-/

namespace Sys2Proof.Machine

/-! ## FREQ (R140) -/

theorem countOf_countByte (F : SMap Nat) (b c : Byte) :
    countOf (countByte F b) c = countOf F c + if c = b then 1 else 0 := by
  simp only [countOf, countByte, SMap.get?_set, Byte.toNat_inj]
  split
  · subst_vars; simp
  · simp

/-- Counting on from a table. -/
theorem countOf_foldl (B : List Byte) (F : SMap Nat) (b : Byte) :
    countOf (B.foldl countByte F) b = countOf F b + B.count b := by
  induction B generalizing F with
  | nil => simp
  | cons c B ih =>
    rw [List.foldl_cons, ih, countOf_countByte, List.count_cons]
    by_cases h : b = c
    · subst h; simp; omega
    · have : (c == b) = false := by simpa using fun hcb => h hcb.symm
      simp [h, this]

theorem countOf_frequencies (B : List Byte) (b : Byte) : countOf (frequencies B) b = B.count b := by
  rw [frequencies, countOf_foldl]
  simp [countOf]

theorem sorted_foldl_countByte (B : List Byte) (F : SMap Nat) (h : SMap.sorted F = true) :
    SMap.sorted (B.foldl countByte F) = true := by
  induction B generalizing F with
  | nil => exact h
  | cons b B ih => exact ih _ (SMap.sorted_set _ _ h)

theorem sorted_frequencies (B : List Byte) : SMap.sorted (frequencies B) = true := sorted_foldl_countByte B [] rfl

/-- A write adds the new entry to the sum of a table and takes the old one away. -/
theorem sum_set {F : SMap Nat} (a x : Nat) (h : SMap.sorted F = true) :
    ((SMap.set F a x).map Prod.snd).sum + (SMap.get? F a).getD 0 = (F.map Prod.snd).sum + x := by
  induction F with
  | nil => simp [SMap.set]
  | cons e F ih =>
    obtain ⟨c, y⟩ := e
    obtain ⟨h1, h2⟩ := SMap.sorted_cons.mp h
    simp only [SMap.set, SMap.get?_cons]
    split
    · rename_i hac
      rw [if_neg (by omega), SMap.get?_eq_none fun f hf => by have := h1 f hf; simp only at this; omega]
      simp; omega
    · split
      · simp; omega
      · have := ih h2
        simp only [List.map_cons, List.sum_cons]
        omega

theorem sum_foldl_countByte (B : List Byte) (F : SMap Nat) (h : SMap.sorted F = true) :
    ((B.foldl countByte F).map Prod.snd).sum = (F.map Prod.snd).sum + B.length := by
  induction B generalizing F with
  | nil => simp
  | cons b B ih =>
    have hs := sum_set b.toNat (countOf F b + 1) h
    rw [List.foldl_cons, ih (countByte F b) (SMap.sorted_set _ _ h), List.length_cons, countByte]
    simp only [countOf] at *
    omega

/-- The counts add up to the length of the input. -/
theorem sum_frequencies (B : List Byte) : ((frequencies B).map Prod.snd).sum = B.length := by
  rw [frequencies, sum_foldl_countByte B [] rfl]
  simp

/-- Every entry of the table has the key of a byte and a count of at least 1. -/
theorem mem_foldl_countByte (B : List Byte) (F : SMap Nat) (h : ∀ e ∈ F, e.1 < 256 ∧ 1 ≤ e.2) :
    ∀ e ∈ B.foldl countByte F, e.1 < 256 ∧ 1 ≤ e.2 := by
  induction B generalizing F with
  | nil => exact h
  | cons b B ih =>
    refine ih _ fun e he => ?_
    rcases SMap.mem_set he with rfl | he
    · exact ⟨b.isLt, Nat.le_add_left ..⟩
    · exact h e he

theorem mem_frequencies {B : List Byte} {e : Nat × Nat} (h : e ∈ frequencies B) : e.1 < 256 ∧ 1 ≤ e.2 :=
  mem_foldl_countByte B [] (by simp) e h

/-- An entry of the table is a byte that occurs, with its count. -/
theorem mem_frequencies_iff {B : List Byte} {e : Nat × Nat} :
    e ∈ frequencies B ↔ ∃ b ∈ B, e = (b.toNat, B.count b) := by
  constructor
  · intro h
    obtain ⟨h1, h2⟩ := mem_frequencies h
    obtain ⟨k, n⟩ := e
    have hg := SMap.get?_of_mem (sorted_frequencies B) h
    have hb : (BitVec.ofNat 8 k).toNat = k := by simpa using Nat.mod_eq_of_lt h1
    have hc := countOf_frequencies B (BitVec.ofNat 8 k)
    rw [countOf, hb, hg] at hc
    simp only [Option.getD_some] at hc
    refine ⟨BitVec.ofNat 8 k, ?_, ?_⟩
    · rw [← List.count_pos_iff]
      simp only [] at h2
      omega
    · rw [hb, hc]
  · rintro ⟨b, hb, rfl⟩
    have hc := countOf_frequencies B b
    have hpos := List.count_pos_iff.mpr hb
    rw [countOf] at hc
    cases hg : SMap.get? (frequencies B) b.toNat with
    | none => rw [hg] at hc; simp only [Option.getD_none] at hc; omega
    | some n =>
      rw [hg] at hc
      simp only [Option.getD_some] at hc
      rw [← hc]
      exact SMap.mem_of_get? hg

/-- The bytes of the table, in ascending order. -/
def tableBytes (F : SMap Nat) : List Byte := F.map fun e => BitVec.ofNat 8 e.1

theorem tableBytes_toNat {B : List Byte} :
    (tableBytes (frequencies B)).map BitVec.toNat = (frequencies B).map Prod.fst := by
  rw [tableBytes, List.map_map]
  apply List.map_congr_left
  intro e he
  simpa using Nat.mod_eq_of_lt (mem_frequencies he).1

theorem tableBytes_pairwise (B : List Byte) :
    ((tableBytes (frequencies B)).map BitVec.toNat).Pairwise (· < ·) := by
  rw [tableBytes_toNat, List.pairwise_map]
  exact (SMap.sorted_iff_pairwise _).mp (sorted_frequencies B)

theorem tableBytes_nodup (B : List Byte) : (tableBytes (frequencies B)).Nodup := by
  have h := (tableBytes_pairwise B).imp (fun h => Nat.ne_of_lt h)
  exact List.Nodup.of_map _ h

theorem mem_tableBytes {B : List Byte} {b : Byte} : b ∈ tableBytes (frequencies B) ↔ b ∈ B := by
  simp only [tableBytes, List.mem_map]
  constructor
  · rintro ⟨e, he, rfl⟩
    obtain ⟨c, hc, rfl⟩ := mem_frequencies_iff.mp he
    simpa using hc
  · intro hb
    exact ⟨_, mem_frequencies_iff.mpr ⟨b, hb, rfl⟩, by simp⟩

/-- k: the table lists each distinct byte once. -/
theorem length_frequencies (B : List Byte) : (frequencies B).length = B.dedup.length := by
  have h : (tableBytes (frequencies B)).Perm B.dedup := by
    rw [List.perm_ext_iff_of_nodup (tableBytes_nodup B) (List.nodup_dedup B)]
    intro b
    rw [mem_tableBytes, List.mem_dedup]
  have := h.length_eq
  rwa [tableBytes, List.length_map] at this

theorem frequencies_ne_nil {B : List Byte} (h : B ≠ []) : frequencies B ≠ [] := by
  obtain ⟨b, hb⟩ := List.exists_mem_of_ne_nil B h
  intro hF
  have := mem_frequencies_iff.mpr ⟨b, hb, rfl⟩
  rw [hF] at this
  simp at this

/-! ## Leaves (R143) -/

@[simp] theorem length_leavesFrom (j : Nat) (F : SMap Nat) : (leavesFrom j F).length = F.length := by
  induction F generalizing j with
  | nil => rfl
  | cons e F ih => obtain ⟨b, n⟩ := e; simp [leavesFrom, ih]

theorem leavesFrom_toNode (j : Nat) (F : SMap Nat) :
    (leavesFrom j F).map Tree.toNode = F.map fun e => Node.leaf (BitVec.ofNat 8 e.1) (BitVec.ofNat 32 e.2) := by
  induction F generalizing j with
  | nil => rfl
  | cons e F ih => obtain ⟨b, n⟩ := e; simp [leavesFrom, ih, Tree.toNode]

theorem leavesFrom_idx (j : Nat) (F : SMap Nat) : (leavesFrom j F).map Tree.idx = List.range' j F.length := by
  induction F generalizing j with
  | nil => rfl
  | cons e F ih => obtain ⟨b, n⟩ := e; simp [leavesFrom, ih, Tree.idx, List.range'_succ]

theorem leavesFrom_weight (j : Nat) (F : SMap Nat) : (leavesFrom j F).map Tree.weight = F.map Prod.snd := by
  induction F generalizing j with
  | nil => rfl
  | cons e F ih => obtain ⟨b, n⟩ := e; simp [leavesFrom, ih, Tree.weight]

theorem leavesFrom_bytes (j : Nat) (F : SMap Nat) : (leavesFrom j F).flatMap Tree.bytes = tableBytes F := by
  induction F generalizing j with
  | nil => rfl
  | cons e F ih => obtain ⟨b, n⟩ := e; simp [leavesFrom, ih, Tree.bytes, tableBytes]

theorem mem_leavesFrom {j : Nat} {F : SMap Nat} {t : Tree} (h : t ∈ leavesFrom j F) :
    ∃ i e, e ∈ F ∧ t = .leaf i (BitVec.ofNat 8 e.1) e.2 := by
  induction F generalizing j with
  | nil => simp [leavesFrom] at h
  | cons e F ih =>
    obtain ⟨b, n⟩ := e
    rcases List.mem_cons.mp h with rfl | h
    · exact ⟨j, (b, n), List.mem_cons_self .., rfl⟩
    · obtain ⟨i, e, he, rfl⟩ := ih h
      exact ⟨i, e, List.mem_cons_of_mem _ he, rfl⟩

/-! ## Extraction (R144) -/

/-- Extraction rearranges the active nodes. -/
theorem extractMin_perm (t : Tree) (ts : List Tree) : ((extractMin t ts).1 :: (extractMin t ts).2).Perm (t :: ts) := by
  induction ts generalizing t with
  | nil => exact List.Perm.refl _
  | cons u us ih =>
    simp only [extractMin]
    split
    · exact (List.Perm.swap _ _ _).trans ((ih u).cons t)
    · exact (List.Perm.swap _ _ _).trans (((ih t).cons u).trans (List.Perm.swap _ _ _))

theorem length_extractMin (t : Tree) (ts : List Tree) : (extractMin t ts).2.length = ts.length := by
  have := (extractMin_perm t ts).length_eq
  simpa using this

/-! ## The merge loop (R144 to R148) -/

/-- What one merge does to the active nodes. -/
theorem mergeLoop_succ (fuel next : Nat) (arena : List Node) (t u : Tree) (us : List Tree) :
    ∃ x y rest, (x :: y :: rest).Perm (t :: u :: us) ∧ rest.length = us.length ∧
      mergeLoop (fuel + 1) next arena t (u :: us) =
        mergeLoop fuel (next + 1) (arena ++ [(mergeNodes next x y).toNode]) (mergeNodes next x y) rest := by
  have hp := extractMin_perm t (u :: us)
  have hl := length_extractMin t (u :: us)
  simp only [mergeLoop]
  generalize extractMin t (u :: us) = e at hp hl
  obtain ⟨x, r⟩ := e
  cases r with
  | nil => simp at hl
  | cons v vs =>
    have hp2 := extractMin_perm v vs
    have hl2 := length_extractMin v vs
    refine ⟨x, (extractMin v vs).1, (extractMin v vs).2, (hp2.cons x).trans hp, ?_, rfl⟩
    rw [hl2]
    simpa using hl

/-- The sum of a quantity over active nodes. -/
def activeSum (f : Tree → Nat) (ts : List Tree) : Nat := (ts.map f).sum

theorem activeSum_perm {f : Tree → Nat} {ts us : List Tree} (h : ts.Perm us) : activeSum f ts = activeSum f us :=
  (h.map f).sum_eq

/-- BUILD keeps the bytes, the leaves and the weight of the active nodes, grows the arena by one internal node a merge, and
ends at the last node. -/
theorem mergeLoop_spec (fuel next : Nat) (arena : List Node) (t : Tree) (ts : List Tree) (hlen : ts.length = fuel)
    (hidx : ∀ u ∈ t :: ts, u.idx < next) (harena : arena.length = next) (hbound : next + fuel ≤ 512) :
    ∃ tail, (mergeLoop fuel next arena t ts).arena = arena ++ tail ∧ tail.length = fuel ∧
      (mergeLoop fuel next arena t ts).root.idx = (if fuel = 0 then t.idx else next + fuel - 1) ∧
      (mergeLoop fuel next arena t ts).root.leafCount = activeSum Tree.leafCount (t :: ts) ∧
      (mergeLoop fuel next arena t ts).root.weight = activeSum Tree.weight (t :: ts) ∧
      (mergeLoop fuel next arena t ts).root.bytes.Perm ((t :: ts).flatMap Tree.bytes) ∧
      ∀ j, j < fuel → ∃ w l r, tail[j]? = some (.internal w l r) ∧ l.toNat < next + j ∧ r.toNat < next + j := by
  induction fuel generalizing next arena t ts with
  | zero =>
    have : ts = [] := by simpa using hlen
    subst this
    exact ⟨[], by simp [mergeLoop], rfl, by simp [mergeLoop], by simp [mergeLoop, activeSum],
      by simp [mergeLoop, activeSum], by simp [mergeLoop], by simp⟩
  | succ fuel ih =>
    cases ts with
    | nil => simp at hlen
    | cons u us =>
      obtain ⟨x, y, rest, hp, hr, heq⟩ := mergeLoop_succ fuel next arena t u us
      have hx : x.idx < next := hidx x (hp.subset (by simp))
      have hy : y.idx < next := hidx y (hp.subset (by simp))
      obtain ⟨tail, h1, h2, h3, h4, h5, h6, h7⟩ := ih (next + 1) (arena ++ [(mergeNodes next x y).toNode])
        (mergeNodes next x y) rest (by simp only [List.length_cons] at hlen; omega)
        (by
          intro v hv
          rcases List.mem_cons.mp hv with rfl | hv
          · exact Nat.lt_succ_self _
          · exact Nat.lt_succ_of_lt (hidx v (hp.subset (by simp [hv]))))
        (by simp [harena]) (by omega)
      rw [heq]
      refine ⟨(mergeNodes next x y).toNode :: tail, ?_, ?_, ?_, ?_, ?_, ?_, ?_⟩
      · simp [h1]
      · simp [h2]
      · rw [h3]
        simp only [mergeNodes, Tree.idx, Nat.succ_ne_zero, if_false]
        split <;> omega
      · rw [h4, ← activeSum_perm hp]
        simp [activeSum, mergeNodes, Tree.leafCount, Nat.add_assoc]
      · rw [h5, ← activeSum_perm hp]
        simp [activeSum, mergeNodes, Tree.weight, Nat.add_assoc]
      · refine h6.trans ?_
        refine List.Perm.trans ?_ (List.Perm.flatMap_right _ hp)
        simp [mergeNodes, Tree.bytes]
      · intro j hj
        cases j with
        | zero =>
          refine ⟨_, _, _, by simp only [List.getElem?_cons_zero, mergeNodes, Tree.toNode]; rfl, ?_, ?_⟩
          · simp only [BitVec.toNat_ofNat]; rw [Nat.mod_eq_of_lt (by omega)]; omega
          · simp only [BitVec.toNat_ofNat]; rw [Nat.mod_eq_of_lt (by omega)]; omega
        | succ j =>
          obtain ⟨w, l, r, g1, g2, g3⟩ := h7 j (by omega)
          exact ⟨w, l, r, by simpa using g1, by omega, by omega⟩

theorem weight_mergeNodes (next : Nat) (x y : Tree) : (mergeNodes next x y).weight = x.weight + y.weight := rfl

/-- Every weight is the sum of its children's and lies between 1 and a bound of the whole (R145). -/
theorem mergeLoop_weighted (n fuel next : Nat) (arena : List Node) (t : Tree) (ts : List Tree)
    (hw : ∀ u ∈ t :: ts, u.weighted n ∧ 1 ≤ u.weight) (hsum : activeSum Tree.weight (t :: ts) ≤ n) :
    (mergeLoop fuel next arena t ts).root.weighted n := by
  induction fuel generalizing next arena t ts with
  | zero => exact (hw t (by simp)).1
  | succ fuel ih =>
    cases ts with
    | nil => exact (hw t (by simp)).1
    | cons u us =>
      obtain ⟨x, y, rest, hp, -, heq⟩ := mergeLoop_succ fuel next arena t u us
      rw [heq]
      have hx := hw x (hp.subset (by simp))
      have hy := hw y (hp.subset (by simp))
      rw [← activeSum_perm hp] at hsum
      simp only [activeSum, List.map_cons, List.sum_cons] at hsum
      refine ih _ _ _ _ ?_ ?_
      · intro v hv
        rcases List.mem_cons.mp hv with rfl | hv
        · refine ⟨⟨rfl, ?_, ?_, hx.1, hy.1⟩, ?_⟩
          · omega
          · omega
          · rw [weight_mergeNodes]
            omega
        · exact hw v (hp.subset (by simp [hv]))
      · simp only [activeSum, List.map_cons, List.sum_cons, weight_mergeNodes]
        omega

/-! ## The active nodes (R144) -/

/-- What BUILD keeps of its arena and its active nodes: the arena holds them, and they are its nodes that are no children. -/
structure ActiveNodes (A : List Node) (ts : List Tree) : Prop where
  stored : ∀ u ∈ ts, u.storedIn A
  nodup : (ts.map Tree.idx).Nodup
  active : ∀ i, activeAt A A.length i ↔ i ∈ ts.map Tree.idx
  children : ∀ (m : Nat) (w : BitVec 32) (l r : BitVec 9), A[m]? = some (Node.internal w l r) →
    l.toNat < A.length ∧ r.toNat < A.length

theorem ActiveNodes.perm {A : List Node} {ts us : List Tree} (h : ActiveNodes A ts) (hp : us.Perm ts) : ActiveNodes A us :=
  ⟨fun u hu => h.stored u (hp.subset hu), (hp.map _).nodup_iff.mpr h.nodup,
    fun i => (h.active i).trans (hp.map _).mem_iff.symm, h.children⟩

/-- A merge of the two least active nodes is one in the arena it makes, and leaves its node and the others active. -/
theorem ActiveNodes.merge {A : List Node} {x y : Tree} {rest : List Tree} (h : ActiveNodes A (x :: y :: rest))
    (hlen : A.length < 512) (hw : x.weight + y.weight < 2 ^ 32)
    (hxy : x.weight < y.weight ∨ (x.weight = y.weight ∧ x.idx < y.idx))
    (hy : ∀ u ∈ rest, y.weight < u.weight ∨ (y.weight = u.weight ∧ y.idx < u.idx)) :
    ActiveNodes (A ++ [(mergeNodes A.length x y).toNode]) (mergeNodes A.length x y :: rest) ∧
      isMergeAt (A ++ [(mergeNodes A.length x y).toNode]) A.length := by
  have ax := (h.active x.idx).mpr (by simp)
  have ay := (h.active y.idx).mpr (by simp)
  have hx1 := ax.1
  have hy1 := ay.1
  have sx := h.stored x (by simp)
  have sy := h.stored y (by simp)
  have nd := h.nodup
  simp only [List.map_cons, List.nodup_cons, List.mem_cons, not_or] at nd
  have ex : (BitVec.ofNat 9 x.idx).toNat = x.idx := by simp; omega
  have ey : (BitVec.ofNat 9 y.idx).toNat = y.idx := by simp; omega
  have ew : (BitVec.ofNat 32 (x.weight + y.weight)).toNat = x.weight + y.weight := by simp; omega
  have hget : (A ++ [(mergeNodes A.length x y).toNode])[A.length]? =
      some (.internal (BitVec.ofNat 32 (x.weight + y.weight)) (BitVec.ofNat 9 x.idx) (BitVec.ofNat 9 y.idx)) := by
    simp [mergeNodes, Tree.toNode]
  generalize (mergeNodes A.length x y).toNode = N at *
  have hnew : ∀ {w : BitVec 32} {l r : BitVec 9}, (A ++ [N])[A.length]? = some (.internal w l r) →
      l.toNat = x.idx ∧ r.toNat = y.idx := by
    intro w l r hA
    rw [hget] at hA
    simp only [Option.some.injEq, Node.internal.injEq] at hA
    rw [← hA.2.1, ← hA.2.2]
    exact ⟨ex, ey⟩
  have hold : ∀ {m : Nat}, m ≠ A.length → m < A.length + 1 → (A ++ [N])[m]? = A[m]? :=
    fun hm hl => List.getElem?_append_left (by omega)
  have wx : weightAt (A ++ [N]) x.idx = x.weight := by rw [weightAt_append hx1, Tree.weightAt_of_storedIn sx]
  have wy : weightAt (A ++ [N]) y.idx = y.weight := by rw [weightAt_append hy1, Tree.weightAt_of_storedIn sy]
  have restLt : ∀ u ∈ rest, u.idx < A.length := fun u hu =>
    ((h.active u.idx).mpr (List.mem_map_of_mem (by simp [hu]))).1
  refine ⟨⟨?_, ?_, fun i => ?_, fun m w l r hA => ?_⟩, _, _, _, hget, ?_, ?_, ?_, ?_, fun i hi h1 h2 => ?_⟩
  · intro u hu
    rcases List.mem_cons.mp hu with rfl | hu
    · exact ⟨⟨_, _, _, hget, ew, ex, ey⟩, Tree.storedIn_append sx _, Tree.storedIn_append sy _⟩
    · exact Tree.storedIn_append (h.stored u (by simp [hu])) _
  · simp only [List.map_cons, List.nodup_cons]
    refine ⟨fun hm => ?_, nd.2.2⟩
    obtain ⟨u, hu, he⟩ := List.mem_map.mp hm
    have := restLt u hu
    have he' : u.idx = A.length := he
    omega
  · simp only [List.length_append, List.length_singleton, List.map_cons, List.mem_cons]
    constructor
    · rintro ⟨hi, hc⟩
      by_cases hiA : i = A.length
      · exact .inl hiA
      · have hne := hc A.length _ _ _ (by omega) hget
        rw [ex, ey] at hne
        have ha : activeAt A A.length i :=
          (activeAt_append (le_refl _) [N] i).mp ⟨by omega, fun m w l r hm => hc m w l r (by omega)⟩
        have hm := (h.active i).mp ha
        simp only [List.map_cons, List.mem_cons] at hm
        exact .inr ((hm.resolve_left fun e => hne.1 e.symm).resolve_left fun e => hne.2 e.symm)
    · rintro (hi | hi)
      · have hi' : i = A.length := hi
        refine ⟨by omega, fun m w l r hm hA => ?_⟩
        by_cases hmA : m = A.length
        · subst hmA
          have := hnew hA
          omega
        · rw [hold hmA hm] at hA
          have := h.children m w l r hA
          omega
      · have ha := (h.active i).mpr (by simp only [List.map_cons, List.mem_cons]; exact .inr (.inr hi))
        refine ⟨by have := ha.1; omega, fun m w l r hm hA => ?_⟩
        by_cases hmA : m = A.length
        · subst hmA
          rw [(hnew hA).1, (hnew hA).2]
          exact ⟨fun e => nd.1.2 (e ▸ hi), fun e => nd.2.1 (e ▸ hi)⟩
        · rw [hold hmA hm] at hA
          exact ha.2 m w l r (by omega) hA
  · simp only [List.length_append, List.length_singleton]
    by_cases hmA : m = A.length
    · subst hmA
      have := hnew hA
      omega
    · rw [hold hmA (by simpa using (List.getElem?_eq_some_iff.mp hA).1)] at hA
      have := h.children m w l r hA
      omega
  · rw [ew, ex, ey, wx, wy]
  · rw [ex, activeAt_append (le_refl _)]
    exact ax
  · rw [ey, activeAt_append (le_refl _)]
    exact ay
  · rw [ex, ey, lighter, wx, wy]
    exact hxy
  · rw [ex] at h1
    rw [ey] at h2 ⊢
    rw [activeAt_append (le_refl _)] at hi
    have hm := (h.active i).mp hi
    simp only [List.map_cons, List.mem_cons] at hm
    obtain ⟨u, hu, rfl⟩ := List.mem_map.mp ((hm.resolve_left h1).resolve_left h2)
    rw [lighter, wy, weightAt_append (restLt u hu), Tree.weightAt_of_storedIn (h.stored u (by simp [hu]))]
    exact hy u hu

theorem leavesFrom_storedIn (j : Nat) (F : SMap Nat) (A : List Node) (hA : A.length = j) (hF : ∀ e ∈ F, e.2 < 2 ^ 32) :
    ∀ u ∈ leavesFrom j F, u.storedIn (A ++ (leavesFrom j F).map Tree.toNode) := by
  induction F generalizing j A with
  | nil => simp [leavesFrom]
  | cons e F ih =>
    obtain ⟨b, n⟩ := e
    have hn := hF (b, n) (by simp)
    intro u hu
    simp only [leavesFrom, List.mem_cons] at hu
    rcases hu with rfl | hu
    · exact ⟨BitVec.ofNat 32 n, by simp [leavesFrom, ← hA, Tree.toNode], by simp only [BitVec.toNat_ofNat]; omega⟩
    · have := ih (j + 1) (A ++ [(Tree.leaf j (BitVec.ofNat 8 b) n).toNode]) (by simp [hA]) (fun e he => hF e (by simp [he]))
        u hu
      simpa [leavesFrom] using this

/-- The leaves are the active nodes BUILD begins with (R143). -/
theorem ActiveNodes.leaves {F : SMap Nat} (hF : ∀ e ∈ F, e.2 < 2 ^ 32) :
    ActiveNodes ((leavesFrom 0 F).map Tree.toNode) (leavesFrom 0 F) := by
  have hleaf : ∀ (m : Nat) (w : BitVec 32) (l r : BitVec 9),
      ((leavesFrom 0 F).map Tree.toNode)[m]? ≠ some (.internal w l r) := by
    intro m w l r h
    rw [leavesFrom_toNode] at h
    simp at h
  refine ⟨fun u hu => by simpa using leavesFrom_storedIn 0 F [] rfl hF u hu, ?_, fun i => ?_,
    fun m w l r h => absurd h (hleaf m w l r)⟩
  · rw [leavesFrom_idx]
    exact List.nodup_range'
  · rw [leavesFrom_idx, List.mem_range'_1, List.length_map, length_leavesFrom]
    exact ⟨fun h => ⟨by omega, by have := h.1; omega⟩, fun h => ⟨by omega, fun m w l r _ hA => absurd hA (hleaf m w l r)⟩⟩

/-! ## The tables of an input -/

/-- What FREQ, BUILD and CODEGEN make of a non-empty input. -/
theorem buildTables_eq_ok {B : List Byte} {tb : Tables} (h : buildTables B = .ok tb) :
    B ≠ [] ∧ tb.freq = frequencies B ∧ tb.code = codegenStage tb.built.root ∧
      ∃ t ts, leavesFrom 0 (frequencies B) = t :: ts ∧
        tb.built = mergeLoop ts.length (ts.length + 1) ((t :: ts).map Tree.toNode) t ts := by
  unfold buildTables at h
  cases B with
  | nil => simp [freqStage] at h
  | cons b B =>
    simp only [freqStage, buildStage] at h
    cases hl : leavesFrom 0 (frequencies (b :: B)) with
    | nil => rw [hl] at h; simp at h
    | cons t ts =>
      rw [hl] at h
      simp only [Except.ok.injEq] at h
      subst h
      exact ⟨by simp, rfl, rfl, t, ts, rfl, rfl⟩

theorem buildTables_ok {B : List Byte} (h : B ≠ []) : ∃ tb, buildTables B = .ok tb := by
  cases B with
  | nil => exact absurd rfl h
  | cons b B =>
    simp only [buildTables, freqStage, buildStage]
    cases hl : leavesFrom 0 (frequencies (b :: B)) with
    | nil =>
      have := congrArg List.length hl
      rw [length_leavesFrom] at this
      exact absurd (List.length_eq_zero_iff.mp this) (frequencies_ne_nil h)
    | cons t ts => exact ⟨_, rfl⟩

theorem buildTables_nil : buildTables [] = .error ⟨.emptyInput, .freq⟩ := rfl

/-- The built tree: its leaves are the distinct bytes, its root the last node of an arena of 2k - 1. -/
theorem built_spec {B : List Byte} {tb : Tables} (h : buildTables B = .ok tb) :
    tb.built.root.bytes.Nodup ∧ (∀ b, b ∈ tb.built.root.bytes ↔ b ∈ B) ∧
      tb.built.root.leafCount = B.dedup.length ∧ 1 ≤ B.dedup.length ∧ B.dedup.length ≤ 256 ∧
      tb.built.root.idx = 2 * B.dedup.length - 2 ∧ tb.built.root.weight = B.length ∧
      ∃ tail, tb.built.arena = ((frequencies B).map fun e => Node.leaf (BitVec.ofNat 8 e.1) (BitVec.ofNat 32 e.2)) ++ tail ∧
        tail.length = B.dedup.length - 1 ∧
        ∀ j, j < B.dedup.length - 1 → ∃ w l r, tail[j]? = some (.internal w l r) ∧
          l.toNat < B.dedup.length + j ∧ r.toNat < B.dedup.length + j := by
  obtain ⟨-, -, -, t, ts, hl, hb⟩ := buildTables_eq_ok h
  have hk : ts.length + 1 = B.dedup.length := by
    rw [← length_frequencies, ← length_leavesFrom 0, hl]
    rfl
  have h256 : B.dedup.length ≤ 256 := Byte.length_le_of_nodup (List.nodup_dedup B)
  have hidx : ∀ u ∈ t :: ts, u.idx < ts.length + 1 := by
    intro u hu
    have : u.idx ∈ (leavesFrom 0 (frequencies B)).map Tree.idx := by
      rw [hl]; exact List.mem_map_of_mem hu
    rw [leavesFrom_idx, length_frequencies, List.mem_range'_1] at this
    omega
  have ht : t.idx = 0 := by
    have := leavesFrom_idx 0 (frequencies B)
    rw [hl, length_frequencies, ← hk, List.range'_succ] at this
    simpa using (List.cons.inj this).1
  obtain ⟨tail, h1, h2, h3, h4, h5, h6, h7⟩ := mergeLoop_spec ts.length (ts.length + 1) ((t :: ts).map Tree.toNode) t ts
    rfl hidx (by simp) (by omega)
  rw [← hb] at h1 h3 h4 h5 h6
  rw [← hl, leavesFrom_bytes] at h6
  refine ⟨h6.nodup_iff.mpr (tableBytes_nodup B), ?_, ?_, by omega, h256, ?_, ?_, tail, ?_, by omega, ?_⟩
  · intro b
    rw [h6.mem_iff, mem_tableBytes]
  · rw [← Tree.length_bytes, h6.length_eq, tableBytes, List.length_map, length_frequencies]
  · rw [h3]
    split <;> omega
  · rw [h5, ← hl, activeSum, leavesFrom_weight]
    exact sum_frequencies B
  · rw [h1, ← hl, leavesFrom_toNode]
  · intro j hj
    obtain ⟨w, l, r, g1, g2, g3⟩ := h7 j (by omega)
    exact ⟨w, l, r, g1, by omega, by omega⟩

end Sys2Proof.Machine
end

