-- ==== Sys2Proof/Laws/State.lean ====
section
/-!
SUPPORT. What each update of the state does to each field: one lemma per field per update.
-/

namespace Sys2Proof.Machine

@[simp] theorem State.accept_cfg (s : State) (w : Word) : (s.accept w).cfg = s.cfg := rfl
@[simp] theorem State.accept_irqEn (s : State) (w : Word) : (s.accept w).irqEn = s.irqEn := rfl
@[simp] theorem State.accept_busy (s : State) (w : Word) : (s.accept w).busy = true := rfl
@[simp] theorem State.accept_done (s : State) (w : Word) : (s.accept w).done = false := rfl
@[simp] theorem State.accept_wign (s : State) (w : Word) : (s.accept w).wign = s.wign := rfl
@[simp] theorem State.accept_errCode (s : State) (w : Word) : (s.accept w).errCode = .none := rfl
@[simp] theorem State.accept_errStage (s : State) (w : Word) : (s.accept w).errStage = .none := rfl
@[simp] theorem State.accept_lastOp (s : State) (w : Word) : (s.accept w).lastOp = w.extractLsb' 0 8 := rfl
@[simp] theorem State.accept_op (s : State) (w : Word) : (s.accept w).op = w.extractLsb' 0 8 := rfl
@[simp] theorem State.accept_cmdword (s : State) (w : Word) : (s.accept w).cmdword = w := rfl
@[simp] theorem State.accept_inLen (s : State) (w : Word) : (s.accept w).inLen = s.inLen := rfl
@[simp] theorem State.accept_extLen (s : State) (w : Word) : (s.accept w).extLen = s.extLen := rfl
@[simp] theorem State.accept_symSel (s : State) (w : Word) : (s.accept w).symSel = s.symSel := rfl
@[simp] theorem State.accept_nodeSel (s : State) (w : Word) : (s.accept w).nodeSel = s.nodeSel := rfl
@[simp] theorem State.accept_res (s : State) (w : Word) : (s.accept w).res = s.res := rfl
@[simp] theorem State.accept_mem (s : State) (w : Word) : (s.accept w).mem = s.mem := rfl
@[simp] theorem State.accept_hostEpoch (s : State) (w : Word) : (s.accept w).hostEpoch = s.hostEpoch := rfl
@[simp] theorem State.accept_outEpoch (s : State) (w : Word) : (s.accept w).outEpoch = s.outEpoch := rfl
@[simp] theorem State.accept_extOutEpoch (s : State) (w : Word) : (s.accept w).extOutEpoch = s.extOutEpoch := rfl
@[simp] theorem State.accept_draws (s : State) (w : Word) : (s.accept w).draws = s.draws := rfl
@[simp] theorem State.accept_host (s : State) (w : Word) : (s.accept w).host = s.host := rfl
@[simp] theorem State.accept_turns (s : State) (w : Word) : (s.accept w).turns = s.turns := rfl
@[simp] theorem State.accept_replies (s : State) (w : Word) : (s.accept w).replies = s.replies := rfl

@[simp] theorem State.retire_cfg (s : State) : s.retire.cfg = s.cfg := rfl
@[simp] theorem State.retire_irqEn (s : State) : s.retire.irqEn = s.irqEn := rfl
@[simp] theorem State.retire_busy (s : State) : s.retire.busy = false := rfl
@[simp] theorem State.retire_done (s : State) : s.retire.done = true := rfl
@[simp] theorem State.retire_wign (s : State) : s.retire.wign = s.wign := rfl
@[simp] theorem State.retire_errCode (s : State) : s.retire.errCode = s.errCode := rfl
@[simp] theorem State.retire_errStage (s : State) : s.retire.errStage = s.errStage := rfl
@[simp] theorem State.retire_lastOp (s : State) : s.retire.lastOp = s.lastOp := rfl
@[simp] theorem State.retire_op (s : State) : s.retire.op = s.op := rfl
@[simp] theorem State.retire_cmdword (s : State) : s.retire.cmdword = s.cmdword := rfl
@[simp] theorem State.retire_inLen (s : State) : s.retire.inLen = s.inLen := rfl
@[simp] theorem State.retire_extLen (s : State) : s.retire.extLen = s.extLen := rfl
@[simp] theorem State.retire_symSel (s : State) : s.retire.symSel = s.symSel := rfl
@[simp] theorem State.retire_nodeSel (s : State) : s.retire.nodeSel = s.nodeSel := rfl
@[simp] theorem State.retire_res (s : State) : s.retire.res = s.res := rfl
@[simp] theorem State.retire_mem (s : State) : s.retire.mem = s.mem := rfl
@[simp] theorem State.retire_hostEpoch (s : State) : s.retire.hostEpoch = s.hostEpoch := rfl
@[simp] theorem State.retire_outEpoch (s : State) : s.retire.outEpoch = s.outEpoch := rfl
@[simp] theorem State.retire_extOutEpoch (s : State) : s.retire.extOutEpoch = s.extOutEpoch := rfl
@[simp] theorem State.retire_draws (s : State) : s.retire.draws = s.draws := rfl
@[simp] theorem State.retire_host (s : State) : s.retire.host = s.host := rfl
@[simp] theorem State.retire_turns (s : State) : s.retire.turns = s.turns := rfl
@[simp] theorem State.retire_replies (s : State) : s.retire.replies = s.replies := rfl

@[simp] theorem State.forgetOut_cfg (s : State) : s.forgetOut.cfg = s.cfg := rfl
@[simp] theorem State.forgetOut_irqEn (s : State) : s.forgetOut.irqEn = s.irqEn := rfl
@[simp] theorem State.forgetOut_busy (s : State) : s.forgetOut.busy = s.busy := rfl
@[simp] theorem State.forgetOut_done (s : State) : s.forgetOut.done = s.done := rfl
@[simp] theorem State.forgetOut_wign (s : State) : s.forgetOut.wign = s.wign := rfl
@[simp] theorem State.forgetOut_errCode (s : State) : s.forgetOut.errCode = s.errCode := rfl
@[simp] theorem State.forgetOut_errStage (s : State) : s.forgetOut.errStage = s.errStage := rfl
@[simp] theorem State.forgetOut_lastOp (s : State) : s.forgetOut.lastOp = s.lastOp := rfl
@[simp] theorem State.forgetOut_op (s : State) : s.forgetOut.op = s.op := rfl
@[simp] theorem State.forgetOut_cmdword (s : State) : s.forgetOut.cmdword = s.cmdword := rfl
@[simp] theorem State.forgetOut_inLen (s : State) : s.forgetOut.inLen = s.inLen := rfl
@[simp] theorem State.forgetOut_extLen (s : State) : s.forgetOut.extLen = s.extLen := rfl
@[simp] theorem State.forgetOut_symSel (s : State) : s.forgetOut.symSel = s.symSel := rfl
@[simp] theorem State.forgetOut_nodeSel (s : State) : s.forgetOut.nodeSel = s.nodeSel := rfl
@[simp] theorem State.forgetOut_res (s : State) : s.forgetOut.res = s.res := rfl
@[simp] theorem State.forgetOut_mem (s : State) : s.forgetOut.mem =
    SMap.eraseRange s.mem outBase s.cfg.outCap.val := rfl
@[simp] theorem State.forgetOut_hostEpoch (s : State) : s.forgetOut.hostEpoch = s.hostEpoch := rfl
@[simp] theorem State.forgetOut_outEpoch (s : State) : s.forgetOut.outEpoch = s.draws := rfl
@[simp] theorem State.forgetOut_extOutEpoch (s : State) : s.forgetOut.extOutEpoch = s.extOutEpoch := rfl
@[simp] theorem State.forgetOut_draws (s : State) : s.forgetOut.draws = s.draws + 1 := rfl
@[simp] theorem State.forgetOut_host (s : State) : s.forgetOut.host = s.host := rfl
@[simp] theorem State.forgetOut_turns (s : State) : s.forgetOut.turns = s.turns := rfl
@[simp] theorem State.forgetOut_replies (s : State) : s.forgetOut.replies = s.replies := rfl

@[simp] theorem State.forgetExtOut_cfg (s : State) : s.forgetExtOut.cfg = s.cfg := rfl
@[simp] theorem State.forgetExtOut_irqEn (s : State) : s.forgetExtOut.irqEn = s.irqEn := rfl
@[simp] theorem State.forgetExtOut_busy (s : State) : s.forgetExtOut.busy = s.busy := rfl
@[simp] theorem State.forgetExtOut_done (s : State) : s.forgetExtOut.done = s.done := rfl
@[simp] theorem State.forgetExtOut_wign (s : State) : s.forgetExtOut.wign = s.wign := rfl
@[simp] theorem State.forgetExtOut_errCode (s : State) : s.forgetExtOut.errCode = s.errCode := rfl
@[simp] theorem State.forgetExtOut_errStage (s : State) : s.forgetExtOut.errStage = s.errStage := rfl
@[simp] theorem State.forgetExtOut_lastOp (s : State) : s.forgetExtOut.lastOp = s.lastOp := rfl
@[simp] theorem State.forgetExtOut_op (s : State) : s.forgetExtOut.op = s.op := rfl
@[simp] theorem State.forgetExtOut_cmdword (s : State) : s.forgetExtOut.cmdword = s.cmdword := rfl
@[simp] theorem State.forgetExtOut_inLen (s : State) : s.forgetExtOut.inLen = s.inLen := rfl
@[simp] theorem State.forgetExtOut_extLen (s : State) : s.forgetExtOut.extLen = s.extLen := rfl
@[simp] theorem State.forgetExtOut_symSel (s : State) : s.forgetExtOut.symSel = s.symSel := rfl
@[simp] theorem State.forgetExtOut_nodeSel (s : State) : s.forgetExtOut.nodeSel = s.nodeSel := rfl
@[simp] theorem State.forgetExtOut_res (s : State) : s.forgetExtOut.res = s.res := rfl
@[simp] theorem State.forgetExtOut_mem (s : State) : s.forgetExtOut.mem = SMap.eraseRange s.mem extOutBase extCap := rfl
@[simp] theorem State.forgetExtOut_hostEpoch (s : State) : s.forgetExtOut.hostEpoch = s.hostEpoch := rfl
@[simp] theorem State.forgetExtOut_outEpoch (s : State) : s.forgetExtOut.outEpoch = s.outEpoch := rfl
@[simp] theorem State.forgetExtOut_extOutEpoch (s : State) : s.forgetExtOut.extOutEpoch = s.draws := rfl
@[simp] theorem State.forgetExtOut_draws (s : State) : s.forgetExtOut.draws = s.draws + 1 := rfl
@[simp] theorem State.forgetExtOut_host (s : State) : s.forgetExtOut.host = s.host := rfl
@[simp] theorem State.forgetExtOut_turns (s : State) : s.forgetExtOut.turns = s.turns := rfl
@[simp] theorem State.forgetExtOut_replies (s : State) : s.forgetExtOut.replies = s.replies := rfl

@[simp] theorem State.succeed_cfg (s : State) (r : Success) : (s.succeed r).cfg = s.cfg := rfl
@[simp] theorem State.succeed_irqEn (s : State) (r : Success) : (s.succeed r).irqEn = s.irqEn := rfl
@[simp] theorem State.succeed_busy (s : State) (r : Success) : (s.succeed r).busy = false := rfl
@[simp] theorem State.succeed_done (s : State) (r : Success) : (s.succeed r).done = true := rfl
@[simp] theorem State.succeed_wign (s : State) (r : Success) : (s.succeed r).wign = s.wign := rfl
@[simp] theorem State.succeed_errCode (s : State) (r : Success) : (s.succeed r).errCode = s.errCode := rfl
@[simp] theorem State.succeed_errStage (s : State) (r : Success) : (s.succeed r).errStage = s.errStage := rfl
@[simp] theorem State.succeed_lastOp (s : State) (r : Success) : (s.succeed r).lastOp = s.lastOp := rfl
@[simp] theorem State.succeed_op (s : State) (r : Success) : (s.succeed r).op = s.op := rfl
@[simp] theorem State.succeed_cmdword (s : State) (r : Success) : (s.succeed r).cmdword = s.cmdword := rfl
@[simp] theorem State.succeed_inLen (s : State) (r : Success) : (s.succeed r).inLen = s.inLen := rfl
@[simp] theorem State.succeed_extLen (s : State) (r : Success) : (s.succeed r).extLen = s.extLen := rfl
@[simp] theorem State.succeed_symSel (s : State) (r : Success) : (s.succeed r).symSel = s.symSel := rfl
@[simp] theorem State.succeed_nodeSel (s : State) (r : Success) : (s.succeed r).nodeSel = s.nodeSel := rfl
@[simp] theorem State.succeed_res (s : State) (r : Success) : (s.succeed r).res = r.res := rfl
@[simp] theorem State.succeed_mem (s : State) (r : Success) : (s.succeed r).mem =
    Memory.writeBytes (Memory.writeBytes (SMap.eraseRange s.mem extOutBase extCap) extOutBase r.ext) outBase r.out := rfl
@[simp] theorem State.succeed_hostEpoch (s : State) (r : Success) : (s.succeed r).hostEpoch = s.hostEpoch := rfl
@[simp] theorem State.succeed_outEpoch (s : State) (r : Success) : (s.succeed r).outEpoch = s.outEpoch := rfl
@[simp] theorem State.succeed_extOutEpoch (s : State) (r : Success) : (s.succeed r).extOutEpoch = s.draws := rfl
@[simp] theorem State.succeed_draws (s : State) (r : Success) : (s.succeed r).draws = s.draws + 1 := rfl
@[simp] theorem State.succeed_host (s : State) (r : Success) : (s.succeed r).host = s.host := rfl
@[simp] theorem State.succeed_turns (s : State) (r : Success) : (s.succeed r).turns = s.turns := rfl
@[simp] theorem State.succeed_replies (s : State) (r : Success) : (s.succeed r).replies = s.replies := rfl

@[simp] theorem State.fail_cfg (s : State) (e : CmdError) : (s.fail e).cfg = s.cfg := rfl
@[simp] theorem State.fail_irqEn (s : State) (e : CmdError) : (s.fail e).irqEn = s.irqEn := rfl
@[simp] theorem State.fail_busy (s : State) (e : CmdError) : (s.fail e).busy = false := rfl
@[simp] theorem State.fail_done (s : State) (e : CmdError) : (s.fail e).done = true := rfl
@[simp] theorem State.fail_wign (s : State) (e : CmdError) : (s.fail e).wign = s.wign := rfl
@[simp] theorem State.fail_errCode (s : State) (e : CmdError) : (s.fail e).errCode = e.code := rfl
@[simp] theorem State.fail_errStage (s : State) (e : CmdError) : (s.fail e).errStage = e.stage := rfl
@[simp] theorem State.fail_lastOp (s : State) (e : CmdError) : (s.fail e).lastOp = s.lastOp := rfl
@[simp] theorem State.fail_op (s : State) (e : CmdError) : (s.fail e).op = s.op := rfl
@[simp] theorem State.fail_cmdword (s : State) (e : CmdError) : (s.fail e).cmdword = s.cmdword := rfl
@[simp] theorem State.fail_inLen (s : State) (e : CmdError) : (s.fail e).inLen = s.inLen := rfl
@[simp] theorem State.fail_extLen (s : State) (e : CmdError) : (s.fail e).extLen = s.extLen := rfl
@[simp] theorem State.fail_symSel (s : State) (e : CmdError) : (s.fail e).symSel = s.symSel := rfl
@[simp] theorem State.fail_nodeSel (s : State) (e : CmdError) : (s.fail e).nodeSel = s.nodeSel := rfl
@[simp] theorem State.fail_res (s : State) (e : CmdError) : (s.fail e).res = Results.reset := rfl
@[simp] theorem State.fail_mem (s : State) (e : CmdError) : (s.fail e).mem =
    SMap.eraseRange (SMap.eraseRange s.mem outBase s.cfg.outCap.val) extOutBase extCap := rfl
@[simp] theorem State.fail_hostEpoch (s : State) (e : CmdError) : (s.fail e).hostEpoch = s.hostEpoch := rfl
@[simp] theorem State.fail_outEpoch (s : State) (e : CmdError) : (s.fail e).outEpoch = s.draws := rfl
@[simp] theorem State.fail_extOutEpoch (s : State) (e : CmdError) : (s.fail e).extOutEpoch = s.draws + 1 := rfl
@[simp] theorem State.fail_draws (s : State) (e : CmdError) : (s.fail e).draws = s.draws + 1 + 1 := rfl
@[simp] theorem State.fail_host (s : State) (e : CmdError) : (s.fail e).host = s.host := rfl
@[simp] theorem State.fail_turns (s : State) (e : CmdError) : (s.fail e).turns = s.turns := rfl
@[simp] theorem State.fail_replies (s : State) (e : CmdError) : (s.fail e).replies = s.replies := rfl

@[simp] theorem State.resetRegisters_cfg (s : State) : s.resetRegisters.cfg = s.cfg := rfl
@[simp] theorem State.resetRegisters_irqEn (s : State) : s.resetRegisters.irqEn = false := rfl
@[simp] theorem State.resetRegisters_busy (s : State) : s.resetRegisters.busy = false := rfl
@[simp] theorem State.resetRegisters_done (s : State) : s.resetRegisters.done = false := rfl
@[simp] theorem State.resetRegisters_wign (s : State) : s.resetRegisters.wign = false := rfl
@[simp] theorem State.resetRegisters_errCode (s : State) : s.resetRegisters.errCode = .none := rfl
@[simp] theorem State.resetRegisters_errStage (s : State) : s.resetRegisters.errStage = .none := rfl
@[simp] theorem State.resetRegisters_lastOp (s : State) : s.resetRegisters.lastOp = 0 := rfl
@[simp] theorem State.resetRegisters_op (s : State) : s.resetRegisters.op = 0 := rfl
@[simp] theorem State.resetRegisters_cmdword (s : State) : s.resetRegisters.cmdword = 0 := rfl
@[simp] theorem State.resetRegisters_inLen (s : State) : s.resetRegisters.inLen = 0 := rfl
@[simp] theorem State.resetRegisters_extLen (s : State) : s.resetRegisters.extLen = 0 := rfl
@[simp] theorem State.resetRegisters_symSel (s : State) : s.resetRegisters.symSel = 0 := rfl
@[simp] theorem State.resetRegisters_nodeSel (s : State) : s.resetRegisters.nodeSel = 0 := rfl
@[simp] theorem State.resetRegisters_res (s : State) : s.resetRegisters.res = Results.reset := rfl
@[simp] theorem State.resetRegisters_mem (s : State) : s.resetRegisters.mem = s.mem := rfl
@[simp] theorem State.resetRegisters_hostEpoch (s : State) : s.resetRegisters.hostEpoch = s.hostEpoch := rfl
@[simp] theorem State.resetRegisters_outEpoch (s : State) : s.resetRegisters.outEpoch = s.outEpoch := rfl
@[simp] theorem State.resetRegisters_extOutEpoch (s : State) : s.resetRegisters.extOutEpoch = s.extOutEpoch := rfl
@[simp] theorem State.resetRegisters_draws (s : State) : s.resetRegisters.draws = s.draws := rfl
@[simp] theorem State.resetRegisters_host (s : State) : s.resetRegisters.host = s.host := rfl
@[simp] theorem State.resetRegisters_turns (s : State) : s.resetRegisters.turns = s.turns := rfl
@[simp] theorem State.resetRegisters_replies (s : State) : s.resetRegisters.replies = s.replies := rfl

@[simp] theorem State.powerOnReset_cfg (s : State) : s.powerOnReset.cfg = s.cfg := rfl
@[simp] theorem State.powerOnReset_irqEn (s : State) : s.powerOnReset.irqEn = false := rfl
@[simp] theorem State.powerOnReset_busy (s : State) : s.powerOnReset.busy = false := rfl
@[simp] theorem State.powerOnReset_done (s : State) : s.powerOnReset.done = false := rfl
@[simp] theorem State.powerOnReset_wign (s : State) : s.powerOnReset.wign = false := rfl
@[simp] theorem State.powerOnReset_errCode (s : State) : s.powerOnReset.errCode = .none := rfl
@[simp] theorem State.powerOnReset_errStage (s : State) : s.powerOnReset.errStage = .none := rfl
@[simp] theorem State.powerOnReset_lastOp (s : State) : s.powerOnReset.lastOp = 0 := rfl
@[simp] theorem State.powerOnReset_op (s : State) : s.powerOnReset.op = 0 := rfl
@[simp] theorem State.powerOnReset_cmdword (s : State) : s.powerOnReset.cmdword = 0 := rfl
@[simp] theorem State.powerOnReset_inLen (s : State) : s.powerOnReset.inLen = 0 := rfl
@[simp] theorem State.powerOnReset_extLen (s : State) : s.powerOnReset.extLen = 0 := rfl
@[simp] theorem State.powerOnReset_symSel (s : State) : s.powerOnReset.symSel = 0 := rfl
@[simp] theorem State.powerOnReset_nodeSel (s : State) : s.powerOnReset.nodeSel = 0 := rfl
@[simp] theorem State.powerOnReset_res (s : State) : s.powerOnReset.res = Results.reset := rfl
@[simp] theorem State.powerOnReset_mem (s : State) : s.powerOnReset.mem = [] := rfl
@[simp] theorem State.powerOnReset_hostEpoch (s : State) : s.powerOnReset.hostEpoch = s.draws := rfl
@[simp] theorem State.powerOnReset_outEpoch (s : State) : s.powerOnReset.outEpoch = s.draws := rfl
@[simp] theorem State.powerOnReset_extOutEpoch (s : State) : s.powerOnReset.extOutEpoch = s.draws := rfl
@[simp] theorem State.powerOnReset_draws (s : State) : s.powerOnReset.draws = s.draws + 1 := rfl
@[simp] theorem State.powerOnReset_host (s : State) : s.powerOnReset.host = s.host := rfl
@[simp] theorem State.powerOnReset_turns (s : State) : s.powerOnReset.turns = s.turns := rfl
@[simp] theorem State.powerOnReset_replies (s : State) : s.powerOnReset.replies = s.replies := rfl

@[simp] theorem State.clearStatus_cfg (s : State) (v : Word) : (s.clearStatus v).cfg = s.cfg := rfl
@[simp] theorem State.clearStatus_irqEn (s : State) (v : Word) : (s.clearStatus v).irqEn = s.irqEn := rfl
@[simp] theorem State.clearStatus_busy (s : State) (v : Word) : (s.clearStatus v).busy = s.busy := rfl
@[simp] theorem State.clearStatus_done (s : State) (v : Word) : (s.clearStatus v).done = (s.done && !v.getLsbD 1) := rfl
@[simp] theorem State.clearStatus_wign (s : State) (v : Word) : (s.clearStatus v).wign = (s.wign && !v.getLsbD 3) := rfl
@[simp] theorem State.clearStatus_errCode (s : State) (v : Word) : (s.clearStatus v).errCode = s.errCode := rfl
@[simp] theorem State.clearStatus_errStage (s : State) (v : Word) : (s.clearStatus v).errStage = s.errStage := rfl
@[simp] theorem State.clearStatus_lastOp (s : State) (v : Word) : (s.clearStatus v).lastOp = s.lastOp := rfl
@[simp] theorem State.clearStatus_op (s : State) (v : Word) : (s.clearStatus v).op = s.op := rfl
@[simp] theorem State.clearStatus_cmdword (s : State) (v : Word) : (s.clearStatus v).cmdword = s.cmdword := rfl
@[simp] theorem State.clearStatus_inLen (s : State) (v : Word) : (s.clearStatus v).inLen = s.inLen := rfl
@[simp] theorem State.clearStatus_extLen (s : State) (v : Word) : (s.clearStatus v).extLen = s.extLen := rfl
@[simp] theorem State.clearStatus_symSel (s : State) (v : Word) : (s.clearStatus v).symSel = s.symSel := rfl
@[simp] theorem State.clearStatus_nodeSel (s : State) (v : Word) : (s.clearStatus v).nodeSel = s.nodeSel := rfl
@[simp] theorem State.clearStatus_res (s : State) (v : Word) : (s.clearStatus v).res = s.res := rfl
@[simp] theorem State.clearStatus_mem (s : State) (v : Word) : (s.clearStatus v).mem = s.mem := rfl
@[simp] theorem State.clearStatus_hostEpoch (s : State) (v : Word) : (s.clearStatus v).hostEpoch = s.hostEpoch := rfl
@[simp] theorem State.clearStatus_outEpoch (s : State) (v : Word) : (s.clearStatus v).outEpoch = s.outEpoch := rfl
@[simp] theorem State.clearStatus_extOutEpoch (s : State) (v : Word) : (s.clearStatus v).extOutEpoch =
    s.extOutEpoch := rfl
@[simp] theorem State.clearStatus_draws (s : State) (v : Word) : (s.clearStatus v).draws = s.draws := rfl
@[simp] theorem State.clearStatus_host (s : State) (v : Word) : (s.clearStatus v).host = s.host := rfl
@[simp] theorem State.clearStatus_turns (s : State) (v : Word) : (s.clearStatus v).turns = s.turns := rfl
@[simp] theorem State.clearStatus_replies (s : State) (v : Word) : (s.clearStatus v).replies = s.replies := rfl

end Sys2Proof.Machine
end

