-- ==== Sys2Proof/Laws/Memory.lean ====
section
/-!
SUPPORT. The bytes of the buffers across the shared operations, and that every memory operation keeps the canonical form.
-/

namespace Sys2Proof.Machine

/-! ## Reading bytes -/

theorem State.byteAt_of_some {s : State} {a : Nat} {b : Byte} (h : SMap.get? s.mem a = some b) : s.byteAt a = b := by
  simp [State.byteAt, h]

theorem State.byteAt_of_none {s : State} {a : Nat} (h : SMap.get? s.mem a = none) :
    s.byteAt a = Config.anyByte (s.epochAt a) a := by
  simp [State.byteAt, h]

/-- The byte at an address depends on the entry there and on the address's epoch alone. -/
theorem State.byteAt_congr {s t : State} {a : Nat} (hm : SMap.get? t.mem a = SMap.get? s.mem a)
    (he : t.epochAt a = s.epochAt a) : t.byteAt a = s.byteAt a := by
  simp [State.byteAt, hm, he]

@[simp] theorem State.length_readBytes (s : State) (a n : Nat) : (s.readBytes a n).length = n := by
  simp [State.readBytes]

theorem State.getElem?_readBytes (s : State) (a n i : Nat) :
    (s.readBytes a n)[i]? = if i < n then some (s.byteAt (a + i)) else none := by
  simp only [State.readBytes, List.getElem?_map]
  split
  · rename_i h
    simp [List.getElem?_range h]
  · rename_i h
    rw [List.getElem?_eq_none (by simpa using h)]
    rfl

/-- Two byte strings read are the same when the bytes are. -/
theorem State.readBytes_congr {s t : State} {a n : Nat} (h : ∀ i, i < n → t.byteAt (a + i) = s.byteAt (a + i)) :
    t.readBytes a n = s.readBytes a n := by
  simp only [State.readBytes, List.map_inj_left, List.mem_range]
  exact h

/-! ## The buffers -/

/-- Every listed byte lies in a buffer. -/
def Memory.inBuffers (c : Config) (m : Memory) : Prop :=
  ∀ e ∈ m, inExtIn e.1 ∨ inExtOut e.1 ∨ inInBuf c e.1 ∨ inOutBuf c e.1

theorem Memory.inBuffers_eraseRange {c : Config} {m : Memory} (a n : Nat) (h : Memory.inBuffers c m) :
    Memory.inBuffers c (SMap.eraseRange m a n) :=
  fun e he => h e (SMap.mem_eraseRange.mp he).1

theorem Memory.inBuffers_writeBytes {c : Config} {m : Memory} {a : Nat} {bs : List Byte} (h : Memory.inBuffers c m)
    (hb : ∀ i, i < bs.length →
      inExtIn (a + i) ∨ inExtOut (a + i) ∨ inInBuf c (a + i) ∨ inOutBuf c (a + i)) :
    Memory.inBuffers c (Memory.writeBytes m a bs) := by
  intro e he
  rcases Memory.mem_writeBytes he with he | ⟨h1, h2⟩
  · exact h e he
  · have := hb (e.1 - a) (by omega)
    rwa [Nat.add_sub_cancel' h1] at this

/-! ## The canonical form -/

theorem State.forgetOut_wf {s : State} (h : s.mem.wf) : s.forgetOut.mem.wf := SMap.sorted_eraseRange _ _ h

theorem State.forgetExtOut_wf {s : State} (h : s.mem.wf) : s.forgetExtOut.mem.wf := SMap.sorted_eraseRange _ _ h

theorem State.succeed_wf {s : State} (r : Success) (h : s.mem.wf) : (s.succeed r).mem.wf :=
  Memory.sorted_writeBytes _ _ (Memory.sorted_writeBytes _ _ (SMap.sorted_eraseRange _ _ h))

theorem State.fail_wf {s : State} (e : CmdError) (h : s.mem.wf) : (s.fail e).mem.wf :=
  SMap.sorted_eraseRange _ _ (SMap.sorted_eraseRange _ _ h)

theorem State.finish_wf {s : State} (r : Except CmdError Success) (h : s.mem.wf) : (s.finish r).mem.wf := by
  cases r with
  | ok r => exact s.succeed_wf r h
  | error e => exact s.fail_wf e h

theorem State.softReset_wf {s : State} (h : s.mem.wf) : s.softReset.mem.wf := by
  unfold State.softReset
  split
  · exact State.forgetExtOut_wf (State.forgetOut_wf h)
  · exact h

theorem State.powerOnReset_wf (s : State) : s.powerOnReset.mem.wf := rfl

theorem State.reset_wf : State.reset.mem.wf := rfl

/-! ## What completions do to the bytes -/

/-- A successful command: its output from the start of `OUT_BUF`, its extension from the start of `EXT_OUT`, the rest of
`EXT_OUT` a new free value, and every other byte as before. -/
theorem State.byteAt_succeed (s : State) (r : Success) (a : Nat) :
    (s.succeed r).byteAt a =
      if h : outBase ≤ a ∧ a < outBase + r.out.length then r.out[a - outBase]
      else if h : extOutBase ≤ a ∧ a < extOutBase + r.ext.length then r.ext[a - extOutBase]
      else if extOutBase ≤ a ∧ a < extOutBase + extCap then Config.anyByte s.draws a
      else s.byteAt a := by
  have hb : extOutBase + extCap ≤ outBase := by decide
  have hget : SMap.get? (s.succeed r).mem a =
      if outBase ≤ a ∧ a < outBase + r.out.length then r.out[a - outBase]?
      else if extOutBase ≤ a ∧ a < extOutBase + r.ext.length then r.ext[a - extOutBase]?
      else if extOutBase ≤ a ∧ a < extOutBase + extCap then none
      else SMap.get? s.mem a := by
    rw [State.succeed_mem, Memory.get?_writeBytes, Memory.get?_writeBytes, SMap.get?_eraseRange]
  by_cases h1 : outBase ≤ a ∧ a < outBase + r.out.length
  · rw [dif_pos h1]
    apply State.byteAt_of_some
    rw [hget, if_pos h1, List.getElem?_eq_getElem]
  · rw [dif_neg h1]
    rw [if_neg h1] at hget
    by_cases h2 : extOutBase ≤ a ∧ a < extOutBase + r.ext.length
    · rw [dif_pos h2]
      apply State.byteAt_of_some
      rw [hget, if_pos h2, List.getElem?_eq_getElem]
    · rw [dif_neg h2]
      rw [if_neg h2] at hget
      by_cases h3 : extOutBase ≤ a ∧ a < extOutBase + extCap
      · rw [if_pos h3] at hget ⊢
        rw [State.byteAt_of_none hget]
        have : ¬ (outBase ≤ a ∧ a < outBase + s.cfg.outCap.val) := by omega
        simp [State.epochAt, this, h3]
      · rw [if_neg h3] at hget ⊢
        refine State.byteAt_congr hget ?_
        simp [State.epochAt, h3]

/-- A failed command: the two output buffers are new free values, and every other byte is as before. -/
theorem State.byteAt_fail (s : State) (e : CmdError) (a : Nat) :
    (s.fail e).byteAt a =
      if outBase ≤ a ∧ a < outBase + s.cfg.outCap.val then Config.anyByte s.draws a
      else if extOutBase ≤ a ∧ a < extOutBase + extCap then Config.anyByte (s.draws + 1) a
      else s.byteAt a := by
  have hb : extOutBase + extCap ≤ outBase := by decide
  have hget : SMap.get? (s.fail e).mem a =
      if extOutBase ≤ a ∧ a < extOutBase + extCap then none
      else if outBase ≤ a ∧ a < outBase + s.cfg.outCap.val then none
      else SMap.get? s.mem a := by
    rw [State.fail_mem, SMap.get?_eraseRange, SMap.get?_eraseRange]
  by_cases h1 : outBase ≤ a ∧ a < outBase + s.cfg.outCap.val
  · rw [if_pos h1]
    have h2 : ¬ (extOutBase ≤ a ∧ a < extOutBase + extCap) := by omega
    rw [if_neg h2, if_pos h1] at hget
    rw [State.byteAt_of_none hget]
    simp [State.epochAt, h1]
  · rw [if_neg h1]
    by_cases h2 : extOutBase ≤ a ∧ a < extOutBase + extCap
    · rw [if_pos h2] at hget ⊢
      rw [State.byteAt_of_none hget]
      simp [State.epochAt, h1, h2]
    · rw [if_neg h2]
      rw [if_neg h2, if_neg h1] at hget
      refine State.byteAt_congr hget ?_
      simp [State.epochAt, h1, h2]

end Sys2Proof.Machine
end

