-- ==== Sys2Proof/Laws/Bus.lean ====
section
/-!
SUPPORT. The bus, said once: which accesses are answered with OKAY, and everything a read, a write and a turn of the host
can do.
-/

namespace Sys2Proof.Machine

/-! ## The address map (R71 to R74) -/

theorem regionOf_eq_regs {c : Config} {a : Nat} : regionOf c a = .regs ↔ a < 0x100 := by
  unfold regionOf
  split_ifs <;> simp only [extInBase, extCap, extOutBase, inBase, outBase, true_iff, false_iff] at * <;> omega

theorem regionOf_eq_extIn {c : Config} {a : Nat} : regionOf c a = .extIn ↔ inExtIn a := by
  unfold regionOf inExtIn
  split_ifs <;> simp only [extInBase, extCap, extOutBase, inBase, outBase, true_iff, false_iff] at * <;> omega

theorem regionOf_eq_extOut {c : Config} {a : Nat} : regionOf c a = .extOut ↔ inExtOut a := by
  unfold regionOf inExtOut
  split_ifs <;> simp only [extInBase, extCap, extOutBase, inBase, outBase, true_iff, false_iff] at * <;> omega

theorem regionOf_eq_inBuf {c : Config} {a : Nat} : regionOf c a = .inBuf ↔ inInBuf c a := by
  unfold regionOf inInBuf
  split_ifs <;> simp only [extInBase, extCap, extOutBase, inBase, outBase, true_iff, false_iff] at * <;> omega

theorem regionOf_eq_outBuf {c : Config} {a : Nat} : regionOf c a = .outBuf ↔ inOutBuf c a := by
  have h1 := c.inCap.property
  unfold regionOf inOutBuf
  split_ifs <;> simp only [extInBase, extCap, extOutBase, inBase, outBase, true_iff, false_iff] at * <;> omega

/-- The regions of R71 are disjoint. -/
theorem regions_disjoint (c : Config) (a : Nat) :
    (inExtIn a → ¬ inExtOut a ∧ ¬ inInBuf c a ∧ ¬ inOutBuf c a) ∧ (inExtOut a → ¬ inInBuf c a ∧ ¬ inOutBuf c a) ∧
      (inInBuf c a → ¬ inOutBuf c a) := by
  have h1 := c.inCap.property
  simp only [inExtIn, inExtOut, inInBuf, inOutBuf]
  omega

/-- A buffer access as a condition on the region of the first and, for a word, of the last byte. -/
theorem accessible_iff (c : Config) (off : Nat) (size : Size) : accessible c off size = true ↔ readAllowed c off size := by
  cases size with
  | byte =>
    simp only [accessible, readAllowed, registerAccess, bufferAccess, false_or]
    rw [← regionOf_eq_extIn (c := c), ← regionOf_eq_extOut (c := c), ← regionOf_eq_inBuf, ← regionOf_eq_outBuf]
    cases regionOf c off <;> simp
  | word =>
    simp only [accessible, readAllowed, registerAccess, bufferAccess]
    rw [← regionOf_eq_extIn (c := c), ← regionOf_eq_extOut (c := c), ← regionOf_eq_inBuf, ← regionOf_eq_outBuf,
      ← regionOf_eq_regs (c := c), ← regionOf_eq_extIn (c := c), ← regionOf_eq_extOut (c := c), ← regionOf_eq_inBuf,
      ← regionOf_eq_outBuf]
    cases regionOf c off <;> simp

theorem writable_iff (c : Config) (off : Nat) (size : Size) : writable c off size = true ↔ writeAllowed c off size := by
  cases size with
  | byte =>
    simp only [writable, accessible, writeAllowed, registerAccess, bufferAccess, false_or]
    rw [← regionOf_eq_extIn (c := c), ← regionOf_eq_inBuf]
    cases regionOf c off <;> simp [Region.hostReadOnly]
  | word =>
    simp only [writable, accessible, writeAllowed, registerAccess, bufferAccess]
    rw [← regionOf_eq_extIn (c := c), ← regionOf_eq_inBuf, ← regionOf_eq_regs (c := c), ← regionOf_eq_extIn (c := c),
      ← regionOf_eq_inBuf]
    cases regionOf c off <;> simp [Region.hostReadOnly]

/-! ## Reads -/

/-- Everything a read can do: a refusal, a free value while busy, the value of a register or of buffer bytes. -/
theorem State.busRead_cases (s : State) (off : Nat) (size : Size) :
    (¬ readAllowed s.cfg off size ∧ s.busRead off size = (.read 0 .slverr, s)) ∨
    (readAllowed s.cfg off size ∧ s.busy = true ∧ s.busRead off size = s.readWhileBusy size) ∨
    (registerAccess off size ∧ s.busRead off size = (.read (s.readReg (regAt off)) .okay, s)) ∨
    (readAllowed s.cfg off size ∧ ¬ registerAccess off size ∧
      s.busRead off size = (.read (s.readBuffer off size) .okay, s)) := by
  unfold State.busRead
  by_cases ha : accessible s.cfg off size = true
  · have hr := (accessible_iff s.cfg off size).mp ha
    have hreg : registerAccess off size ↔ regionOf s.cfg off = .regs := by
      rw [regionOf_eq_regs]
      cases size with
      | byte =>
        simp only [registerAccess, false_iff]
        rw [← regionOf_eq_regs (c := s.cfg)]
        intro h
        simp [accessible, h] at ha
      | word =>
        simp only [accessible, Bool.and_eq_true, decide_eq_true_eq] at ha
        simp only [registerAccess, ha.1, and_true]
    rw [if_pos ha, hreg]
    cases hg : regionOf s.cfg off <;> cases hb : s.busy <;> simp [hr]
    · by_cases hres : (regAt off).isResult = true <;> simp [hres]
    · cases size <;> simp [accessible, hg] at ha
    · cases size <;> simp [accessible, hg] at ha
  · rw [if_neg ha]
    exact .inl ⟨fun h => ha ((accessible_iff ..).mpr h), rfl⟩

/-- A read leaves everything of the state alone but, while busy, the count of free values drawn (R83). -/
theorem State.busRead_state (s : State) (off : Nat) (size : Size) :
    ((s.busRead off size).2 = s ∨ (s.busRead off size).2 = { s with draws := s.draws + 1 }) ∧
      (s.busy = false → (s.busRead off size).2 = s) := by
  rcases s.busRead_cases off size with ⟨-, h⟩ | ⟨-, hb, h⟩ | ⟨-, h⟩ | ⟨-, -, h⟩ <;> rw [h]
  · simp
  · simp [State.readWhileBusy, hb]
  · simp
  · simp

/-- A read of a buffer that is no free value gives the bytes it holds. -/
theorem State.transact_trueBufferRead (s : State) (off : Word) (size : Size) (h : trueBufferRead s off.toNat size) :
    s.transact (.read off size) = (.read (s.readBuffer off.toNat size) .okay, s) := by
  have start {p : Nat → Prop} (hp : bufferAccess p off.toNat size) : p off.toNat := by
    cases size with
    | byte => exact hp
    | word => exact hp.2.1
  have ha : accessible s.cfg off.toNat size = true := by
    rw [accessible_iff]
    rcases h with h | h | ⟨-, h | h⟩
    · exact .inr (.inl h)
    · exact .inr (.inr (.inr (.inl h)))
    · exact .inr (.inr (.inl h))
    · exact .inr (.inr (.inr (.inr h)))
  rcases h with h | h | ⟨hb, h | h⟩
  · simp [State.transact, State.busRead, ha, regionOf_eq_extIn.mpr (start h)]
  · simp [State.transact, State.busRead, ha, regionOf_eq_inBuf.mpr (start h)]
  · simp [State.transact, State.busRead, ha, regionOf_eq_extOut.mpr (start h), hb]
  · simp [State.transact, State.busRead, ha, regionOf_eq_outBuf.mpr (start h), hb]

/-- The bytes of a word read, the lowest offset in bits [7:0] (R75). -/
theorem State.readBuffer_word (s : State) (off : Nat) :
    (s.readBuffer off .word).extractLsb' 0 8 = s.byteAt off ∧
      (s.readBuffer off .word).extractLsb' 8 8 = s.byteAt (off + 1) ∧
      (s.readBuffer off .word).extractLsb' 16 8 = s.byteAt (off + 2) ∧
      (s.readBuffer off .word).extractLsb' 24 8 = s.byteAt (off + 3) := by
  refine ⟨?_, ?_, ?_, ?_⟩ <;>
  · ext i hi
    simp only [State.readBuffer, BitVec.getElem_extractLsb', BitVec.getLsbD_append]
    interval_cases i <;> simp

/-! ## Writes -/

/-- Everything a write can do: a refusal, a register write, or bytes into an input buffer. -/
theorem State.busWrite_cases (s : State) (off : Nat) (size : Size) (data : Word) :
    (¬ writeAllowed s.cfg off size ∧ s.busWrite off size data = (.write .slverr, s)) ∨
    (registerAccess off size ∧ s.busWrite off size data = (.write .okay, s.writeReg data (regAt off))) ∨
    ((bufferAccess inExtIn off size ∨ bufferAccess (inInBuf s.cfg) off size) ∧
      s.busWrite off size data =
        (.write .okay, s.unlessBusy { s with mem := Memory.writeBytes s.mem off (writeData data size) })) := by
  unfold State.busWrite
  by_cases hw : writable s.cfg off size = true
  · have ha := (writable_iff s.cfg off size).mp hw
    rw [if_pos hw]
    cases hg : regionOf s.cfg off
    · refine .inr (.inl ⟨?_, rfl⟩)
      rw [regionOf_eq_regs] at hg
      rcases ha with h | h | h
      · exact h
      · cases size <;> simp only [bufferAccess, inExtIn] at h <;> omega
      · cases size <;> simp only [bufferAccess, inInBuf] at h <;> omega
    · refine .inr (.inr ⟨?_, rfl⟩)
      rw [regionOf_eq_extIn] at hg
      rcases ha with h | h
      · cases size <;> simp only [registerAccess, inExtIn] at h hg
        omega
      · exact h
    · simp [writable, hg, Region.hostReadOnly] at hw
    · refine .inr (.inr ⟨?_, rfl⟩)
      rw [regionOf_eq_inBuf] at hg
      rcases ha with h | h
      · cases size <;> simp only [registerAccess, inInBuf] at h hg
        omega
      · exact h
    · simp [writable, hg, Region.hostReadOnly] at hw
    · cases size <;> simp [writable, accessible, hg] at hw
  · rw [if_neg hw]
    exact .inl ⟨fun h => hw ((writable_iff ..).mpr h), rfl⟩

/-- Everything a write of a register can do. -/
theorem State.writeReg_cases (s : State) (v : Word) (r : Reg) :
    (r = .ctrl ∧ s.writeReg v r = s.writeCtrl v) ∨ (r = .status ∧ s.writeReg v r = s.clearStatus v) ∨
    (r = .cmd ∧ s.writeReg v r = s.issue v) ∨ (r = .inLen ∧ s.writeReg v r = s.unlessBusy { s with inLen := v }) ∨
    (r = .extLen ∧ s.writeReg v r = s.unlessBusy { s with extLen := v.setWidth 8 }) ∨
    (r = .symSel ∧ s.writeReg v r = s.unlessBusy { s with symSel := v.setWidth 8 }) ∨
    (r = .nodeSel ∧ s.writeReg v r = s.unlessBusy { s with nodeSel := v.setWidth 9 }) ∨
    (r ∉ [.ctrl, .status, .cmd, .inLen, .extLen, .symSel, .nodeSel] ∧ s.writeReg v r = s) := by
  cases r <;> simp [State.writeReg]

theorem State.unlessBusy_of_busy {s : State} (t : State) (h : s.busy = true) :
    s.unlessBusy t = { s with wign := true } := by
  simp [State.unlessBusy, h]

theorem State.unlessBusy_of_idle {s : State} (t : State) (h : s.busy = false) : s.unlessBusy t = t := by
  simp [State.unlessBusy, h]

/-! ## The rows of the register map (R21) -/

/-- The register of an offset. -/
theorem regAt_cases (off : Nat) :
    (regAt off = .reserved ∧ ∀ e ∈ regTable, off ≠ e.1) ∨ ∃ e ∈ regTable, off = e.1 ∧ regAt off = e.2 := by
  have h : ∀ rows : List (Nat × Reg), (findReg rows off = .reserved ∧ ∀ e ∈ rows, off ≠ e.1) ∨
      ∃ e ∈ rows, off = e.1 ∧ findReg rows off = e.2 := by
    intro rows
    induction rows with
    | nil => simp [findReg]
    | cons e rows ih =>
      obtain ⟨o, r⟩ := e
      by_cases ho : off = o
      · exact .inr ⟨(o, r), by simp, ho, by simp [findReg, ho]⟩
      · rcases ih with ⟨h1, h2⟩ | ⟨e, h1, h2, h3⟩
        · exact .inl ⟨by simp [findReg, ho, h1], by simpa [ho] using h2⟩
        · exact .inr ⟨e, List.mem_cons_of_mem _ h1, h2, by simp [findReg, ho, h3]⟩
  exact h regTable

/-- The reserved offsets are no row of the register table (R51). -/
theorem regAt_reservedOffset {off : Nat} (h : reservedOffset off) : regAt off = .reserved := by
  rcases regAt_cases off with ⟨e, -⟩ | ⟨e, he, ho, -⟩
  · exact e
  · have hrows : ∀ e ∈ regTable, e.1 < 0x0AC := by decide
    have := hrows e he
    have := h.2.1
    omega

/-- Which offsets the registers that take writes stand at. -/
theorem regAt_writable (off : Nat) :
    (regAt off = .ctrl ↔ off = 0x010) ∧ (regAt off = .status ↔ off = 0x014) ∧ (regAt off = .cmd ↔ off = 0x018) ∧
      (regAt off = .inLen ↔ off = 0x01C) ∧ (regAt off = .extLen ↔ off = 0x020) ∧ (regAt off = .symSel ↔ off = 0x06C) ∧
      (regAt off = .nodeSel ↔ off = 0x098) := by
  rcases regAt_cases off with ⟨h, hne⟩ | ⟨e, he, ho, h⟩
  · rw [h]
    simp only [regTable, List.cons_append, List.nil_append, List.forall_mem_cons] at hne
    simp
    omega
  · rw [h, ho]
    clear h ho
    revert e
    decide

/-! ## Words of the register window -/

/-- A word write to the register window is a register write (R72). -/
theorem State.transact_write_reg (s : State) (off v : Word) (h : off.toNat < 0x100) (h4 : off.toNat % 4 = 0) :
    s.transact (.write off .word v) = (.write .okay, s.writeReg v (regAt off.toNat)) := by
  have hr : regionOf s.cfg off.toNat = .regs := regionOf_eq_regs.mpr h
  simp [State.transact, State.busWrite, writable, accessible, hr, h4, Region.hostReadOnly]

theorem State.transact_write_ctrl (s : State) (v : Word) :
    s.transact (.write 0x010#32 .word v) = (.write .okay, s.writeCtrl v) :=
  s.transact_write_reg _ v (by decide) (by decide)

theorem State.transact_write_status (s : State) (v : Word) :
    s.transact (.write 0x014#32 .word v) = (.write .okay, s.clearStatus v) :=
  s.transact_write_reg _ v (by decide) (by decide)

theorem State.transact_write_cmd (s : State) (v : Word) :
    s.transact (.write 0x018#32 .word v) = (.write .okay, s.issue v) :=
  s.transact_write_reg _ v (by decide) (by decide)

/-- A word read of a register that is no result register, or while idle, gives the register (R72, R302). -/
theorem State.transact_read_reg (s : State) (off : Word) (h : off.toNat < 0x100) (h4 : off.toNat % 4 = 0)
    (hb : s.busy = false ∨ (regAt off.toNat).isResult = false) :
    s.transact (.read off .word) = (.read (s.readReg (regAt off.toNat)) .okay, s) := by
  have hr : regionOf s.cfg off.toNat = .regs := regionOf_eq_regs.mpr h
  rcases hb with hb | hb <;> simp [State.transact, State.busRead, accessible, hr, h4, hb]

/-- The bus itself adds no answer to the host's list. -/
@[simp] theorem State.transact_replies (s : State) (x : Txn) : (s.transact x).2.replies = s.replies := by
  cases x with
  | read off size =>
    rcases (s.busRead_state off.toNat size).1 with h | h <;> rw [State.transact, h]
  | write off size data =>
    rw [State.transact]
    rcases s.busWrite_cases off.toNat size data with ⟨-, e⟩ | ⟨-, e⟩ | ⟨-, e⟩ <;> rw [e]
    · cases regAt off.toNat <;>
        simp only [State.writeReg, State.writeCtrl, State.issue, State.unlessBusy, State.softReset] <;>
        (try split) <;> (try split) <;> rfl
    · rw [State.unlessBusy]
      split <;> rfl

theorem State.transact_pollStatus (s : State) : s.transact pollStatus = (.read s.statusWord .okay, s) :=
  s.transact_read_reg _ (by decide) (by decide) (.inr (by decide))

end Sys2Proof.Machine
end

