-- ==== Sys2Proof/Laws/Container.lean ====
section
/-!
SUPPORT. The container stages: reading fields, the count field, and that the tree parse accepts exactly the serialized trees.
-/

namespace Sys2Proof.Machine

/-! ## Fields -/

theorem rd_eq_some {C rest : List Byte} {b : Byte} : rd C = some (b, rest) ↔ C = b :: rest := by
  cases C <;> simp [rd]

/-- `n` reads succeed exactly when there are `n` bytes, and give them. -/
theorem rdMany_eq_some {n : Nat} {C l rest : List Byte} :
    rdMany n C = some (l, rest) ↔ l.length = n ∧ C = l ++ rest := by
  induction n generalizing C l rest with
  | zero =>
    simp only [rdMany, Option.some.injEq, Prod.mk.injEq, List.length_eq_zero_iff]
    constructor
    · rintro ⟨rfl, rfl⟩; simp
    · rintro ⟨rfl, h⟩; simpa using h
  | succ n ih =>
    cases C with
    | nil =>
      simp only [rdMany, rd, reduceCtorEq, false_iff, not_and]
      intro hl h
      rw [eq_comm, List.append_eq_nil_iff] at h
      rw [h.1] at hl
      simp at hl
    | cons b C =>
      simp only [rdMany, rd, Option.map_eq_some_iff, Prod.mk.injEq, Prod.exists]
      constructor
      · rintro ⟨l', rest', h, rfl, rfl⟩
        obtain ⟨h1, h2⟩ := ih.mp h
        simp [h1, h2]
      · rintro ⟨hl, h⟩
        cases l with
        | nil => simp at hl
        | cons x l =>
          simp only [List.cons_append, List.cons.injEq] at h
          exact ⟨l, rest, ih.mpr ⟨by simpa using hl, h.2⟩, by rw [h.1], rfl⟩

/-! ## The count field (R113) -/

theorem ofLe_lt (l : List Byte) : ofLe l < 256 ^ l.length := by
  induction l with
  | nil => simp [ofLe]
  | cons b l ih =>
    have := b.isLt
    simp only [ofLe, List.length_cons, Nat.pow_succ]
    omega

/-- The `n` low bytes of `v`, least significant first. -/
def leBytes : Nat → Nat → List Byte
  | 0, _ => []
  | n + 1, v => BitVec.ofNat 8 v :: leBytes n (v / 256)

theorem leBytes_eq_map (n v : Nat) : leBytes n v = (List.range n).map fun i => BitVec.ofNat 8 (v / 256 ^ i) := by
  induction n generalizing v with
  | zero => rfl
  | succ n ih =>
    rw [List.range_succ_eq_map]
    simp only [leBytes, ih, List.map_cons, List.map_map, Nat.pow_zero, Nat.div_one, List.cons.injEq, true_and]
    apply List.map_congr_left
    intro i _
    simp [Nat.pow_succ, Nat.div_div_eq_div_mul, Nat.mul_comm]

theorem le64_eq_leBytes (v : Nat) : le64 v = leBytes 8 v := by
  rw [leBytes_eq_map]
  unfold le64
  apply List.map_congr_left
  intro i _
  rw [Nat.shiftRight_eq_div_pow, Nat.pow_mul]

@[simp] theorem length_leBytes (n v : Nat) : (leBytes n v).length = n := by
  simp [leBytes_eq_map]

theorem ofLe_leBytes (n v : Nat) (h : v < 256 ^ n) : ofLe (leBytes n v) = v := by
  induction n generalizing v with
  | zero => simp at h; simp [leBytes, ofLe, h]
  | succ n ih =>
    have h1 : v / 256 < 256 ^ n := Nat.div_lt_of_lt_mul (by rw [Nat.pow_succ] at h; omega)
    simp only [leBytes, ofLe, ih _ h1, BitVec.toNat_ofNat]
    omega

theorem leBytes_ofLe (l : List Byte) : leBytes l.length (ofLe l) = l := by
  induction l with
  | nil => rfl
  | cons b l ih =>
    have hb := b.isLt
    simp only [List.length_cons, leBytes, ofLe, List.cons.injEq]
    refine ⟨?_, ?_⟩
    · apply BitVec.eq_of_toNat_eq
      simp only [BitVec.toNat_ofNat]
      omega
    · rw [show (b.toNat + 256 * ofLe l) / 256 = ofLe l by omega, ih]

/-! ## The tree parse (R204 to R208) -/

/-- Where the parse of a tree leaves the cursor. -/
def TreeCursor.after (c : TreeCursor) (t : Tree) (rest : List Byte) : TreeCursor where
  rest := rest
  nodes := c.nodes + t.nodeCount
  internals := c.internals + (t.leafCount - 1)
  seen := t.bytes.reverse ++ c.seen

/-- A parse reads a serialized tree with new, distinct leaves, numbers it from the cursor, and moves past it. -/
theorem parseTree_sound {d : Nat} {c c' : TreeCursor} {t : Tree} (h : parseTree d c = some (t, c')) :
    c.rest = t.ser ++ c'.rest ∧ t = t.numbered c.nodes ∧ c' = c.after t c'.rest ∧
      t.bytes.Nodup ∧ (∀ b ∈ t.bytes, b ∉ c.seen) ∧ (c.internals ≤ 255 → c'.internals ≤ 255) := by
  induction d generalizing c c' t with
  | zero => simp [parseTree] at h
  | succ d ih =>
    simp only [parseTree] at h
    split at h
    · cases h
    · rename_i tag rest hrd
      rw [rd_eq_some] at hrd
      split at h
      · rename_i htag
        split at h
        · cases h
        · rename_i b rest' hrd'
          rw [rd_eq_some] at hrd'
          split at h
          · cases h
          · rename_i hb
            simp only [Option.some.injEq, Prod.mk.injEq] at h
            obtain ⟨rfl, rfl⟩ := h
            refine ⟨?_, rfl, ?_, ?_, ?_, ?_⟩
            · simp [Tree.ser, hrd, hrd', htag]
            · simp [TreeCursor.after, Tree.nodeCount, Tree.leafCount, Tree.bytes]
            · simp [Tree.bytes]
            · simpa [Tree.bytes] using hb
            · exact id
      · split at h
        · rename_i htag
          split at h
          · cases h
          · rename_i hint
            split at h
            · cases h
            · rename_i l c₁ hl
              split at h
              · cases h
              · rename_i r c₂ hr
                simp only [Option.some.injEq, Prod.mk.injEq] at h
                obtain ⟨rfl, rfl⟩ := h
                obtain ⟨l1, l2, l3, l4, l5, l6⟩ := ih hl
                obtain ⟨r1, r2, r3, r4, r5, r6⟩ := ih hr
                have hl1 := l.one_le_leafCount
                have hr1 := r.one_le_leafCount
                refine ⟨?_, ?_, ?_, ?_, ?_, ?_⟩
                · simp only [] at l1
                  rw [hrd, htag, l1, r1]
                  simp [Tree.ser]
                · simp only [Tree.numbered, Tree.node.injEq, true_and]
                  refine ⟨l2, ?_⟩
                  rw [l3] at r2
                  exact r2
                · rw [r3, l3]
                  simp only [TreeCursor.after, Tree.nodeCount, Tree.leafCount, Tree.bytes, TreeCursor.mk.injEq,
                    List.reverse_append, List.append_assoc, and_true, true_and]
                  omega
                · rw [l3] at r5
                  simp only [Tree.bytes, List.nodup_append]
                  refine ⟨l4, r4, fun a ha b hb hab => ?_⟩
                  subst hab
                  exact r5 a hb (by simp [TreeCursor.after, ha])
                · rw [l3] at r5
                  intro b hb
                  simp only [Tree.bytes, List.mem_append] at hb
                  rcases hb with hb | hb
                  · exact l5 b hb
                  · have := r5 b hb
                    simp [TreeCursor.after] at this
                    exact this.2
                · intro _
                  exact r6 (l6 (by simp only []; omega))
        · cases h

/-- Every serialized tree with new, distinct leaves that stays inside the depth and the internal-node limit is parsed. -/
theorem parseTree_complete (t : Tree) (d : Nat) (c : TreeCursor) (rest : List Byte) (hd : t.depth ≤ d)
    (hc : c.rest = t.ser ++ rest) (hn : t.bytes.Nodup) (hs : ∀ b ∈ t.bytes, b ∉ c.seen)
    (hi : c.internals + (t.leafCount - 1) ≤ 255) :
    parseTree d c = some (t.numbered c.nodes, c.after t rest) := by
  induction t generalizing d c rest with
  | leaf i b w =>
    obtain ⟨d, rfl⟩ : ∃ e, d = e + 1 := ⟨d - 1, by simp only [Tree.depth] at hd; omega⟩
    have hb : b ∉ c.seen := hs b (by simp [Tree.bytes])
    simp only [Tree.ser, List.cons_append, List.nil_append] at hc
    simp [parseTree, hc, rd, hb, Tree.numbered, TreeCursor.after, Tree.nodeCount, Tree.leafCount, Tree.bytes]
  | node i w l r ihl ihr =>
    have hl1 := l.one_le_leafCount
    have hr1 := r.one_le_leafCount
    simp only [Tree.depth] at hd
    simp only [Tree.leafCount] at hi
    obtain ⟨d, rfl⟩ : ∃ e, d = e + 1 := ⟨d - 1, by omega⟩
    simp only [Tree.bytes, List.nodup_append] at hn
    obtain ⟨hnl, hnr, hdis⟩ := hn
    simp only [Tree.ser, List.cons_append, List.append_assoc] at hc
    have htag : tagInternal ≠ tagLeaf := by decide
    have h255 : ¬ 255 < c.internals + 1 := by omega
    have hl := ihl d { c with rest := l.ser ++ (r.ser ++ rest), nodes := c.nodes + 1, internals := c.internals + 1 }
      (r.ser ++ rest) (by omega) rfl hnl (fun b hb => hs b (by simp [Tree.bytes, hb])) (by simp only []; omega)
    have hr := ihr d
      (TreeCursor.after { c with rest := l.ser ++ (r.ser ++ rest), nodes := c.nodes + 1, internals := c.internals + 1 } l
        (r.ser ++ rest))
      rest (by omega) rfl hnr
      (by
        intro b hb
        simp only [TreeCursor.after, List.mem_append, List.mem_reverse, not_or]
        exact ⟨fun hbl => hdis b hbl b hb rfl, hs b (by simp [Tree.bytes, hb])⟩)
      (by simp only [TreeCursor.after]; omega)
    simp only [parseTree, hc, rd, htag, if_false, if_true, h255, hl, hr]
    simp only [Tree.numbered, TreeCursor.after, Tree.nodeCount, Tree.leafCount, Tree.bytes, Option.some.injEq,
      Prod.mk.injEq, true_and, TreeCursor.mk.injEq, List.reverse_append, List.append_assoc, and_true]
    omega

end Sys2Proof.Machine
end

