-- ==== Sys2Proof/Laws/Decode.lean ====
section
/-!
SUPPORT. What decoding gives, case by case: a word below 5 is one of the five commands, every other word is illegal.
-/

namespace Sys2Proof

theorem toNat_opField (w : Word) : (opField w).toNat = w.toNat % 256 := by
  simp [opField, BitVec.extractLsb'_toNat]

theorem toNat_rsvField (w : Word) : (rsvField w).toNat = w.toNat / 256 := by
  have := w.isLt
  simp only [rsvField, BitVec.extractLsb'_toNat, Nat.shiftRight_eq_div_pow]
  omega

/-- The two fields spell the word (R100). -/
theorem toNat_eq_fields (w : Word) : w.toNat = 256 * (rsvField w).toNat + (opField w).toNat := by
  rw [toNat_opField, toNat_rsvField]
  omega

/-- A set reserved bit makes a word illegal (R102). -/
theorem decode_of_rsvField_ne_zero {w : Word} (h : rsvField w ≠ 0) : decode w = .illegal w := if_pos h

/-- A word is illegal exactly when it is none of the five (R103). -/
theorem decode_of_five_le {w : Word} (h : 5 ≤ w.toNat) : decode w = .illegal w := by
  by_cases hr : rsvField w = 0
  · have hw := toNat_eq_fields w
    rw [hr] at hw
    have hop : ∀ k : BitVec 8, k.toNat < 5 → opField w ≠ k := fun k hk e => by
      have h0 : (0 : BitVec 24).toNat = 0 := rfl
      rw [e, h0] at hw
      omega
    rw [decode, if_neg (not_not.mpr hr), if_neg (hop 0x00#8 (by decide)), if_neg (hop 0x01#8 (by decide)),
      if_neg (hop 0x02#8 (by decide)), if_neg (hop 0x03#8 (by decide)), if_neg (hop 0x04#8 (by decide))]
  · exact decode_of_rsvField_ne_zero hr

/-- The decoding of a word below 5 is named by its number (R101). -/
theorem decode_of_lt_five {w : Word} (h : w.toNat < 5) :
    (w = 0x00000000#32 ∧ decode w = .nop) ∨ (w = 0x00000001#32 ∧ decode w = .compress) ∨
      (w = 0x00000002#32 ∧ decode w = .decompress) ∨ (w = 0x00000003#32 ∧ decode w = .analyze) ∨
      (w = 0x00000004#32 ∧ decode w = .parse) := by
  have hw : w = BitVec.ofNat 32 w.toNat := by simp
  generalize w.toNat = n at h hw
  subst hw
  interval_cases n <;> decide

end Sys2Proof
end

