-- ==== Sys2Proof/Laws/Engine.lean ====
section
/-!
SUPPORT. What completions do, said once: every command completes, by `retire`, `succeed` or `fail`, and each of these is
described whole.
-/

namespace Sys2Proof.Machine

/-! ## exec, one equation per command -/

@[simp] theorem exec_nop (s : State) : exec .nop s = .next s.retire := rfl

@[simp] theorem exec_compress (s : State) : exec .compress s = .next (s.finish (compressResult s)) := rfl

@[simp] theorem exec_decompress (s : State) : exec .decompress s = .next (s.finish (decompressResult s)) := rfl

@[simp] theorem exec_analyze (s : State) : exec .analyze s = .next (s.finish (analyzeResult s)) := rfl

@[simp] theorem exec_parse (s : State) : exec .parse s = .next (s.finish (parseResult s)) := rfl

@[simp] theorem exec_illegal (w : Word) (s : State) :
    exec (.illegal w) s = .next (s.fail ⟨.illegalCommand, .command⟩) := rfl

@[simp] theorem State.finish_ok (s : State) (r : Success) : s.finish (.ok r) = s.succeed r := rfl

@[simp] theorem State.finish_error (s : State) (e : CmdError) : s.finish (.error e) = s.fail e := rfl

/-- What a command other than NOP returns (R223 to R228). -/
def resultOf (i : Instr) (s : State) : Except CmdError Success :=
  match i with
  | .nop => .error ⟨.none, .none⟩
  | .compress => compressResult s
  | .decompress => decompressResult s
  | .analyze => analyzeResult s
  | .parse => parseResult s
  | .illegal _ => .error ⟨.illegalCommand, .command⟩

/-- A command is NOP, or completes by R222 on what it returns. -/
theorem exec_cases (i : Instr) (s : State) :
    (i = .nop ∧ exec i s = .next s.retire) ∨ (i ≠ .nop ∧ exec i s = .next (s.finish (resultOf i s))) := by
  cases i <;> simp [resultOf]

/-- Every command completes: NOP, with an output, or with an error. -/
theorem exec_inversion {i : Instr} {s t : State} (h : exec i s = .next t) :
    (i = .nop ∧ t = s.retire) ∨ (∃ r, i ≠ .nop ∧ resultOf i s = .ok r ∧ t = s.succeed r) ∨
      ∃ e, i ≠ .nop ∧ resultOf i s = .error e ∧ t = s.fail e := by
  rcases exec_cases i s with ⟨hi, hx⟩ | ⟨hi, hx⟩
  · rw [hx] at h
    exact .inl ⟨hi, by cases h; rfl⟩
  · rw [hx] at h
    cases hr : resultOf i s with
    | ok r => rw [hr] at h; exact .inr (.inl ⟨r, hi, rfl, by cases h; rfl⟩)
    | error e => rw [hr] at h; exact .inr (.inr ⟨e, hi, rfl, by cases h; rfl⟩)

/-! ## The three completions -/

theorem State.sameInputs_succeed (s : State) (r : Success) : sameInputs s (s.succeed r) := by
  simp [sameInputs]

theorem State.sameInputs_fail (s : State) (e : CmdError) : sameInputs s (s.fail e) := by
  simp [sameInputs]

theorem State.sameInputs_retire (s : State) : sameInputs s s.retire := by
  simp [sameInputs]

/-- A failed completion is what R263 says. -/
theorem State.failsWith_fail (s : State) (e : CmdError) : FailsWith s (s.fail e) e.code e.stage where
  busy := by simp
  done := by simp
  code_eq := by simp
  stage_eq := by simp
  results := by simp
  inputs := s.sameInputs_fail e
  out_any := ⟨s.draws, le_refl _, fun a ha => by
    rw [State.byteAt_fail, if_pos (by exact ha)]⟩
  ext_any := ⟨s.draws + 1, Nat.le_succ _, fun a ha => by
    obtain ⟨h1, h2⟩ := ha
    have h3 : ¬ (outBase ≤ a ∧ a < outBase + s.cfg.outCap.val) := by simp only [outBase]; omega
    have h4 : extOutBase ≤ a ∧ a < extOutBase + extCap := by simp only [extOutBase, extCap]; omega
    rw [State.byteAt_fail, if_neg h3, if_pos h4]⟩
  others := fun a ha => by
    obtain ⟨h1, h2⟩ := ha
    have h4 : ¬ (extOutBase ≤ a ∧ a < extOutBase + extCap) := fun h =>
      h2 (by simp only [extOutBase, extCap] at h; constructor <;> omega)
    rw [State.byteAt_fail, if_neg (by exact h1), if_neg h4]

theorem State.completes_succeed (s : State) (r : Success) : Completes s (s.succeed r) where
  busy := by simp
  done := by simp
  code_eq := by simp
  stage_eq := by simp
  inputs := s.sameInputs_succeed r

/-- After a success the output stands at the start of `OUT_BUF`. -/
theorem State.readBytes_out_succeed (s : State) (r : Success) :
    (s.succeed r).readBytes outBase r.out.length = r.out := by
  apply List.ext_getElem?
  intro i
  rw [State.getElem?_readBytes]
  split
  · rename_i h
    rw [State.byteAt_succeed, dif_pos (by omega)]
    simp [List.getElem?_eq_getElem h]
  · rename_i h
    rw [List.getElem?_eq_none (by omega)]

/-- After a success the extension stands at the start of `EXT_OUT`. -/
theorem State.readBytes_ext_succeed (s : State) (r : Success) (hx : r.ext.length ≤ extCap) :
    (s.succeed r).readBytes extOutBase r.ext.length = r.ext := by
  have hb : extOutBase + extCap ≤ outBase := by decide
  apply List.ext_getElem?
  intro i
  rw [State.getElem?_readBytes]
  split
  · rename_i h
    rw [State.byteAt_succeed, dif_neg (by omega), dif_pos (by omega)]
    simp [List.getElem?_eq_getElem h]
  · rename_i h
    rw [List.getElem?_eq_none (by omega)]

/-- After a success `EXT_OUT` beyond the extension is `any`. -/
theorem State.ext_any_succeed (s : State) (r : Success) :
    becameAny s (s.succeed r) fun a => inExtOut a ∧ extOutBase + r.ext.length ≤ a := by
  refine ⟨s.draws, le_refl _, fun a ha => ?_⟩
  obtain ⟨⟨h1, h2⟩, h3⟩ := ha
  have h4 : ¬ (outBase ≤ a ∧ a < outBase + r.out.length) := by simp only [outBase]; omega
  have h5 : extOutBase ≤ a ∧ a < extOutBase + extCap := by simp only [extOutBase, extCap]; omega
  rw [State.byteAt_succeed, dif_neg h4, dif_neg (by omega), if_pos h5]

/-- After a success every byte outside the output and outside `EXT_OUT` is as before. -/
theorem State.sameBytes_succeed (s : State) (r : Success) (hx : r.ext.length ≤ extCap) :
    sameBytes s (s.succeed r) fun a => ¬ (outBase ≤ a ∧ a < outBase + r.out.length) ∧ ¬ inExtOut a := by
  intro a ha
  obtain ⟨h1, h2⟩ := ha
  have h3 : ¬ (extOutBase ≤ a ∧ a < extOutBase + extCap) := fun h =>
    h2 (by simp only [extOutBase, extCap] at h; constructor <;> omega)
  rw [State.byteAt_succeed, dif_neg h1, dif_neg (by omega), if_neg h3]

/-- NOP touches no byte. -/
theorem State.byteAt_retire (s : State) (a : Nat) : s.retire.byteAt a = s.byteAt a := rfl

end Sys2Proof.Machine
end

