-- ==== Sys2Proof/Laws/Flags.lean ====
section
/-!
SUPPORT. What the fields of `STATUS` and `CTRL` read as (10_state.md R26, R27).
-/

namespace Sys2Proof.Machine

theorem State.statusWord_busy (s : State) : s.statusWord.getLsbD 0 = s.busy := by
  simp only [State.statusWord, BitVec.getLsbD_append]
  simp

theorem State.statusWord_done (s : State) : s.statusWord.getLsbD 1 = s.done := by
  simp only [State.statusWord, BitVec.getLsbD_append]
  simp

theorem State.statusWord_err (s : State) : s.statusWord.getLsbD 2 = s.err := by
  simp only [State.statusWord, BitVec.getLsbD_append]
  simp

theorem State.statusWord_wign (s : State) : s.statusWord.getLsbD 3 = s.wign := by
  simp only [State.statusWord, BitVec.getLsbD_append]
  simp

theorem State.statusWord_reserved (s : State) : s.statusWord.extractLsb' 4 4 = 0 := by
  ext i hi
  simp only [State.statusWord, BitVec.getElem_extractLsb', BitVec.getLsbD_append]
  interval_cases i <;> simp

theorem State.statusWord_code (s : State) : s.statusWord.extractLsb' 8 4 = s.errCode.toBits := by
  ext i hi
  simp only [State.statusWord, BitVec.getElem_extractLsb', BitVec.getLsbD_append]
  interval_cases i <;> simp

theorem State.statusWord_stage (s : State) : s.statusWord.extractLsb' 12 4 = s.errStage.toBits := by
  ext i hi
  simp only [State.statusWord, BitVec.getElem_extractLsb', BitVec.getLsbD_append]
  interval_cases i <;> simp

theorem State.statusWord_lastOp (s : State) : s.statusWord.extractLsb' 16 8 = s.lastOp := by
  ext i hi
  simp only [State.statusWord, BitVec.getElem_extractLsb', BitVec.getLsbD_append]
  interval_cases i <;> simp

theorem State.statusWord_top (s : State) : s.statusWord.extractLsb' 24 8 = 0 := by
  ext i hi
  simp only [State.statusWord, BitVec.getElem_extractLsb', BitVec.getLsbD_append]
  interval_cases i <;> simp

end Sys2Proof.Machine
end

