-- ==== Sys2Proof/Laws/PerInstr.lean ====
section
/-!
SUPPORT. Statements made of every command as syntax, one lemma per constructor.
-/

namespace Sys2Proof.Laws

/-! ## RoundTrip: decoding the word of a well-formed command gives it back (30_encoding.md R101, R103, R104) -/

/-- No bit of a command's word is dropped, by the decoder and by the decoder of table words. -/
def RoundTrip.Statement (i : Instr) : Prop :=
  i.WellFormed → decode (encode i) = i ∧ decodeTableWord 32 (encode i).toNat = some i

/-- The decoder of table words reads one word (R100). -/
theorem decodeTableWord_toNat (w : Word) : decodeTableWord 32 w.toNat = some (decode w) := by
  simp [decodeTableWord, decodeBits]

theorem RoundTrip.nop : RoundTrip.Statement .nop := fun _ => by decide

theorem RoundTrip.compress : RoundTrip.Statement .compress := fun _ => by decide

theorem RoundTrip.decompress : RoundTrip.Statement .decompress := fun _ => by decide

theorem RoundTrip.analyze : RoundTrip.Statement .analyze := fun _ => by decide

theorem RoundTrip.parse : RoundTrip.Statement .parse := fun _ => by decide

theorem RoundTrip.illegal (w : Word) : RoundTrip.Statement (.illegal w) := fun h => by
  have hd : decode w = .illegal w := decode_of_five_le (of_decide_eq_true h)
  rw [encode, decodeTableWord_toNat, hd]
  exact ⟨rfl, rfl⟩

end Sys2Proof.Laws
end

