-- ==== Sys2Proof/Laws/Results.lean ====
section
/-!
SUPPORT. What each command's function returns, case by case, and what its results hold.
-/

namespace Sys2Proof.Machine

/-! ## The tables of an input -/

/-- Each entry of a built `CODE` is a byte with a code of 1 to 255 bits (R150). -/
theorem code_entries {B : List Byte} {tb : Tables} (h : buildTables B = .ok tb) :
    SMap.sorted tb.code = true ∧ ∀ e ∈ tb.code, e.1 < 256 ∧ 1 ≤ e.2.length ∧ e.2.length ≤ 255 := by
  obtain ⟨-, -, hc, -⟩ := buildTables_eq_ok h
  obtain ⟨-, -, hk, -, h256, -⟩ := built_spec h
  rw [hc]
  refine ⟨sorted_codegenStage _, fun e he => ?_⟩
  cases hr : tb.built.root with
  | leaf i b w =>
    rw [hr] at he
    simp only [codegenStage, SMap.set, List.mem_singleton] at he
    subst he
    exact ⟨b.isLt, by simp, by simp⟩
  | node i w l r =>
    rw [hr] at he hk
    have hd := (Tree.node i w l r).depth_le_leafCount
    change e ∈ walk r [true] (walk l [false] []) at he
    rcases mem_walk he with he | ⟨h1, b, q, -, he, hq⟩
    · rcases mem_walk he with he | ⟨h1, b, q, -, he, hq⟩
      · simp at he
      · rw [he]
        simp only [Tree.depth] at hd
        refine ⟨b.isLt, by simp, by simp only [List.length_append, List.length_cons, List.length_nil]; omega⟩
    · rw [he]
      simp only [Tree.depth] at hd
      refine ⟨b.isLt, by simp, by simp only [List.length_append, List.length_cons, List.length_nil]; omega⟩

/-- Each entry of a stored `FREQ` is a byte that occurs, with its count, which 32 bits hold (R142). -/
theorem storedFreq_entries {B : List Byte} (h : B.length < 2 ^ 32) :
    SMap.sorted (storedFreq (frequencies B)) = true ∧
      ∀ e ∈ storedFreq (frequencies B), e.1 < 256 ∧ e.2 ≠ 0 := by
  constructor
  · rw [SMap.sorted_iff_pairwise, storedFreq, List.pairwise_map]
    exact (SMap.sorted_iff_pairwise _).mp (sorted_frequencies B)
  · intro e he
    simp only [storedFreq, List.mem_map] at he
    obtain ⟨f, hf, rfl⟩ := he
    obtain ⟨b, hb, rfl⟩ := mem_frequencies_iff.mp hf
    refine ⟨b.isLt, fun h0 => ?_⟩
    have h1 := List.count_pos_iff.mpr hb
    have h2 := List.count_le_length (a := b) (l := B)
    have h3 := congrArg BitVec.toNat h0
    simp only [BitVec.toNat_ofNat, Nat.reducePow] at h3
    rw [Nat.mod_eq_of_lt (by omega)] at h3
    simp only [BitVec.ofNat_eq_ofNat, BitVec.toNat_ofNat, Nat.zero_mod] at h3
    omega

/-- A stored count. -/
theorem storedFreq_get (F : SMap Nat) (b : Nat) :
    SMap.get? (storedFreq F) b = (SMap.get? F b).map (BitVec.ofNat 32) := by
  induction F with
  | nil => rfl
  | cons e F ih =>
    obtain ⟨a, n⟩ := e
    rw [storedFreq] at ih
    simp only [storedFreq, List.map_cons, SMap.get?_cons]
    split
    · rfl
    · exact ih

/-- The arena of a built tree: every child index is a valid one. -/
theorem arena_children {B : List Byte} {tb : Tables} (h : buildTables B = .ok tb) :
    tb.built.arena.length = 2 * B.dedup.length - 1 ∧
      ∀ w l r, Node.internal w l r ∈ tb.built.arena →
        l.toNat < tb.built.arena.length ∧ r.toNat < tb.built.arena.length := by
  obtain ⟨-, -, -, h1, -, -, -, tail, ha, ht, hc⟩ := built_spec h
  have hlen : tb.built.arena.length = 2 * B.dedup.length - 1 := by
    rw [ha, List.length_append, List.length_map, length_frequencies, ht]
    omega
  refine ⟨hlen, fun w l r hm => ?_⟩
  rw [hlen]
  rw [ha] at hm
  rcases List.mem_append.mp hm with hm | hm
  · simp at hm
  · obtain ⟨j, hj, he⟩ := List.getElem_of_mem hm
    obtain ⟨w', l', r', hg, hl, hr⟩ := hc j (by omega)
    rw [List.getElem?_eq_getElem hj, he] at hg
    cases hg
    omega

/-! ## The container -/

/-- The length of a container (R120). -/
theorem length_container (X : List Byte) (n pad : Nat) (t : Tree) (P : List Byte) :
    (container X n pad t P).length = payloadOffset X.length t.leafCount + P.length := by
  have h := t.length_ser
  have h8 : (le64 n).length = 8 := by rw [le64_eq_leBytes, length_leBytes]
  simp only [container, marker, payloadOffset, List.length_append, List.length_cons, List.length_nil, h8]
  omega

/-- Bytes that parse are a container of what they parse to. -/
theorem parseContainer_sound {C : List Byte} {p : Parsed} (h : parseContainer C = some p) :
    C = container p.ext p.n p.pad p.root p.payload ∧ p.root = p.root.numbered 0 ∧ p.root.bytes.Nodup ∧
      p.ext.length ≤ 255 ∧ 1 ≤ p.n ∧ p.n < 2 ^ 64 ∧ p.pad ≤ 7 ∧ p.off = C.length - p.payload.length := by
  simp only [parseContainer] at h
  split at h
  · cases h
  · rename_i m C₁ h1
    obtain ⟨-, h1⟩ := rdMany_eq_some.mp h1
    split at h
    · cases h
    · rename_i hm
      have hm := not_not.mp hm
      split at h
      · cases h
      · rename_i E C₂ h2
        rw [rd_eq_some] at h2
        split at h
        · cases h
        · rename_i X C₃ h3
          obtain ⟨hX, h3⟩ := rdMany_eq_some.mp h3
          simp only [parseFields] at h
          split at h
          · cases h
          · rename_i count C₄ h4
            obtain ⟨hcount, h4⟩ := rdMany_eq_some.mp h4
            split at h
            · cases h
            · rename_i hn
              split at h
              · cases h
              · rename_i pad C₅ h5
                rw [rd_eq_some] at h5
                split at h
                · cases h
                · rename_i hpad
                  split at h
                  · cases h
                  · rename_i t c ht
                    obtain ⟨ht1, ht2, ht3, ht4, -, -⟩ := parseTree_sound ht
                    simp only [Option.some.injEq] at h
                    subst h
                    simp only at ht1 ht2
                    have hlt := ofLe_lt count
                    have hE := E.isLt
                    rw [hcount] at hlt
                    refine ⟨?_, ht2, ht4, by simp only; omega, by simp only; omega, by simpa using hlt, by simp only; omega, rfl⟩
                    have hEX : BitVec.ofNat 8 X.length = E := by
                      rw [hX]
                      exact BitVec.eq_of_toNat_eq (by simp)
                    have hle : le64 (ofLe count) = count := by rw [le64_eq_leBytes, ← hcount, leBytes_ofLe]
                    have hp : BitVec.ofNat 8 pad.toNat = pad := BitVec.eq_of_toNat_eq (by simp)
                    simp only [container, hEX, hle, hp]
                    rw [h1, hm, h2, h3, h4, h5, ht1]
                    simp

/-- The arena of a parse holds its tree (R208). -/
theorem parseContainer_storedIn {C : List Byte} {p : Parsed} (h : parseContainer C = some p) :
    p.root.storedIn p.root.preorder := by
  obtain ⟨-, hr, hn, -⟩ := parseContainer_sound h
  have h1 := Tree.leafCount_le_of_nodup hn
  have h2 := p.root.nodeCount_eq
  have hs := p.root.storedIn_preorder 0 [] [] rfl (by omega)
  rw [← hr] at hs
  simpa using hs

/-- A parsed tree's arena: its root is index 0 and every child index is a valid one (R208). -/
theorem preorder_children (t : Tree) (i : Nat) (h : i + t.nodeCount ≤ 512) :
    ∀ w l r, Node.internal w l r ∈ (t.numbered i).preorder →
      l.toNat < i + t.nodeCount ∧ r.toNat < i + t.nodeCount := by
  induction t generalizing i with
  | leaf j b w => simp [Tree.numbered, Tree.preorder, Tree.toNode]
  | node j w l r ihl ihr =>
    simp only [Tree.nodeCount] at h ⊢
    have hl1 : 1 ≤ l.nodeCount := by have := l.nodeCount_eq; have := l.one_le_leafCount; omega
    have hr1 : 1 ≤ r.nodeCount := by have := r.nodeCount_eq; have := r.one_le_leafCount; omega
    intro v a b hm
    simp only [Tree.numbered, Tree.preorder, Tree.toNode, List.mem_cons, List.mem_append, Tree.idx_numbered] at hm
    rcases hm with hm | hm | hm
    · cases hm
      simp only [BitVec.toNat_ofNat, Nat.reducePow]
      omega
    · have := ihl (i + 1) (by omega) v a b hm
      omega
    · have := ihr (i + 1 + l.nodeCount) (by omega) v a b hm
      omega

/-! ## What the commands return -/

/-- Everything COMPRESS can return. -/
theorem compressBytes_cases (outCap : Nat) (X B : List Byte) :
    (B = [] ∧ compressBytes outCap X B = .error ⟨.emptyInput, .freq⟩) ∨
    ∃ tb, buildTables B = .ok tb ∧
      let p := packStage B tb.code
      let C := container X B.length p.pad tb.built.root p.payload
      (outCap < C.length ∧ compressBytes outCap X B = .error ⟨.outputOverflow, .serialize⟩) ∨
      (C.length ≤ outCap ∧ compressBytes outCap X B = .ok
        ⟨withStats { encodedResults B.length X.length tb p.bits p.pad p.payload.length with
          outLen := BitVec.ofNat 32 C.length } B.length C.length, C, []⟩) := by
  by_cases hB : B = []
  · subst hB
    exact .inl ⟨rfl, rfl⟩
  · obtain ⟨tb, h⟩ := buildTables_ok hB
    refine .inr ⟨tb, h, ?_⟩
    simp only [compressBytes, h, serializeStage]
    by_cases hc : outCap <
        (container X B.length (packStage B tb.code).pad tb.built.root (packStage B tb.code).payload).length
    · exact .inl ⟨hc, by rw [if_pos hc]⟩
    · exact .inr ⟨by omega, by rw [if_neg hc]⟩

/-- Everything ANALYZE can return. -/
theorem analyzeBytes_cases (E : Nat) (B : List Byte) :
    (B = [] ∧ analyzeBytes E B = .error ⟨.emptyInput, .freq⟩) ∨
    ∃ tb, buildTables B = .ok tb ∧
      let T := bitCount tb.freq tb.code
      analyzeBytes E B = .ok ⟨encodedResults B.length E tb T (padCount T) (payloadLength T), [], []⟩ := by
  by_cases hB : B = []
  · subst hB
    exact .inl ⟨rfl, rfl⟩
  · obtain ⟨tb, h⟩ := buildTables_ok hB
    exact .inr ⟨tb, h, by simp only [analyzeBytes, h]⟩

/-- Everything PARSE can return. -/
theorem parseBytes_cases (C : List Byte) :
    (parseContainer C = none ∧ parseBytes C = .error ⟨.invalidFormat, .deserialize⟩) ∨
    ∃ p, parseContainer C = some p ∧ parseBytes C = .ok ⟨parsedResults p, [], p.ext⟩ := by
  simp only [parseBytes, parseStage]
  cases parseContainer C with
  | none => exact .inl ⟨rfl, rfl⟩
  | some p => exact .inr ⟨p, rfl, rfl⟩

/-- Everything DECOMPRESS can return. -/
theorem decompressBytes_cases (outCap : Nat) (C : List Byte) :
    (parseContainer C = none ∧ decompressBytes outCap C = .error ⟨.invalidFormat, .deserialize⟩) ∨
    ∃ p, parseContainer C = some p ∧
      ((outCap < p.n ∧ decompressBytes outCap C = .error ⟨.outputOverflow, .unpack⟩) ∨
       (p.n ≤ outCap ∧ unpackLoop p.root p.root (dataBits p.payload p.pad) p.n = none ∧
          decompressBytes outCap C = .error ⟨.corruptPayload, .unpack⟩) ∨
       (p.n ≤ outCap ∧ ∃ out, unpackLoop p.root p.root (dataBits p.payload p.pad) p.n = some out ∧ out.length = p.n ∧
          decompressBytes outCap C = .ok
            ⟨withStats { parsedResults p with outLen := BitVec.ofNat 32 p.n } p.n C.length, out, p.ext⟩)) := by
  simp only [decompressBytes, parseStage]
  cases parseContainer C with
  | none => exact .inl ⟨rfl, rfl⟩
  | some p =>
    refine .inr ⟨p, rfl, ?_⟩
    by_cases hc : outCap < p.n
    · exact .inl ⟨hc, by simp [hc]⟩
    · simp only [hc, if_false, unpackStage, false_and, false_or]
      cases hu : unpackLoop p.root p.root (dataBits p.payload p.pad) p.n with
      | none => exact .inl ⟨by omega, rfl, rfl⟩
      | some out =>
        have hl := (unpackLoop_append (more := []) hu).2
        exact .inr ⟨by omega, out, rfl, hl, rfl⟩

/-- The check of R235, and what follows it. -/
theorem State.checkedInput_bind (s : State) {α : Type} (f : List Byte → Except CmdError α) :
    (s.cfg.inCap.val < s.inLen.toNat ∧ s.checkedInput.bind f = .error ⟨.lengthError, .command⟩) ∨
    (s.inLen.toNat ≤ s.cfg.inCap.val ∧ s.checkedInput.bind f = f s.inputBytes) := by
  unfold State.checkedInput State.inputLength
  split
  · exact .inr ⟨‹_›, rfl⟩
  · exact .inl ⟨by omega, rfl⟩

@[simp] theorem State.length_inputBytes (s : State) : s.inputBytes.length = s.inLen.toNat := by
  simp [State.inputBytes, State.inputLength]

@[simp] theorem State.length_extensionBytes (s : State) : s.extensionBytes.length = s.extLen.toNat := by
  simp [State.extensionBytes]

/-- The error codes and stages a command can end with (R260 to R264). -/
theorem resultOf_error {i : Instr} {s : State} {e : CmdError} (hi : i ≠ .nop) (h : resultOf i s = .error e) :
    (e.code, e.stage) ∈
      [(ErrCode.emptyInput, Stage.freq), (.invalidFormat, .deserialize), (.corruptPayload, .unpack),
        (.illegalCommand, .command), (.lengthError, .command), (.outputOverflow, .serialize),
        (.outputOverflow, .unpack)] := by
  cases i with
  | nop => exact absurd rfl hi
  | compress =>
    rcases s.checkedInput_bind (compressBytes s.cfg.outCap.val s.extensionBytes) with ⟨-, hc⟩ | ⟨-, hc⟩ <;>
      simp only [resultOf, compressResult, hc] at h
    · cases h; simp
    · rcases compressBytes_cases s.cfg.outCap.val s.extensionBytes s.inputBytes with ⟨-, hc⟩ | ⟨tb, -, ⟨-, hc⟩ | ⟨-, hc⟩⟩ <;>
        rw [hc] at h <;> cases h <;> simp
  | decompress =>
    rcases s.checkedInput_bind (decompressBytes s.cfg.outCap.val) with ⟨-, hc⟩ | ⟨-, hc⟩ <;>
      simp only [resultOf, decompressResult, hc] at h
    · cases h; simp
    · rcases decompressBytes_cases s.cfg.outCap.val s.inputBytes with
        ⟨-, hc⟩ | ⟨p, -, ⟨-, hc⟩ | ⟨-, -, hc⟩ | ⟨-, out, -, -, hc⟩⟩ <;> rw [hc] at h <;> cases h <;> simp
  | analyze =>
    rcases s.checkedInput_bind (analyzeBytes s.extLen.toNat) with ⟨-, hc⟩ | ⟨-, hc⟩ <;>
      simp only [resultOf, analyzeResult, hc] at h
    · cases h; simp
    · rcases analyzeBytes_cases s.extLen.toNat s.inputBytes with ⟨-, hc⟩ | ⟨tb, -, hc⟩ <;>
        rw [hc] at h <;> cases h
      simp
  | parse =>
    rcases s.checkedInput_bind parseBytes with ⟨-, hc⟩ | ⟨-, hc⟩ <;> simp only [resultOf, parseResult, hc] at h
    · cases h; simp
    · rcases parseBytes_cases s.inputBytes with ⟨-, hc⟩ | ⟨p, -, hc⟩ <;> rw [hc] at h <;> cases h
      simp
  | illegal w => cases h; simp

/-- What a successful command returns: an output that fits, and the extension's bytes (R197, R225, R233). -/
theorem resultOf_ok {i : Instr} {s : State} {r : Success} (h : resultOf i s = .ok r) :
    r.out.length ≤ s.cfg.outCap.val ∧ r.res.outLen = BitVec.ofNat 32 r.out.length ∧ r.ext.length ≤ 255 ∧
      r.res.extLen = BitVec.ofNat 8 r.ext.length := by
  cases i with
  | nop => cases h
  | compress =>
    rcases s.checkedInput_bind (compressBytes s.cfg.outCap.val s.extensionBytes) with ⟨-, hc⟩ | ⟨-, hc⟩ <;>
      simp only [resultOf, compressResult, hc] at h
    · cases h
    · rcases compressBytes_cases s.cfg.outCap.val s.extensionBytes s.inputBytes with ⟨-, hc⟩ | ⟨tb, -, ⟨-, hc⟩ | ⟨hl, hc⟩⟩ <;>
        rw [hc] at h <;> cases h
      exact ⟨hl, rfl, by simp, rfl⟩
  | decompress =>
    rcases s.checkedInput_bind (decompressBytes s.cfg.outCap.val) with ⟨-, hc⟩ | ⟨-, hc⟩ <;>
      simp only [resultOf, decompressResult, hc] at h
    · cases h
    · rcases decompressBytes_cases s.cfg.outCap.val s.inputBytes with
        ⟨-, hc⟩ | ⟨p, hp, ⟨-, hc⟩ | ⟨-, -, hc⟩ | ⟨hn, out, -, hl, hc⟩⟩ <;> rw [hc] at h <;> cases h
      obtain ⟨-, -, -, hx, -⟩ := parseContainer_sound hp
      exact ⟨hl.trans_le hn, by rw [hl]; rfl, hx, rfl⟩
  | analyze =>
    rcases s.checkedInput_bind (analyzeBytes s.extLen.toNat) with ⟨-, hc⟩ | ⟨-, hc⟩ <;>
      simp only [resultOf, analyzeResult, hc] at h
    · cases h
    · rcases analyzeBytes_cases s.extLen.toNat s.inputBytes with ⟨-, hc⟩ | ⟨tb, -, hc⟩ <;> rw [hc] at h <;> cases h
      exact ⟨Nat.zero_le _, rfl, by simp, rfl⟩
  | parse =>
    rcases s.checkedInput_bind parseBytes with ⟨-, hc⟩ | ⟨-, hc⟩ <;> simp only [resultOf, parseResult, hc] at h
    · cases h
    · rcases parseBytes_cases s.inputBytes with ⟨-, hc⟩ | ⟨p, hp, hc⟩ <;> rw [hc] at h <;> cases h
      obtain ⟨-, -, -, hx, -⟩ := parseContainer_sound hp
      exact ⟨Nat.zero_le _, rfl, hx, rfl⟩
  | illegal w => cases h

end Sys2Proof.Machine
end

