-- ==== Sys2Proof/Laws/Step.lean ====
section
/-!
SUPPORT. Everything a step can do, said once: a completion, a power-on reset, a host transaction, or a turn that passes.
-/

namespace Sys2Proof.Machine

/-- The state a turn of the schedule starts from. -/
def State.takeTurn (s : State) : State := { s with turns := s.turns.tail }

/-- The four things a step can be, and what `s.completesNext`, `s.nextTxn` and `s.mover` say of each. -/
theorem step_cases {s t : State} (h : step s = .next t) :
    (s.mover = .engine ∧ s.busy = true ∧ exec (decode s.cmdword) s.takeTurn = .next t) ∨
    (s.mover = .powerOn ∧ t = s.takeTurn.powerOnReset) ∨
    (s.mover = .host ∧ ∃ txn rest, s.nextTxn = some txn ∧ t = State.perform { s.takeTurn with host := rest } txn) ∨
    (s.mover ≠ .powerOn ∧ (s.mover = .engine → s.busy = false) ∧ s.nextTxn = none ∧ t = s.takeTurn) := by
  have hhost : ∀ u : State, s.mover = .host → u = s.takeTurn → t = u.hostTurn →
      (s.mover = .host ∧ ∃ txn rest, s.nextTxn = some txn ∧ t = State.perform { s.takeTurn with host := rest } txn) ∨
      (s.mover ≠ .powerOn ∧ (s.mover = .engine → s.busy = false) ∧ s.nextTxn = none ∧ t = s.takeTurn) := by
    intro u hm hu ht
    have hh : u.host = s.host := by rw [hu]; rfl
    simp only [State.nextTxn, hm]
    unfold State.hostTurn at ht
    rw [hh] at ht
    cases hl : s.host with
    | nil => rw [hl] at ht; exact .inr ⟨by simp, by simp, rfl, by rw [ht, hu]⟩
    | cons o rest =>
      rw [hl] at ht
      refine .inl ⟨trivial, ?_⟩
      cases o with
      | txn x => exact ⟨x, rest, rfl, by rw [ht, hu]⟩
      | waitDone =>
        simp only at ht
        split at ht
        · exact ⟨pollStatus, rest, rfl, by rw [ht, hu]⟩
        · exact ⟨pollStatus, .waitDone :: rest, rfl, by rw [ht, ← hl, hu]; rfl⟩
  unfold step at h
  cases ht : s.turns with
  | nil =>
    have htt : s.takeTurn = s := by cases s; simp only at ht; subst ht; rfl
    rcases Bool.eq_false_or_eq_true s.busy with hb | hb
    · rw [ht, hb] at h
      simp only [engineTurn, hb, if_true, State.fetched] at h
      exact .inl ⟨by simp [State.mover, ht, hb], hb, by rw [htt]; exact h⟩
    · rw [ht, hb] at h
      simp only [Bool.false_eq_true, if_false, Host.Outcome.next.injEq] at h
      exact .inr (.inr (hhost s (by simp [State.mover, ht, hb]) htt.symm h.symm))
  | cons o ts =>
    have htt : s.takeTurn = { s with turns := ts } := by simp [State.takeTurn, ht]
    rw [ht] at h
    cases o with
    | engine =>
      have hm : s.mover = .engine := by simp [State.mover, ht]
      rcases Bool.eq_false_or_eq_true s.busy with hb | hb
      · simp only [engineTurn, hb, if_true, State.fetched] at h
        exact .inl ⟨hm, hb, by rw [htt]; exact h⟩
      · simp only [engineTurn, hb, Bool.false_eq_true, if_false, Host.Outcome.next.injEq] at h
        exact .inr (.inr (.inr ⟨by rw [hm]; simp, fun _ => hb, by simp [State.nextTxn, hm], by rw [htt, ← h]; simp only [hb]⟩))
    | host =>
      simp only [Host.Outcome.next.injEq] at h
      exact .inr (.inr (hhost _ (by simp [State.mover, ht]) htt.symm h.symm))
    | powerOn =>
      simp only [Host.Outcome.next.injEq] at h
      exact .inr (.inl ⟨by simp [State.mover, ht], by rw [htt, h]⟩)

theorem nextTxn_of_not_host {s : State} (h : s.mover ≠ .host) : s.nextTxn = none := by
  unfold State.nextTxn
  cases hm : s.mover <;> simp_all

/-- The same four things, with what each says of the events of the whole-machine rules. -/
theorem step_split {s t : State} (h : step s = .next t) :
    (s.completesNext ∧ (∀ w, ¬ s.acceptsNext w) ∧ ¬ s.resetsNext ∧ s.nextTxn = none ∧
      exec (decode s.cmdword) s.takeTurn = .next t) ∨
    (s.resetsNext ∧ ¬ s.completesNext ∧ (∀ w, ¬ s.acceptsNext w) ∧ s.nextTxn = none ∧ t = s.takeTurn.powerOnReset) ∨
    (¬ s.completesNext ∧ s.mover ≠ .powerOn ∧ ∃ txn rest, s.nextTxn = some txn ∧
      t = State.perform { s.takeTurn with host := rest } txn) ∨
    (¬ s.completesNext ∧ (∀ w, ¬ s.acceptsNext w) ∧ ¬ s.resetsNext ∧ s.nextTxn = none ∧ t = s.takeTurn) := by
  rcases step_cases h with ⟨h1, h2, h3⟩ | ⟨h1, h2⟩ | ⟨h1, x, rest, h2, h3⟩ | ⟨h1, h2, h3, h4⟩
  · have hn := nextTxn_of_not_host (s := s) (by rw [h1]; simp)
    refine .inl ⟨⟨h1, h2⟩, ?_, ?_, hn, h3⟩
    · intro w hw; rw [State.acceptsNext, hn] at hw; simp at hw
    · rintro (hr | ⟨v, hv, -⟩)
      · rw [h1] at hr; cases hr
      · rw [hn] at hv; cases hv
  · have hn := nextTxn_of_not_host (s := s) (by rw [h1]; simp)
    refine .inr (.inl ⟨.inl h1, ?_, ?_, hn, h2⟩)
    · rintro ⟨hc, -⟩; rw [h1] at hc; cases hc
    · intro w hw; rw [State.acceptsNext, hn] at hw; simp at hw
  · refine .inr (.inr (.inl ⟨?_, by rw [h1]; simp, x, rest, h2, h3⟩))
    intro hc; rw [State.completesNext, h1] at hc; simp at hc
  · refine .inr (.inr (.inr ⟨?_, ?_, ?_, h3, h4⟩))
    · rintro ⟨hc, hc2⟩
      rw [h2 hc] at hc2
      cases hc2
    · intro w hw; rw [State.acceptsNext, h3] at hw; simp at hw
    · rintro (hr | ⟨v, hv, -⟩)
      · exact h1 hr
      · rw [h3] at hv; cases hv

/-- What a soft reset leaves of the flags and results (R291). -/
theorem State.softReset_fields (s : State) :
    s.softReset.busy = false ∧ s.softReset.done = false ∧ s.softReset.wign = false ∧ s.softReset.errCode = .none ∧
      s.softReset.errStage = .none ∧ s.softReset.lastOp = 0 ∧ s.softReset.res = Results.reset ∧
      s.softReset.cfg = s.cfg := by
  unfold State.softReset
  split <;> exact ⟨rfl, rfl, rfl, rfl, rfl, rfl, rfl, rfl⟩

/-- Every step takes a next state: nothing stops the machine. -/
theorem step_next (s : State) : ∃ t, step s = .next t := by
  have he : ∀ i u, ∃ t, exec i u = .next t := fun i u => by
    rcases exec_cases i u with ⟨-, h⟩ | ⟨-, h⟩ <;> exact ⟨_, h⟩
  have hturn : ∀ u, ∃ t, engineTurn u = .next t := fun u => by
    unfold engineTurn
    split
    · exact he _ _
    · exact ⟨_, rfl⟩
  unfold step
  split
  · split
    · exact hturn _
    · exact ⟨_, rfl⟩
  · exact hturn _
  · exact ⟨_, rfl⟩
  · exact ⟨_, rfl⟩

/-! ## Transactions -/

/-- The transaction is a word write to `CTRL`, `STATUS` or `CMD`. -/
def Txn.isControl (x : Txn) : Prop :=
  (∃ v, x = .write 0x010#32 .word v) ∨ (∃ v, x = .write 0x014#32 .word v) ∨ ∃ v, x = .write 0x018#32 .word v

/-- The transaction is one of the writes R301 ignores while busy. -/
def Txn.isLocked (c : Config) (x : Txn) : Prop :=
  ∃ off size v, x = .write off size v ∧ lockedWrite c off.toNat size

theorem State.perform_ctrl (s : State) (v : Word) :
    s.perform (.write 0x010#32 .word v) =
      { s.writeCtrl v with replies := .write .okay :: (s.writeCtrl v).replies } := by
  rw [State.perform, State.transact_write_ctrl]

theorem State.perform_status (s : State) (v : Word) :
    s.perform (.write 0x014#32 .word v) = { s.clearStatus v with replies := .write .okay :: s.replies } := by
  rw [State.perform, State.transact_write_status]
  rfl

theorem State.perform_cmd (s : State) (v : Word) :
    s.perform (.write 0x018#32 .word v) = { s.issue v with replies := .write .okay :: (s.issue v).replies } := by
  rw [State.perform, State.transact_write_cmd]

/-- Everything a transaction that is no control write can do: be ignored with `WIGN`; write one input field or bytes of an
input buffer of an idle block; or leave all but the answer and, for a read while busy, the count of draws. -/
theorem State.perform_cases (s : State) (x : Txn) (hx : ¬ x.isControl) :
    (s.busy = true ∧ x.isLocked s.cfg ∧ s.perform x = { s with wign := true, replies := .write .okay :: s.replies }) ∨
    (s.busy = false ∧ ∃ inLen extLen symSel nodeSel mem,
      (mem = s.mem ∨ ∃ off size v, (bufferAccess inExtIn off size ∨ bufferAccess (inInBuf s.cfg) off size) ∧
        mem = Memory.writeBytes s.mem off (writeData v size)) ∧
      s.perform x = { s with inLen := inLen, extLen := extLen, symSel := symSel, nodeSel := nodeSel, mem := mem,
                             replies := .write .okay :: s.replies }) ∨
    ((s.busy = true → ¬ x.isLocked s.cfg) ∧ ∃ reply draws, (draws = s.draws ∨ draws = s.draws + 1) ∧
      s.perform x = { s with draws := draws, replies := reply :: s.replies }) := by
  cases x with
  | read off size =>
    have hl : ¬ Txn.isLocked s.cfg (.read off size) := by rintro ⟨_, _, _, h, _⟩; cases h
    refine .inr (.inr ⟨fun _ => hl, (s.busRead off.toNat size).1, ?_⟩)
    rw [State.perform, State.transact]
    rcases (s.busRead_state off.toNat size).1 with h | h
    · exact ⟨s.draws, .inl rfl, by simp only [h]⟩
    · exact ⟨s.draws + 1, .inr rfl, by simp only [h]⟩
  | write off size v =>
    have hoff : ∀ k : Word, k.toNat = off.toNat → off = k := fun k h => BitVec.eq_of_toNat_eq h.symm
    rw [State.perform, State.transact]
    have hlock : Txn.isLocked s.cfg (.write off size v) ↔ lockedWrite s.cfg off.toNat size :=
      ⟨by rintro ⟨_, _, _, h, hl⟩; cases h; exact hl, fun h => ⟨_, _, _, rfl, h⟩⟩
    rw [hlock]
    have hm := regAt_writable off.toNat
    rcases s.busWrite_cases off.toNat size v with ⟨hn, h⟩ | ⟨hr, h⟩ | ⟨hb, h⟩
    · refine .inr (.inr ⟨fun _ hl => hn ?_, .write .slverr, s.draws, .inl rfl, by rw [h]⟩)
      rcases hl with ⟨rfl, h1⟩ | h1 | h1
      · refine .inl ⟨?_, ?_⟩ <;> simp only [List.mem_cons, List.not_mem_nil, or_false] at h1 <;> omega
      · exact .inr (.inl h1)
      · exact .inr (.inr h1)
    · have hsize : size = .word := by cases size <;> simp [registerAccess] at hr ⊢
      subst hsize
      have field : (∃ a b c d, off.toNat ∈ [0x018, 0x01C, 0x020, 0x06C, 0x098] ∧ s.writeReg v (regAt off.toNat) =
          s.unlessBusy { s with inLen := a, extLen := b, symSel := c, nodeSel := d }) ∨
          (off.toNat ∉ [0x018, 0x01C, 0x020, 0x06C, 0x098] ∧ s.writeReg v (regAt off.toNat) = s) := by
        rcases s.writeReg_cases v (regAt off.toNat) with
          ⟨a, w⟩ | ⟨a, w⟩ | ⟨a, w⟩ | ⟨a, w⟩ | ⟨a, w⟩ | ⟨a, w⟩ | ⟨a, w⟩ | ⟨a, w⟩
        · exact absurd (.inl ⟨v, by rw [hoff 0x010#32 (hm.1.mp a).symm]⟩) hx
        · exact absurd (.inr (.inl ⟨v, by rw [hoff 0x014#32 (hm.2.1.mp a).symm]⟩)) hx
        · exact absurd (.inr (.inr ⟨v, by rw [hoff 0x018#32 (hm.2.2.1.mp a).symm]⟩)) hx
        · exact .inl ⟨_, _, _, _, by rw [hm.2.2.2.1.mp a]; decide, w⟩
        · exact .inl ⟨_, _, _, _, by rw [hm.2.2.2.2.1.mp a]; decide, w⟩
        · exact .inl ⟨_, _, _, _, by rw [hm.2.2.2.2.2.1.mp a]; decide, w⟩
        · exact .inl ⟨_, _, _, _, by rw [hm.2.2.2.2.2.2.mp a]; decide, w⟩
        · refine .inr ⟨?_, w⟩
          simp only [List.mem_cons, List.not_mem_nil, or_false, not_or, hm] at a ⊢
          omega
      rcases field with ⟨a, b, c, d, hk, w⟩ | ⟨hk, w⟩
      · rw [h, w]
        rcases Bool.eq_false_or_eq_true s.busy with hb | hb
        · exact .inl ⟨hb, .inl ⟨rfl, hk⟩, by rw [State.unlessBusy_of_busy _ hb]⟩
        · exact .inr (.inl ⟨hb, a, b, c, d, s.mem, .inl rfl, by rw [State.unlessBusy_of_idle _ hb]⟩)
      · refine .inr (.inr ⟨fun _ hl => ?_, .write .okay, s.draws, .inl rfl, by rw [h, w]⟩)
        rcases hl with ⟨-, h1⟩ | h1 | h1
        · exact hk h1
        · simp only [registerAccess, bufferAccess, inExtIn] at hr h1
          omega
        · simp only [registerAccess, bufferAccess, inInBuf] at hr h1
          omega
    · rw [h]
      rcases Bool.eq_false_or_eq_true s.busy with hbusy | hbusy
      · exact .inl ⟨hbusy, .inr hb, by rw [State.unlessBusy_of_busy _ hbusy]⟩
      · exact .inr (.inl ⟨hbusy, s.inLen, s.extLen, s.symSel, s.nodeSel, _, .inr ⟨_, _, _, hb, rfl⟩, by
          rw [State.unlessBusy_of_idle _ hbusy]⟩)

end Sys2Proof.Machine
end

