-- ==== Sys2Proof/Tests/Slice0.lean ====
section
/-!
SUPPORT. Tests. Expected results are those of 95_test_vectors.md, or words written out from 30_encoding.md; each test names its
source. The second part shows, for every statement with hypotheses, a concrete state and operands that meet them.
-/

namespace Sys2Proof.Tests

open Sys2Proof Sys2Proof.Machine

/-! ## WellFormed: the check refuses ill-formed terms (30_encoding.md R103) -/

theorem test_wellFormed_refuses_defined_words :
    [0, 1, 2, 3, 4].all (fun n => !(Instr.illegal (BitVec.ofNat 32 n)).wellFormed) = true := by decide

theorem test_wellFormed_accepts :
    [Instr.nop, .compress, .decompress, .analyze, .parse, .illegal 5, .illegal 0xFFFFFFFF].all Instr.wellFormed = true := by
  decide

/-! ## Decode: each command's word, bit by bit, RSV then OP (30_encoding.md R100, R101) -/

theorem test_decode_nop : decode (0b000000000000000000000000#24 ++ 0b00000000#8) = .nop := by decide

theorem test_decode_compress : decode (0b000000000000000000000000#24 ++ 0b00000001#8) = .compress := by decide

theorem test_decode_decompress : decode (0b000000000000000000000000#24 ++ 0b00000010#8) = .decompress := by decide

theorem test_decode_analyze : decode (0b000000000000000000000000#24 ++ 0b00000011#8) = .analyze := by decide

theorem test_decode_parse : decode (0b000000000000000000000000#24 ++ 0b00000100#8) = .parse := by decide

theorem test_decode_illegal :
    decode (0b000000000000000000000001#24 ++ 0b00000101#8) = .illegal 0x00000105#32 ∧
      decode (0b100000000000000000000000#24 ++ 0b00000001#8) = .illegal 0x80000001#32 := by decide

theorem test_decodeTableWord :
    decodeTableWord 32 3 = some .analyze ∧ decodeTableWord 8 1 = some .compress ∧ decodeTableWord 40 1 = none := by decide

/-! ## States for tests -/

/-- A block of the given capacities after reset. -/
def block (inCap outCap : Cap) : State := State.resetWith ⟨inCap, outCap, 0⟩

/-- The state with `B` in `IN_BUF` and `X` in `EXT_IN`, and their lengths set. -/
def load (s : State) (B X : List Byte) : State :=
  { s with
    inLen := BitVec.ofNat 32 B.length
    extLen := BitVec.ofNat 8 X.length
    mem := Memory.writeBytes (Memory.writeBytes s.mem extInBase X) inBase B }

/-- The state after a step, the same one if there is none. -/
def after (s : State) : State :=
  match step s with
  | .next t => t
  | .fault _ => s
  | .refused _ => s

/-- The state after a step that runs the command. -/
def runCommand (i : Instr) (s : State) : State := after (s.withFetchWord 32 (encode i).toNat)

/-- The answer the host got last. -/
def lastReply (s : State) : Option Reply := s.replies.head?

def cap4096 : Cap := ⟨4096, by decide⟩
def cap29 : Cap := ⟨29, by decide⟩
def cap28 : Cap := ⟨28, by decide⟩
def cap10 : Cap := ⟨10, by decide⟩
def cap9 : Cap := ⟨9, by decide⟩

/-- "aaaabbbccd" (V-F1). -/
def text : List Byte := [0x61#8, 0x61#8, 0x61#8, 0x61#8, 0x62#8, 0x62#8, 0x62#8, 0x63#8, 0x63#8, 0x64#8]

/-- "txt" (V-S2). -/
def ext : List Byte := [0x74#8, 0x78#8, 0x74#8]

/-- V-S1. -/
def container1 : List Byte :=
  [0x48#8, 0x55#8, 0x46#8, 0x46#8, 0x01#8, 0x00#8, 0x0A#8, 0#8, 0#8, 0#8, 0#8, 0#8, 0#8, 0#8, 0x05#8] ++
    [0x00#8, 0x01#8, 0x61#8, 0x00#8, 0x01#8, 0x62#8, 0x00#8, 0x01#8, 0x64#8, 0x01#8, 0x63#8, 0x0A#8, 0xBF#8, 0xC0#8]

/-- V-S2. -/
def container2 : List Byte :=
  [0x48#8, 0x55#8, 0x46#8, 0x46#8, 0x01#8, 0x03#8, 0x74#8, 0x78#8, 0x74#8, 0x0A#8, 0#8, 0#8, 0#8, 0#8, 0#8, 0#8, 0#8, 0x05#8] ++
    [0x00#8, 0x01#8, 0x61#8, 0x00#8, 0x01#8, 0x62#8, 0x00#8, 0x01#8, 0x64#8, 0x01#8, 0x63#8, 0x0A#8, 0xBF#8, 0xC0#8]

/-! ## One step per command -/

/-- V-X1: NOP from reset. -/
theorem test_nop : (runCommand .nop State.reset).statusWord = 0x00000002#32 := by decide +kernel

/-- V-S2: the container of COMPRESS. -/
theorem test_compress_container :
    (runCommand .compress (load State.reset text ext)).readBytes outBase 32 = container2 := by decide +kernel

/-- V-S12: one byte of capacity too little. -/
theorem test_compress_overflow :
    (runCommand .compress (load (block cap4096 cap28) text [])).statusWord = 0x00016606#32 := by decide +kernel

/-- S7: the bytes back; V-D2: the extension. -/
theorem test_decompress :
    let s := runCommand .decompress (load State.reset container2 [])
    s.readBytes outBase 10 = text ∧ s.readBytes extOutBase 3 = ext := by decide +kernel

/-- S6: a payload cut by one byte is `Err(3, 8)`. -/
theorem test_decompress_truncated :
    (runCommand .decompress (load State.reset container1.dropLast [])).statusWord = 0x00028306#32 := by decide +kernel

/-- V-B1: the arena of ANALYZE. -/
theorem test_analyze_arena :
    (runCommand .analyze (load State.reset text [])).res.arena =
      [.leaf 0x61#8 4, .leaf 0x62#8 3, .leaf 0x63#8 2, .leaf 0x64#8 1, .internal 3 3 2, .internal 6 1 4,
        .internal 10 0 5] := by decide +kernel

/-- V-CG1: the codes of ANALYZE. -/
theorem test_analyze_codes :
    (runCommand .analyze (load State.reset text [])).res.code =
      [(0x61, [false]), (0x62, [true, false]), (0x63, [true, true, true]), (0x64, [true, true, false])] := by
  decide +kernel

/-- V-D1: the arena of PARSE in pre-order. -/
theorem test_parse_arena :
    (runCommand .parse (load State.reset container1 [])).res.arena =
      [.internal 0 1 2, .leaf 0x61#8 0, .internal 0 3 4, .leaf 0x62#8 0, .internal 0 5 6, .leaf 0x64#8 0,
        .leaf 0x63#8 0] := by decide +kernel

/-- V-D4: an empty container is `Err(2, 7)`. -/
theorem test_parse_empty : (runCommand .parse State.reset).statusWord = 0x00047206#32 := by decide +kernel

/-- V-X20: a reserved bit set is `Err(4, 1)`, whatever OP says. -/
theorem test_illegal : (runCommand (.illegal 0x80000001#32) State.reset).statusWord = 0x00011406#32 := by decide +kernel

/-! ## Bus -/

/-- V-CG1: the symbol readout of byte 0x63. -/
theorem test_symbol_readout :
    let s := runCommand .analyze (load State.reset text [])
    ({ s with symSel := 0x63#8 }.transact (.read 0x078#32 .word)).1 = .read 7#32 .okay := by decide +kernel

/-- 20_memory.md R75: the lowest offset holds bits [7:0]. -/
theorem test_little_endian :
    (State.reset.perform (.write 0x10000000#32 .word 0x64636261#32)).byteAt 0x10000000 = 0x61#8 := by decide +kernel

/-- V-H2, 20_memory.md R75: a word written at `IN_BUF`, read back byte by byte. -/
theorem test_mixed_widths :
    let s := State.reset.perform (.write 0x10000000#32 .word 0x46465548#32)
    ([0x10000000#32, 0x10000001#32, 0x10000002#32, 0x10000003#32].map fun a => (s.transact (.read a .byte)).1) =
      [.read 0x48#32 .okay, .read 0x55#32 .okay, .read 0x46#32 .okay, .read 0x46#32 .okay] := by decide +kernel

/-- V-S2, 20_memory.md R78: the word at the end of the container in `OUT_BUF`, and one of its bytes. -/
theorem test_output_read :
    let s := runCommand .compress (load State.reset text ext)
    (s.transact (.read 0x2000001C#32 .word)).1 = .read 0xC0BF0A63#32 .okay ∧
      (s.transact (.read 0x2000001E#32 .byte)).1 = .read 0xBF#32 .okay := by decide +kernel

/-- 20_memory.md R72, R74: a byte read of a register, and a write of `OUT_BUF`, are refused. -/
theorem test_slverr :
    (State.reset.transact (.read 0x014#32 .byte)).1 = .read 0 .slverr ∧
      (State.reset.transact (.write 0x20000000#32 .byte 1#32)).1 = .write .slverr := by decide +kernel

/-- 30_encoding.md R105: the four transactions of host assembly, and R295's sequence for NOP. -/
theorem test_host_assembly :
    wr32 Reg.inLen.offset 10#32 = .txn (.write 0x01C#32 .word 10#32) ∧
      wr8 0x10000000 0x61#8 = .txn (.write 0x10000000#32 .byte 0x61#32) ∧
      hostCommand .nop [] [] false =
        [wr32 0x01C 0, wr32 0x020 0, wr32 0x010 0, wr32 0x018 0, .waitDone, rd32 0x014, wr32 0x014 2] := by decide +kernel

/-! ## Every hypothesis is met

One theorem per statement with hypotheses: a concrete state and operands that meet all of them together, at the boundary values
of their ranges. -/

/-- A state with a command in flight. -/
def busyState : State := State.reset.accept 0x00000003#32

/-- The tables of an input, empty ones for no input. -/
def tablesOf (B : List Byte) : Tables :=
  match buildTables B with
  | .ok tb => tb
  | .error _ => ⟨[], ⟨.leaf 0 0 0, []⟩, []⟩

theorem tablesOf_text : buildTables text = .ok (tablesOf text) := by
  obtain ⟨tb, h⟩ := buildTables_ok (B := text) (by decide)
  simp [tablesOf, h]

theorem inputBytes_text :
    (load (block cap10 cap28) text []).inputBytes = text ∧ (load (block cap10 cap29) text []).inputBytes = text := by
  decide +kernel

theorem test_witness_CommandsAndWordsCorrespond :
    Instr.nop.WellFormed ∧ (Instr.illegal 0x00000005#32).WellFormed ∧ (Instr.illegal 0xFFFFFFFF#32).WellFormed := by decide

theorem test_witness_EveryOtherWordFailsAsIllegal :
    (0x00000100#32).extractLsb' 8 24 ≠ 0 ∧ (0x80000000#32).extractLsb' 8 24 ≠ 0 ∧
      ((5#32) ≠ 0 ∧ (5#32) ≠ 1 ∧ (5#32) ≠ 2 ∧ (5#32) ≠ 3 ∧ (5#32) ≠ 4) ∧ State.reset.busy = false := by decide

theorem test_witness_StepRunsTheDecodedCommand :
    (busyState.busy = true ∧ busyState.turns = []) ∧
      ({ busyState with turns := [.engine] }.busy = true ∧ { busyState with turns := [.engine] }.turns = .engine :: []) :=
  ⟨⟨rfl, rfl⟩, rfl, rfl⟩

theorem test_witness_CommandEndsWithinTheSchedule : { busyState with turns := [.host, .host] }.busy = true := rfl

theorem test_witness_StepPerformsTheHostTransaction :
    (let s := { State.reset with host := [wr32 0x01C 5, .waitDone] }
     s.host = .txn (.write 0x01C#32 .word 5#32) :: [.waitDone] ∧ s.turns = [] ∧ s.busy = false) ∧
    (let s := { busyState with host := [rd32 0x014], turns := [.host, .engine] }
     s.host = .txn (.read 0x014#32 .word) :: [] ∧ s.turns = .host :: [.engine]) ∧
    ({ State.reset with host := waitDone }.host = .waitDone :: [] ∧ { State.reset with host := waitDone }.turns = []) ∧
    (State.reset.host = [] ∧ State.reset.turns = [] ∧ { State.reset with turns := [.host] }.turns = .host :: []) ∧
    ({ State.reset with turns := [.engine] }.busy = false ∧ { State.reset with turns := [.engine] }.turns = .engine :: []) := by
  decide

theorem test_witness_WaitDonePollsUntilDone :
    { State.reset with host := waitDone }.host = .waitDone :: [] ∧
      { State.reset with host := .waitDone :: clrDone, done := true }.host = .waitDone :: clrDone := ⟨rfl, rfl⟩

theorem test_witness_NopCompletesAndKeepsEverything :
    (∃ t, exec .nop (State.reset.accept 0x00000000#32) = .next t) ∧
      ((0x00000100#32).extractLsb' 0 8 = 0x00#8 ∧ (0x00000100#32).extractLsb' 8 24 ≠ 0) := ⟨⟨_, rfl⟩, by decide, by decide⟩

theorem test_witness_LengthCheckComesFirst :
    { block cap10 cap10 with inLen := 11 }.cfg.inCap.val < { block cap10 cap10 with inLen := 11 }.inLen.toNat ∧
      Instr.compress ∈ [Instr.compress, .decompress, .analyze, .parse] := by decide

theorem test_witness_EncoderFailures :
    State.reset.inLen = 0 ∧
      ∃ (s : State) (tb : Tables), 1 ≤ s.inLen.toNat ∧ s.inLen.toNat ≤ s.cfg.inCap.val ∧
        buildTables s.inputBytes = .ok tb ∧
        s.cfg.outCap.val < containerLength s.extLen.toNat s.inputBytes.dedup.length (bitCount tb.freq tb.code) := by
  refine ⟨rfl, load (block cap10 cap28) text [], tablesOf text, by decide, by decide, ?_, ?_⟩
  · rw [inputBytes_text.1]
    exact tablesOf_text
  · rw [inputBytes_text.1]
    decide +kernel

theorem test_witness_CompressCompletes :
    ∃ (s : State) (tb : Tables), 1 ≤ s.inLen.toNat ∧ s.inLen.toNat ≤ s.cfg.inCap.val ∧
      buildTables s.inputBytes = .ok tb ∧
      containerLength s.extLen.toNat s.inputBytes.dedup.length (bitCount tb.freq tb.code) ≤ s.cfg.outCap.val := by
  refine ⟨load (block cap10 cap29) text [], tablesOf text, by decide, by decide, ?_, ?_⟩
  · rw [inputBytes_text.2]
    exact tablesOf_text
  · rw [inputBytes_text.2]
    decide +kernel

theorem test_witness_AnalyzeCompletes :
    (1 ≤ (load (block cap10 cap10) text []).inLen.toNat ∧
      (load (block cap10 cap10) text []).inLen.toNat ≤ (load (block cap10 cap10) text []).cfg.inCap.val) ∧
      (1 ≤ (load (block cap10 cap10) [0x41#8] []).inLen.toNat ∧
        (load (block cap10 cap10) [0x41#8] []).inLen.toNat ≤ (load (block cap10 cap10) [0x41#8] []).cfg.inCap.val) := by
  decide

/-- What V-S1 parses to (V-D1). -/
def parsed1 : Parsed :=
  ⟨[], 10, 5,
    .node 0 0 (.leaf 1 0x61#8 0) (.node 2 0 (.leaf 3 0x62#8 0) (.node 4 0 (.leaf 5 0x64#8 0) (.leaf 6 0x63#8 0))), 26,
    [0x0A#8, 0xBF#8, 0xC0#8]⟩

theorem parse_container1 : parseContainer container1 = some parsed1 := by decide +kernel

theorem inputBytes_container1 :
    (load (block cap29 cap9) container1 []).inputBytes = container1 ∧
      (load (block cap29 cap10) container1 []).inputBytes = container1 := by decide +kernel

theorem test_witness_ParseCompletes :
    ∃ (s : State) (p : Parsed), s.inLen.toNat ≤ s.cfg.inCap.val ∧ parseContainer s.inputBytes = some p := by
  refine ⟨load (block cap29 cap10) container1 [], parsed1, by decide, ?_⟩
  rw [inputBytes_container1.2]
  exact parse_container1

theorem test_witness_NoContainerFailsAtDeserialize :
    State.reset.inLen.toNat ≤ State.reset.cfg.inCap.val ∧ parseContainer State.reset.inputBytes = none := by decide +kernel

theorem test_witness_DecompressCompletes :
    ∃ (s : State) (p : Parsed) (out : List Byte), s.inLen.toNat ≤ s.cfg.inCap.val ∧
      parseContainer s.inputBytes = some p ∧ p.n ≤ s.cfg.outCap.val ∧ unpackStage p.root p.payload p.pad p.n = .ok out := by
  refine ⟨load (block cap29 cap10) container1 [], parsed1, text, by decide, ?_, by decide, by decide +kernel⟩
  rw [inputBytes_container1.2]
  exact parse_container1

theorem test_witness_DecompressFailsAtUnpack :
    (∃ (s : State) (p : Parsed), s.inLen.toNat ≤ s.cfg.inCap.val ∧ parseContainer s.inputBytes = some p ∧
      s.cfg.outCap.val < p.n) ∧
    ∃ (s : State) (p : Parsed), s.inLen.toNat ≤ s.cfg.inCap.val ∧ parseContainer s.inputBytes = some p ∧
      p.n ≤ s.cfg.outCap.val ∧ unpackLoop p.root p.root (dataBits p.payload p.pad) p.n = none := by
  refine ⟨⟨load (block cap29 cap9) container1 [], parsed1, by decide, ?_, by decide⟩,
    load (block cap29 cap10) (container1.take 28) [], { parsed1 with payload := [0x0A#8, 0xBF#8] }, by decide, ?_,
    by decide, by decide +kernel⟩
  · rw [inputBytes_container1.1]
    exact parse_container1
  · decide +kernel

theorem test_witness_AnErrorLeavesNoResult :
    ∃ t, State.reset.errCode = .none ∧ exec (.illegal 5) State.reset = .next t ∧ t.errCode ≠ .none :=
  ⟨_, rfl, rfl, by decide⟩

theorem test_witness_InternalErrorIsNeverRaised : ∃ t, exec .compress State.reset = .next t := ⟨_, rfl⟩

/-- A successful COMPRESS of "A" (V-S7). -/
def compressedA : State := (load State.reset [0x41#8] []).finish (compressResult (load State.reset [0x41#8] []))

theorem compressedA_ok : compressedA.errCode = .none := by decide +kernel

theorem test_witness_OutputBeyondItsLengthIsKept :
    (Instr.compress = .compress ∨ Instr.compress = .decompress) ∧ (load State.reset [0x41#8] []).errCode = .none ∧
      exec .compress (load State.reset [0x41#8] []) = .next compressedA ∧ compressedA.errCode = .none :=
  ⟨.inl rfl, rfl, rfl, compressedA_ok⟩

theorem test_witness_ResultsDependOnInputsAlone :
    ∃ (s s' t t' : State), Instr.compress ≠ .nop ∧ s ≠ s' ∧ s.cfg = s'.cfg ∧ s.inLen = s'.inLen ∧
      s.inputBytes = s'.inputBytes ∧ s.errCode = .none ∧ s'.errCode = .none ∧ s.extLen = s'.extLen ∧
      s.extensionBytes = s'.extensionBytes ∧ exec .compress s = .next t ∧ exec .compress s' = .next t' :=
  ⟨load State.reset [0x41#8] [], { load State.reset [0x41#8] [] with symSel := 1 }, _, _, by decide, by decide, rfl, rfl, rfl,
    rfl, rfl, rfl, rfl, rfl, rfl⟩

theorem test_witness_FreqStageCountsBytes : text ≠ [] := by decide

theorem test_witness_ExtractionTakesTheSmallest :
    ((Machine.Tree.leaf 0 0x61#8 2 :: [.leaf 1 0x62#8 1, .leaf 2 0x63#8 1]).map Machine.Tree.idx).Nodup := by decide

theorem test_witness_BuiltArenaShape :
    (∃ tb, buildTables text = .ok tb) ∧ (4 ≤ 4 ∧ 4 < 2 * text.dedup.length - 1) ∧
      (4 ≤ 6 ∧ 6 < 2 * text.dedup.length - 1) ∧ text.length ≤ 2 ^ 28 :=
  ⟨⟨_, tablesOf_text⟩, by decide, by decide, by decide⟩

theorem test_witness_WeightsSumToTheLength : (∃ tb, buildTables text = .ok tb) ∧ text.length ≤ 2 ^ 28 :=
  ⟨⟨_, tablesOf_text⟩, by decide⟩

theorem test_witness_CodeLengthsAndAbsentBytes :
    ((∃ tb, buildTables text = .ok tb) ∧ 0x65#8 ∉ text ∧ 2 ≤ text.dedup.length ∧ 0x64#8 ∈ text) ∧
      ((∃ tb, buildTables [0x41#8] = .ok tb) ∧ [(0x41#8 : Byte)].dedup.length = 1) ∧
      ((∃ tb, buildTables [0x00#8, 0xFF#8] = .ok tb) ∧ 2 ≤ [(0x00#8 : Byte), 0xFF#8].dedup.length) :=
  ⟨⟨⟨_, tablesOf_text⟩, by decide, by decide, by decide⟩, ⟨buildTables_ok (by decide), by decide⟩,
    buildTables_ok (by decide), by decide⟩

theorem test_witness_CodesArePrefixFree :
    (∃ tb, buildTables text = .ok tb) ∧ 0x61#8 ∈ text ∧ 0x64#8 ∈ text ∧ (0x61#8 : Byte) ≠ 0x64#8 :=
  ⟨⟨_, tablesOf_text⟩, by decide, by decide, by decide⟩

theorem test_witness_PackedPayloadIsTheCodesPadded :
    (∃ tb, buildTables text = .ok tb ∧ (packStage text tb.code).payload[0]? = some 0x0A#8 ∧
      (packStage text tb.code).payload[2]? = some 0xC0#8) ∧ text.length ≤ 2 ^ 28 :=
  ⟨⟨_, tablesOf_text, by decide +kernel, by decide +kernel⟩, by decide⟩

theorem test_witness_UnpackInvertsPack :
    (∃ tb, buildTables text = .ok tb) ∧ ∃ tb, buildTables [0x41#8] = .ok tb :=
  ⟨⟨_, tablesOf_text⟩, buildTables_ok (by decide)⟩

theorem test_witness_UnpackDecodesTheCodes :
    (Machine.Tree.leaf 0 0x41#8 0).bytes.Nodup ∧ (Machine.Tree.node 0 0 (.leaf 1 0#8 0) (.leaf 2 0xFF#8 0)).bytes.Nodup ∧
      0xFF#8 ∈ (Machine.Tree.node 0 0 (.leaf 1 0#8 0) (.leaf 2 0xFF#8 0)).bytes ∧
      2 ≤ (Machine.Tree.node 0 0 (.leaf 1 0#8 0) (.leaf 2 0xFF#8 0)).leafCount ∧
      7 < 8 * [(0x80#8 : Byte)].length := by decide

theorem test_witness_ResidualAndPaddingBitsAreIgnored :
    unpackLoop parsed1.root parsed1.root (dataBits parsed1.payload 5) 10 = some text ∧
      unpackStage parsed1.root parsed1.payload 5 10 = .ok text ∧
      [0x0A#8, 0xBF#8, 0xC0#8].length = [0x0A#8, 0xBF#8, 0xDF#8].length ∧
      ∀ i, i < 8 * [0x0A#8, 0xBF#8, 0xC0#8].length - 5 →
        (streamBits [0x0A#8, 0xBF#8, 0xC0#8])[i]? = (streamBits [0x0A#8, 0xBF#8, 0xDF#8])[i]? := by decide +kernel

theorem test_witness_ContainerLengthFormula :
    ∃ tb r, buildTables text = .ok tb ∧ compressBytes 29 [] text = .ok r := by
  have hb := tablesOf_text
  rcases compressBytes_cases 29 [] text with ⟨h, -⟩ | ⟨tb, h, ⟨h', -⟩ | ⟨-, h'⟩⟩
  · exact absurd h (by decide)
  · rw [hb] at h
    cases h
    exact absurd h' (by decide +kernel)
  · exact ⟨tb, _, h, h'⟩

theorem test_witness_TruncatedPayloadIsDetected :
    (∃ tb, buildTables text = .ok tb) ∧
      ∃ r, ([] : List Byte).length ≤ 255 ∧ text.length < 2 ^ 64 ∧ text.length ≤ 10 ∧ compressBytes 29 [] text = .ok r := by
  obtain ⟨_, r, -, h⟩ := test_witness_ContainerLengthFormula
  exact ⟨⟨_, tablesOf_text⟩, r, by decide, by decide, by decide, h⟩

/-- A block whose `IN_BUF` holds what `compressedA` put out (R235's relay). -/
def relayedA : State := load (block cap29 cap9) (compressedA.readBytes outBase compressedA.res.outLen.toNat) []

theorem test_witness_DecompressInvertsCompress :
    exec .compress (load State.reset [0x41#8] []) = .next compressedA ∧ (load State.reset [0x41#8] []).errCode = .none ∧
      compressedA.errCode = .none ∧ relayedA.inLen = compressedA.res.outLen ∧
      relayedA.inLen.toNat ≤ relayedA.cfg.inCap.val ∧
      relayedA.inputBytes = compressedA.readBytes outBase compressedA.res.outLen.toNat ∧
      (load State.reset [0x41#8] []).inLen.toNat ≤ relayedA.cfg.outCap.val :=
  ⟨rfl, rfl, compressedA_ok, by decide +kernel, by decide +kernel, by decide +kernel, by decide +kernel⟩

theorem test_witness_StatisticsAreExact :
    (1 ≤ 1 ∧ 1 < 2 ^ 29 ∧ 0 < 2 ^ 29) ∧ (1 ≤ 2 ^ 29 - 1 ∧ 2 ^ 29 - 1 < 2 ^ 29) := by decide

/-! ### Bus -/

theorem test_witness_RefusedAccessesHaveNoEffect :
    (¬ readAllowed State.reset.cfg 0x300 .byte ∧ ¬ readAllowed State.reset.cfg 0x014 .byte ∧
      ¬ readAllowed State.reset.cfg 0x10001000 .byte ∧ ¬ readAllowed State.reset.cfg 0x0FFFFFFF .byte ∧
      ¬ readAllowed State.reset.cfg 0x101 .word) ∧
    (¬ writeAllowed State.reset.cfg 0x200 .byte ∧ ¬ writeAllowed State.reset.cfg 0x20000000 .word ∧
      ¬ writeAllowed State.reset.cfg 0x015 .word) ∧
    (readAllowed State.reset.cfg 0x000 .word ∧ readAllowed State.reset.cfg 0x0FC .word ∧
      readAllowed State.reset.cfg 0x2FF .byte ∧ readAllowed State.reset.cfg 0x20000FFC .word) ∧
    (writeAllowed State.reset.cfg 0x0FC .word ∧ writeAllowed State.reset.cfg 0x1FC .word ∧
      writeAllowed State.reset.cfg 0x10000FFF .byte) := by
  simp [readAllowed, writeAllowed, registerAccess, bufferAccess, inExtIn, inExtOut, inInBuf, inOutBuf, State.reset, State.resetWith, Config.standard]

theorem test_witness_ReadsHaveNoSideEffect :
    State.reset.busy = false ∧
    (trueBufferRead State.reset 0x1FF .byte ∧ trueBufferRead State.reset 0x200 .byte ∧
      trueBufferRead State.reset 0x10000FFF .byte ∧ trueBufferRead State.reset 0x20000FFF .byte) ∧
    (trueBufferRead State.reset 0x100 .word ∧ trueBufferRead State.reset 0x2FC .word ∧
      trueBufferRead State.reset 0x10000000 .word ∧ trueBufferRead State.reset 0x20000FFC .word) ∧
    (trueBufferRead busyState 0x1FC .word ∧ trueBufferRead busyState 0x10000000 .byte) ∧
    ¬ trueBufferRead busyState 0x20000000 .byte := by
  simp [trueBufferRead, bufferAccess, inExtIn, inExtOut, inInBuf, inOutBuf, State.reset, State.resetWith, Config.standard, busyState,
    State.accept]

theorem test_witness_WritesWhileBusy :
    busyState.busy = true ∧
    (lockedWrite busyState.cfg 0x018 .word ∧ lockedWrite busyState.cfg 0x01C .word ∧ lockedWrite busyState.cfg 0x020 .word ∧
      lockedWrite busyState.cfg 0x06C .word ∧ lockedWrite busyState.cfg 0x098 .word ∧
      lockedWrite busyState.cfg 0x100 .byte ∧ lockedWrite busyState.cfg 0x1FC .word ∧
      lockedWrite busyState.cfg 0x10000FFF .byte) ∧
    ((1#32).getLsbD 1 = false ∧ (2#32).getLsbD 1 = true) ∧
    (registerAccess 0x000 .word ∧ ¬ lockedWrite busyState.cfg 0x000 .word ∧ registerAccess 0x0FC .word ∧
      ¬ lockedWrite busyState.cfg 0x0FC .word) ∧
    ¬ writeAllowed busyState.cfg 0x20000000 .byte := by
  simp [lockedWrite, writeAllowed, registerAccess, bufferAccess, inExtIn, inInBuf, State.reset, State.resetWith, Config.standard, busyState]

theorem test_witness_ReadsWhileBusy :
    busyState.busy = true ∧
    (resultOffset 0x024 ∧ resultOffset 0x068 ∧ resultOffset 0x070 ∧ resultOffset 0x094 ∧ resultOffset 0x09C ∧
      resultOffset 0x0A8 ∧ ¬ resultOffset 0x06C ∧ ¬ resultOffset 0x098 ∧ ¬ resultOffset 0x020 ∧ ¬ resultOffset 0x0AC) ∧
    (bufferAccess inExtOut 0x200 .byte ∧ bufferAccess inExtOut 0x2FC .word ∧
      bufferAccess (inOutBuf busyState.cfg) 0x20000000 .word ∧ bufferAccess (inOutBuf busyState.cfg) 0x20000FFF .byte) ∧
    (bufferAccess inExtIn 0x100 .word ∧ bufferAccess inExtIn 0x1FF .byte ∧
      bufferAccess (inInBuf busyState.cfg) 0x10000000 .byte ∧ bufferAccess (inInBuf busyState.cfg) 0x10000FFC .word) ∧
    (reservedOffset 0x0AC ∧ reservedOffset 0x0FC) := by
  simp [resultOffset, reservedOffset, bufferAccess, inExtIn, inExtOut, inInBuf, inOutBuf, State.reset, State.resetWith, Config.standard, busyState]

theorem test_witness_BufferWritesAreLittleEndian :
    State.reset.busy = false ∧ bufferAccess inExtIn 0x100 .byte ∧ bufferAccess inExtIn 0x1FC .word ∧
      bufferAccess (inInBuf State.reset.cfg) 0x10000000 .word ∧ bufferAccess (inInBuf State.reset.cfg) 0x10000FFF .byte := by
  simp [bufferAccess, inExtIn, inInBuf, State.reset, State.resetWith, Config.standard]

/-! ### Registers -/

theorem test_witness_RegisterMapReads :
    State.reset.busy = false ∧ State.reset.res.arena.length ≤ 511 ∧
      reservedOffset (0x0AC#32).toNat ∧ reservedOffset (0x0FC#32).toNat := by
  refine ⟨rfl, by decide, ?_, ?_⟩ <;> simp [reservedOffset]

theorem test_witness_InputRegistersKeepTheirFields : State.reset.busy = false := rfl

/-- A state whose tables hold the codes of V-CG2 and of a code of the greatest length. -/
def selecting (b : Byte) : State :=
  { State.reset with
    symSel := b
    res := { Results.reset with code := [(0x62, [true, false]), (0x63, List.replicate 255 true)] } }

theorem test_witness_SymbolReadout :
    (selecting 0x62#8).busy = false ∧ (codeOf (selecting 0x62#8).res.code (selecting 0x62#8).symSel).length = 2 ∧
      (codeOf (selecting 0x63#8).res.code (selecting 0x63#8).symSel).length = 255 ∧
      (codeOf (selecting 0x64#8).res.code (selecting 0x64#8).symSel).length = 0 := by decide +kernel

/-- A state with an arena of three nodes, and one of them selected (V-B6). -/
def selectingNode (j : BitVec 9) : State :=
  { State.reset with
    nodeSel := j
    res := { Results.reset with arena := [.leaf 0x00#8 1, .leaf 0xFF#8 2, .internal 3 0 1] } }

theorem test_witness_NodeReadout :
    (selectingNode 0).busy = false ∧
      (selectingNode 0).res.arena[(selectingNode 0).nodeSel.toNat]? = some (.leaf 0x00#8 1) ∧
      (selectingNode 2).res.arena[(selectingNode 2).nodeSel.toNat]? = some (.internal 3 0 1) ∧
      (selectingNode 3).res.arena.length ≤ (selectingNode 3).nodeSel.toNat := by decide

theorem test_witness_ControlRegister : (1#32).getLsbD 1 = false ∧ (3#32).getLsbD 1 = true := by decide

theorem test_witness_CommandWriteIssues : busyState.busy = true ∧ State.reset.busy = false := ⟨rfl, rfl⟩

theorem test_witness_InterruptLevel :
    State.reset.irqEn = false ∧ ({ State.reset with done := true }.done = true ∧ (1#32).getLsbD 0 = true ∧
      (1#32).getLsbD 1 = false) ∧ ((0#32).getLsbD 0 = false ∧ (0#32).getLsbD 1 = false) ∧ (2#32).getLsbD 1 = true ∧
      State.reset.busy = false := by decide

theorem test_witness_PowerOnResetAtAnyTime :
    { busyState with turns := [.powerOn, .host] }.turns = .powerOn :: [.host] := rfl

theorem test_witness_SoftResetAndAbort :
    (2#32).getLsbD 1 = true ∧ (3#32).getLsbD 1 = true ∧ State.reset.busy = false ∧ busyState.busy = true := by decide

/-! ### Whole-machine rules -/

/-- A state whose next step is the transaction. -/
def next (s : State) (x : Txn) : State := { s with host := [.txn x], turns := [.host] }

/-- The idle state after reset takes none of the events. -/
theorem reset_has_no_event :
    (∀ w, ¬ State.reset.acceptsNext w) ∧ ¬ State.reset.completesNext ∧ ¬ State.reset.resetsNext ∧
      ¬ State.reset.ignoresNext ∧ ∀ v, State.reset.nextTxn ≠ some (.write 0x014#32 .word v) := by
  have hn : State.reset.nextTxn = none := rfl
  have hm : State.reset.mover = .host := rfl
  refine ⟨fun w h => ?_, fun h => ?_, fun h => ?_, fun h => ?_, fun v h => ?_⟩
  · rw [State.acceptsNext, hn] at h
    cases h.1
  · rw [State.completesNext, hm] at h
    cases h.1
  · rcases h with h | ⟨v, h, -⟩
    · rw [hm] at h
      cases h
    · rw [hn] at h
      cases h
  · cases h.1
  · rw [hn] at h
    cases h

theorem test_witness_OnlyTheseEventsChangeBusyAndDone :
    (∃ t, step (next State.reset (.write 0x018#32 .word 1#32)) = .next t) ∧
      (next State.reset (.write 0x018#32 .word 1#32)).acceptsNext 1#32 ∧ busyState.completesNext ∧
      (next State.reset (.write 0x010#32 .word 3#32)).resetsNext ∧ { State.reset with turns := [.powerOn] }.resetsNext ∧
      (next busyState (.write 0x014#32 .word 2#32)).nextTxn = some (.write 0x014#32 .word 2#32) ∧
      (∀ w, ¬ State.reset.acceptsNext w) ∧ ¬ State.reset.completesNext ∧ ¬ State.reset.resetsNext ∧
      ∀ v, State.reset.nextTxn ≠ some (.write 0x014#32 .word v) :=
  ⟨step_next _, ⟨rfl, rfl⟩, ⟨rfl, rfl⟩, .inr ⟨3#32, rfl, by decide⟩, .inl rfl, rfl, reset_has_no_event.1,
    reset_has_no_event.2.1, reset_has_no_event.2.2.1, reset_has_no_event.2.2.2.2⟩

theorem test_witness_OnlyTheseEventsChangeWign :
    (∃ t, step (next busyState (.write 0x018#32 .word 1#32)) = .next t) ∧
      (next busyState (.write 0x018#32 .word 1#32)).ignoresNext ∧
      (next busyState (.write 0x10000FFC#32 .word 1#32)).ignoresNext ∧
      (next busyState (.write 0x014#32 .word 8#32)).nextTxn = some (.write 0x014#32 .word 8#32) ∧
      (next busyState (.write 0x010#32 .word 2#32)).resetsNext ∧ ¬ State.reset.ignoresNext ∧
      (∀ v, State.reset.nextTxn ≠ some (.write 0x014#32 .word v)) ∧ ¬ State.reset.resetsNext :=
  ⟨step_next _, ⟨rfl, _, _, _, rfl, .inl ⟨rfl, by decide⟩⟩,
    ⟨rfl, _, _, _, rfl, .inr (.inr ⟨by decide, ⟨by decide, by decide⟩, by decide, by decide⟩)⟩, rfl,
    .inr ⟨2#32, rfl, by decide⟩, reset_has_no_event.2.2.2.1, reset_has_no_event.2.2.2.2, reset_has_no_event.2.2.1⟩

theorem test_witness_OnlyTheseEventsChangeErrorFields :
    (∃ t, step busyState = .next t) ∧ busyState.completesNext ∧
      (next State.reset (.write 0x018#32 .word 0xFFFFFFFF#32)).acceptsNext 0xFFFFFFFF#32 ∧
      (next busyState (.write 0x010#32 .word 2#32)).resetsNext ∧ (∀ w, ¬ State.reset.acceptsNext w) ∧
      ¬ State.reset.completesNext ∧ ¬ State.reset.resetsNext :=
  ⟨step_next _, ⟨rfl, rfl⟩, ⟨rfl, rfl⟩, .inr ⟨2#32, rfl, by decide⟩, reset_has_no_event.1, reset_has_no_event.2.1,
    reset_has_no_event.2.2.1⟩

theorem test_witness_ResultStateIsStable :
    ∃ s t : State, step s = .next t ∧ ¬ s.completesNext ∧ ¬ s.resetsNext ∧
      s.nextTxn = some (.write 0x10000000#32 .byte 1#32) := by
  obtain ⟨t, h⟩ := step_next (next compressedA (.write 0x10000000#32 .byte 1#32))
  refine ⟨_, t, h, fun hc => ?_, fun hr => ?_, rfl⟩
  · cases hc.1
  · rcases hr with hr | ⟨v, hv, -⟩
    · cases hr
    · injection hv with hv
      injection hv with h1
      exact absurd h1 (by decide)

/-! ### Invariants -/

theorem test_witness_EveryStepKeepsTheInvariant : Inv State.reset ∧ ∃ t, step State.reset = .next t :=
  ⟨⟨rfl, (fun _ he => by cases he), (fun h => by cases h), (fun h => by cases h), (fun h => by cases h),
    ⟨fun _ => rfl, fun _ => rfl⟩, (fun h => by cases h), fun _ => rfl, Nat.zero_le _, by decide⟩, step_next _⟩

theorem test_witness_EveryStepKeepsTheTables : TablesOk State.reset.res ∧ ∃ t, step State.reset = .next t :=
  ⟨⟨rfl, (fun _ he => by cases he), rfl, (fun _ he => by cases he), rfl, by decide, .inl ⟨rfl, rfl⟩,
    (fun _ _ _ h => by cases h)⟩, step_next _⟩

end Sys2Proof.Tests
end

section
/-!
PROOFS. The state family: the constant registers, `STATUS`, `irq`, and which events change the flags (10_state.md). One lemma says
what a step is when an event is next, one what each event does to the flags, and the obligations read off their clauses.
-/

namespace Sys2Proof.Machine

/-! ## The control writes, case by case -/

theorem State.writeCtrl_of_resetBit (s : State) {v : Word} (h : v.getLsbD 1 = true) : s.writeCtrl v = s.softReset := by
  simp [State.writeCtrl, h]

theorem State.writeCtrl_of_not_resetBit (s : State) {v : Word} (h : v.getLsbD 1 = false) :
    s.writeCtrl v = { s with irqEn := v.getLsbD 0 } := by
  rw [State.writeCtrl, h, if_neg Bool.false_ne_true]

theorem State.issue_of_busy {s : State} (w : Word) (h : s.busy = true) : s.issue w = { s with wign := true } := by
  simp [State.issue, h]

theorem State.issue_of_idle {s : State} (w : Word) (h : s.busy = false) : s.issue w = s.accept w := by
  simp [State.issue, h]

theorem State.err_eq_true_iff (s : State) : s.err = true ↔ s.errCode ≠ .none := decide_eq_true_iff

theorem State.err_eq_false_iff (s : State) : s.err = false ↔ s.errCode = .none := by simp [State.err]

theorem State.irq_of_not_done {s : State} (h : s.done = false) : s.irq = false := by simp [State.irq, h]

/-! ## The constant registers (R22, R24) -/

/-- A buffer capacity is read whole: it has fewer than 32 bits (R7). -/
theorem toNat_capacity (c : Cap) : (BitVec.ofNat 32 c.val).toNat = c.val := by
  have hle := c.property.2
  rw [BitVec.toNat_ofNat, Nat.mod_eq_of_lt (by omega)]

/-- Settles O42: the rows of the four registers are no result registers and take no writes. -/
theorem constantRegisters : Obligations.ConstantRegisters := by
  intro s v
  refine ⟨s.transact_read_reg _ (by decide) (by decide) (.inr (by decide)),
    ⟨_, s.transact_read_reg _ (by decide) (by decide) (.inr (by decide)), toNat_capacity s.cfg.inCap⟩,
    ⟨_, s.transact_read_reg _ (by decide) (by decide) (.inr (by decide)), toNat_capacity s.cfg.outCap⟩, ?_⟩
  simp only [List.forall_mem_cons, List.not_mem_nil, false_imp_iff, implies_true, and_true]
  exact ⟨s.transact_write_reg _ v (by decide) (by decide), s.transact_write_reg _ v (by decide) (by decide),
    s.transact_write_reg _ v (by decide) (by decide), s.transact_write_reg _ v (by decide) (by decide)⟩

/-! ## `STATUS` and `irq` (R27, R57) -/

/-- The parameters are no part of `STATUS`, so one block's word stands for every block's. -/
theorem statusWord_resetWith (c : Config) : (State.resetWith c).statusWord = 0 := by
  change State.statusWord State.reset = 0
  decide

/-- Settles O46, field by field. -/
theorem statusFieldsAndClearing : Obligations.StatusFieldsAndClearing := fun s v =>
  ⟨s.transact_pollStatus, s.statusWord_busy, s.statusWord_done, s.statusWord_err, s.statusWord_wign,
    s.statusWord_reserved, s.statusWord_code, s.statusWord_stage, s.statusWord_lastOp, s.statusWord_top,
    s.transact_write_status v, by decide, by decide, statusWord_resetWith⟩

/-- Settles O49: each write's effect on DONE and IRQ_EN is that of its control write. -/
theorem interruptLevel : Obligations.InterruptLevel := by
  intro s w v
  refine ⟨rfl, fun h => by simp [State.irq, h], fun hd h0 h1 => ?_, fun h0 h1 => ?_, fun h1 => ?_, fun hb => ?_, ?_,
    State.irq_of_not_done s.powerOnReset_done⟩
  · rw [State.perform_ctrl, s.writeCtrl_of_not_resetBit h1]
    simp [State.irq, hd, h0]
  · rw [State.perform_ctrl, s.writeCtrl_of_not_resetBit h1]
    exact ⟨by rw [State.irq, h0, Bool.and_false], rfl⟩
  · rw [State.perform_status]
    exact State.irq_of_not_done (by simp [h1])
  · rw [State.perform_cmd, State.issue_of_idle w hb]
    exact State.irq_of_not_done rfl
  · obtain ⟨-, hdone, -⟩ := s.softReset_fields
    exact State.irq_of_not_done hdone

/-! ## The step an event makes -/

theorem step_of_completesNext {s t : State} (h : step s = .next t) (hc : s.completesNext) :
    exec (decode s.cmdword) s.takeTurn = .next t := by
  rcases step_split h with ⟨-, -, -, -, hx⟩ | ⟨-, hn, -⟩ | ⟨hn, -⟩ | ⟨hn, -⟩
  · exact hx
  all_goals exact absurd hc hn

/-- The state a turn of the host performs its transaction from, `rest` being what the host then has left to do. -/
def State.beforeTxn (s : State) (rest : List HostOp) : State := { s.takeTurn with host := rest }

theorem step_of_nextTxn {s t : State} {x : Txn} (h : step s = .next t) (hx : s.nextTxn = some x) :
    ∃ rest, t = (s.beforeTxn rest).perform x := by
  rcases step_split h with ⟨-, -, -, hn, -⟩ | ⟨-, -, -, hn, -⟩ | ⟨-, -, y, rest, hy, ht⟩ | ⟨-, -, -, hn, -⟩
  case inr.inr.inl =>
    obtain rfl : y = x := Option.some.inj (hy.symm.trans hx)
    exact ⟨rest, ht⟩
  all_goals rw [hn] at hx; cases hx

theorem step_of_powerOn {s t : State} (h : step s = .next t) (hm : s.mover = .powerOn) : t = s.takeTurn.powerOnReset := by
  rcases step_cases h with ⟨hn, -⟩ | ⟨-, ht⟩ | ⟨hn, -⟩ | ⟨hn, -⟩
  · rw [hm] at hn; cases hn
  · exact ht
  · rw [hm] at hn; cases hn
  · exact absurd hm hn

/-! ## What each event does to the flags -/

/-- The fields of `STATUS` that only an issue, a completion and a reset write. -/
structure KeepsCommandFields (s t : State) : Prop where
  busy : t.busy = s.busy
  errCode : t.errCode = s.errCode
  errStage : t.errStage = s.errStage
  lastOp : t.lastOp = s.lastOp

/-- An accepted command (R221). -/
theorem step_accepts {s t : State} {w : Word} (h : step s = .next t) (ha : s.acceptsNext w) :
    t.busy = true ∧ t.done = false ∧ t.wign = s.wign ∧ t.errCode = .none ∧ t.errStage = .none ∧
      t.lastOp = w.extractLsb' 0 8 := by
  obtain ⟨hx, hb⟩ := ha
  obtain ⟨rest, rfl⟩ := step_of_nextTxn h hx
  rw [State.perform_cmd, State.issue_of_idle (s := s.beforeTxn rest) w hb]
  exact ⟨rfl, rfl, rfl, rfl, rfl, rfl⟩

/-- A completion (R222): with the error fields kept, or with an error recorded and the results at reset (R263). -/
theorem step_completes {s t : State} (h : step s = .next t) (hc : s.completesNext) :
    t.busy = false ∧ t.done = true ∧ t.wign = s.wign ∧ t.lastOp = s.lastOp ∧
      ((t.errCode = s.errCode ∧ t.errStage = s.errStage) ∨
        (t.errCode ≠ .none ∧ t.errStage ≠ .none ∧ t.res = Results.reset)) := by
  rcases exec_inversion (step_of_completesNext h hc) with ⟨-, rfl⟩ | ⟨r, -, -, rfl⟩ | ⟨e, hi, he, rfl⟩
  · exact ⟨rfl, rfl, rfl, rfl, .inl ⟨rfl, rfl⟩⟩
  · exact ⟨rfl, rfl, rfl, rfl, .inl ⟨rfl, rfl⟩⟩
  · have hmem := resultOf_error hi he
    have hcode : e.code ≠ .none := fun h0 => by simp [h0] at hmem
    have hstage : e.stage ≠ .none := fun h0 => by simp [h0] at hmem
    exact ⟨rfl, rfl, rfl, rfl, .inr ⟨hcode, hstage, rfl⟩⟩

/-- A reset of either kind (R290, R291). -/
theorem step_resets {s t : State} (h : step s = .next t) (hr : s.resetsNext) :
    t.busy = false ∧ t.done = false ∧ t.wign = false ∧ t.errCode = .none ∧ t.errStage = .none ∧ t.lastOp = 0 := by
  rcases hr with hm | ⟨v, hx, h1⟩
  · rw [step_of_powerOn h hm]
    exact ⟨rfl, rfl, rfl, rfl, rfl, rfl⟩
  · obtain ⟨rest, rfl⟩ := step_of_nextTxn h hx
    rw [State.perform_ctrl, State.writeCtrl_of_resetBit _ h1]
    obtain ⟨hbusy, hdone, hwign, hcode, hstage, hop, -⟩ := (s.beforeTxn rest).softReset_fields
    exact ⟨hbusy, hdone, hwign, hcode, hstage, hop⟩

/-- A write to `STATUS` (R27). -/
theorem step_clearsStatus {s t : State} {v : Word} (h : step s = .next t)
    (hx : s.nextTxn = some (.write 0x014#32 .word v)) :
    t.done = (s.done && !v.getLsbD 1) ∧ t.wign = (s.wign && !v.getLsbD 3) ∧ KeepsCommandFields s t := by
  obtain ⟨rest, rfl⟩ := step_of_nextTxn h hx
  rw [State.perform_status]
  exact ⟨rfl, rfl, rfl, rfl, rfl, rfl⟩

/-- Of the control writes only `CMD` is one of those R301 lists. -/
theorem Txn.eq_cmd_of_isLocked {c : Config} {x : Txn} (hx : x.isControl) (hl : x.isLocked c) :
    ∃ w, x = .write 0x018#32 .word w := by
  obtain ⟨off, size, data, rfl, hl⟩ := hl
  rcases hx with ⟨v, hv⟩ | ⟨v, hv⟩ | hv
  · cases hv
    simp [lockedWrite, bufferAccess, inExtIn, inInBuf] at hl
  · cases hv
    simp [lockedWrite, bufferAccess, inExtIn, inInBuf] at hl
  · exact hv

/-- A write of R301's list while busy sets `WIGN` and does nothing else. -/
theorem State.perform_of_isLocked {s : State} {x : Txn} (hb : s.busy = true) (hl : x.isLocked s.cfg) :
    s.perform x = { s with wign := true, replies := .write .okay :: s.replies } := by
  by_cases hx : x.isControl
  · obtain ⟨w, rfl⟩ := Txn.eq_cmd_of_isLocked hx hl
    rw [State.perform_cmd, State.issue_of_busy w hb]
  · rcases s.perform_cases x hx with ⟨-, -, hp⟩ | ⟨hidle, -⟩ | ⟨hn, -⟩
    · exact hp
    · rw [hb] at hidle; cases hidle
    · exact absurd hl (hn hb)

/-- An ignored write (R31, R301). -/
theorem step_ignores {s t : State} (h : step s = .next t) (hi : s.ignoresNext) :
    t.wign = true ∧ t.done = s.done ∧ KeepsCommandFields s t := by
  obtain ⟨hb, off, size, data, hx, hl⟩ := hi
  obtain ⟨rest, rfl⟩ := step_of_nextTxn h hx
  rw [State.perform_of_isLocked (s := s.beforeTxn rest) hb ⟨off, size, data, rfl, hl⟩]
  exact ⟨rfl, rfl, rfl, rfl, rfl, rfl⟩

/-- A step that is none of these events changes no flag. -/
theorem step_without_event {s t : State} (h : step s = .next t) (ha : ∀ w, ¬ s.acceptsNext w) (hc : ¬ s.completesNext)
    (hr : ¬ s.resetsNext) (hi : ¬ s.ignoresNext) (hs : ∀ v, s.nextTxn ≠ some (.write 0x014#32 .word v)) :
    t.done = s.done ∧ t.wign = s.wign ∧ KeepsCommandFields s t := by
  rcases step_split h with ⟨hn, -⟩ | ⟨hn, -⟩ | ⟨-, -, x, -, hx, -⟩ | ⟨-, -, -, -, rfl⟩
  · exact absurd hn hc
  · exact absurd hn hr
  · obtain ⟨rest, rfl⟩ := step_of_nextTxn h hx
    by_cases hctl : x.isControl
    · rcases hctl with ⟨v, rfl⟩ | ⟨v, rfl⟩ | ⟨v, rfl⟩
      · have h1 : v.getLsbD 1 = false := Bool.eq_false_iff.mpr fun h1 => hr (.inr ⟨v, hx, h1⟩)
        rw [State.perform_ctrl, State.writeCtrl_of_not_resetBit _ h1]
        exact ⟨rfl, rfl, rfl, rfl, rfl, rfl⟩
      · exact absurd hx (hs v)
      · rcases Bool.eq_false_or_eq_true s.busy with hb | hb
        · exact absurd ⟨hb, _, _, _, hx, .inl ⟨rfl, by decide⟩⟩ hi
        · exact absurd ⟨hx, hb⟩ (ha v)
    · rcases (s.beforeTxn rest).perform_cases x hctl with
        ⟨hb, ⟨off, size, data, rfl, hl⟩, -⟩ | ⟨-, _, _, _, _, _, -, hp⟩ | ⟨-, _, _, -, hp⟩
      · exact absurd ⟨hb, off, size, data, hx, hl⟩ hi
      · rw [hp]
        exact ⟨rfl, rfl, rfl, rfl, rfl, rfl⟩
      · rw [hp]
        exact ⟨rfl, rfl, rfl, rfl, rfl, rfl⟩
  · exact ⟨rfl, rfl, rfl, rfl, rfl, rfl⟩

/-- A step that issues, completes and resets nothing keeps BUSY, the error fields and LAST_OP; only an acknowledgement among
such steps changes DONE. -/
theorem step_between_commands {s t : State} (h : step s = .next t) (ha : ∀ w, ¬ s.acceptsNext w) (hc : ¬ s.completesNext)
    (hr : ¬ s.resetsNext) :
    KeepsCommandFields s t ∧ ((∀ v, s.nextTxn ≠ some (.write 0x014#32 .word v)) → t.done = s.done) := by
  by_cases hs : ∃ v, s.nextTxn = some (.write 0x014#32 .word v)
  · obtain ⟨v, hx⟩ := hs
    obtain ⟨-, -, hkeep⟩ := step_clearsStatus h hx
    exact ⟨hkeep, fun hn => absurd hx (hn v)⟩
  · by_cases hi : s.ignoresNext
    · obtain ⟨-, hdone, hkeep⟩ := step_ignores h hi
      exact ⟨hkeep, fun _ => hdone⟩
    · obtain ⟨hdone, -, hkeep⟩ := step_without_event h ha hc hr hi (not_exists.mp hs)
      exact ⟨hkeep, fun _ => hdone⟩

/-! ## The events that change the flags (R28 to R32) -/

/-- Settles O53, event by event. -/
theorem onlyTheseEventsChangeBusyAndDone : Obligations.OnlyTheseEventsChangeBusyAndDone := by
  intro s t h
  refine ⟨fun w ha => ?_, fun hc => ?_, fun hr => ?_, fun v hx => ?_, fun ha hc hr => ?_⟩
  · obtain ⟨hbusy, hdone, -⟩ := step_accepts h ha
    exact ⟨hbusy, hdone⟩
  · obtain ⟨hbusy, hdone, -⟩ := step_completes h hc
    exact ⟨hbusy, hdone⟩
  · obtain ⟨hbusy, hdone, -⟩ := step_resets h hr
    exact ⟨hbusy, hdone⟩
  · obtain ⟨hdone, -⟩ := step_clearsStatus h hx
    exact hdone
  · obtain ⟨hkeep, hdone⟩ := step_between_commands h ha hc hr
    exact ⟨hkeep.busy, hdone⟩

/-- Settles O54, event by event: a command's issue and its completion both keep WIGN. -/
theorem onlyTheseEventsChangeWign : Obligations.OnlyTheseEventsChangeWign := by
  intro s t h
  refine ⟨fun hi => ?_, fun v hx => ?_, fun hr => ?_, fun hi hs hr => ?_⟩
  · obtain ⟨hwign, -⟩ := step_ignores h hi
    exact hwign
  · obtain ⟨-, hwign, -⟩ := step_clearsStatus h hx
    exact hwign
  · obtain ⟨-, -, hwign, -⟩ := step_resets h hr
    exact hwign
  · by_cases hc : s.completesNext
    · obtain ⟨-, -, hwign, -⟩ := step_completes h hc
      exact hwign
    · by_cases ha : ∃ w, s.acceptsNext w
      · obtain ⟨w, ha⟩ := ha
        obtain ⟨-, -, hwign, -⟩ := step_accepts h ha
        exact hwign
      · obtain ⟨-, hwign, -⟩ := step_without_event h (not_exists.mp ha) hc hr hi hs
        exact hwign

/-- Settles O55, event by event. -/
theorem onlyTheseEventsChangeErrorFields : Obligations.OnlyTheseEventsChangeErrorFields := by
  intro s t h
  refine ⟨fun w ha => ?_, fun hc => ?_, fun hr => ?_, fun ha hc hr => ?_⟩
  · obtain ⟨-, -, -, hcode, hstage, hop⟩ := step_accepts h ha
    exact ⟨hcode, hstage, t.err_eq_false_iff.mpr hcode, hop⟩
  · obtain ⟨-, -, -, hop, hkept | ⟨hcode, hstage, hres⟩⟩ := step_completes h hc
    · exact ⟨hop, .inl hkept⟩
    · exact ⟨hop, .inr ⟨hcode, hstage, t.err_eq_true_iff.mpr hcode, hres⟩⟩
  · obtain ⟨-, -, -, hcode, hstage, hop⟩ := step_resets h hr
    exact ⟨hcode, hstage, t.err_eq_false_iff.mpr hcode, hop⟩
  · obtain ⟨⟨-, hcode, hstage, hop⟩, -⟩ := step_between_commands h ha hc hr
    exact ⟨hcode, hstage, hop⟩

end Sys2Proof.Machine
end

section
/-!
PROOFS. The memory family: the answers of the address map (20_memory.md). A refused access is answered `SLVERR` and does nothing
else; every other access is answered `OKAY`.
-/

namespace Sys2Proof.Machine

/-! ## Refused accesses (R74) -/

theorem State.transact_read_of_refused {s : State} {off : Word} {size : Size} (h : ¬ readAllowed s.cfg off.toNat size) :
    s.transact (.read off size) = (.read 0 .slverr, s) := by
  rcases s.busRead_cases off.toNat size with ⟨-, hr⟩ | ⟨ha, -⟩ | ⟨hreg, -⟩ | ⟨ha, -⟩
  · exact hr
  · exact absurd ha h
  · exact absurd (.inl hreg) h
  · exact absurd ha h

theorem State.transact_write_of_refused {s : State} {off : Word} {size : Size} (data : Word)
    (h : ¬ writeAllowed s.cfg off.toNat size) : s.transact (.write off size data) = (.write .slverr, s) := by
  rcases s.busWrite_cases off.toNat size data with ⟨-, hw⟩ | ⟨hreg, -⟩ | ⟨hbuf, -⟩
  · exact hw
  · exact absurd (.inl hreg) h
  · exact absurd (.inr hbuf) h

/-- A refused read leaves only its answer with the host. -/
theorem State.perform_read_of_refused {s : State} {off : Word} {size : Size} (h : ¬ readAllowed s.cfg off.toNat size) :
    s.perform (.read off size) = { s with replies := .read 0 .slverr :: s.replies } := by
  rw [State.perform, State.transact_read_of_refused h]

/-- A refused write leaves only its answer with the host: not even `WIGN` is set (R301). -/
theorem State.perform_write_of_refused {s : State} {off : Word} {size : Size} (data : Word)
    (h : ¬ writeAllowed s.cfg off.toNat size) :
    s.perform (.write off size data) = { s with replies := .write .slverr :: s.replies } := by
  rw [State.perform, State.transact_write_of_refused data h]

/-! ## Allowed accesses (R72, R73) -/

theorem State.transact_read_of_allowed {s : State} {off : Word} {size : Size} (h : readAllowed s.cfg off.toNat size) :
    ∃ d, (s.transact (.read off size)).1 = .read d .okay := by
  rw [State.transact]
  rcases s.busRead_cases off.toNat size with ⟨hn, -⟩ | ⟨-, -, hr⟩ | ⟨-, hr⟩ | ⟨-, -, hr⟩
  · exact absurd h hn
  all_goals exact ⟨_, congrArg Prod.fst hr⟩

theorem State.transact_write_of_allowed {s : State} {off : Word} {size : Size} (data : Word)
    (h : writeAllowed s.cfg off.toNat size) : (s.transact (.write off size data)).1 = .write .okay := by
  rw [State.transact]
  rcases s.busWrite_cases off.toNat size data with ⟨hn, -⟩ | ⟨-, hw⟩ | ⟨-, hw⟩
  · exact absurd h hn
  · rw [hw]
  · rw [hw]

/-- Settles O36: refused reads and writes, then allowed reads and writes. -/
theorem refusedAccessesHaveNoEffect : Obligations.RefusedAccessesHaveNoEffect := fun _ _ _ data =>
  ⟨State.perform_read_of_refused, State.perform_write_of_refused data, State.transact_read_of_allowed,
    State.transact_write_of_allowed data⟩

end Sys2Proof.Machine
end

section
/-!
PROOFS. The encoding family: every word but the five fails as illegal (30_encoding.md R102, R103), and the length of the container
COMPRESS writes (R120).
-/

namespace Sys2Proof.Machine

/-! ## Illegal words (R102, R103) -/

/-- The words below 5 are the five of R101. -/
theorem five_le_toNat {w : Word} (h0 : w ≠ 0) (h1 : w ≠ 1) (h2 : w ≠ 2) (h3 : w ≠ 3) (h4 : w ≠ 4) : 5 ≤ w.toNat := by
  by_contra hlt
  rcases decode_of_lt_five (not_le.mp hlt) with ⟨e, -⟩ | ⟨e, -⟩ | ⟨e, -⟩ | ⟨e, -⟩ | ⟨e, -⟩
  · exact h0 e
  · exact h1 e
  · exact h2 e
  · exact h3 e
  · exact h4 e

/-- An illegal word fails in every state (R228, R263). -/
theorem exec_illegal_failsWith (w : Word) (s : State) :
    ∃ t, exec (.illegal w) s = .next t ∧ FailsWith s t .illegalCommand .command ∧ t.lastOp = s.lastOp :=
  ⟨_, exec_illegal w s, s.failsWith_fail _, s.fail_lastOp _⟩

/-- Settles O3: words with a reserved bit set, words other than the five, then the failure of each, from any state and after its
issue. -/
theorem everyOtherWordFailsAsIllegal : Obligations.EveryOtherWordFailsAsIllegal := by
  refine ⟨fun w => decode_of_rsvField_ne_zero, fun w h0 h1 h2 h3 h4 => decode_of_five_le (five_le_toNat h0 h1 h2 h3 h4),
    fun w s => ⟨?_, fun hidle => ?_⟩⟩
  · obtain ⟨t, hx, hf, -⟩ := exec_illegal_failsWith w s
    exact ⟨t, hx, hf⟩
  · rw [State.issue_of_idle w hidle]
    exact ⟨s.accept_busy w, s.accept_cmdword w, exec_illegal_failsWith w (s.accept w)⟩

/-! ## The length of a container (R120) -/

/-- T read off the input: its distinct bytes, each counted as often as it occurs (R160). -/
theorem bitCount_frequencies (C : SMap (List Bool)) (B : List Byte) :
    bitCount (frequencies B) C = ∑ b ∈ B.toFinset, B.count b * (codeOf C b).length := by
  have hset : (tableBytes (frequencies B)).toFinset = B.toFinset := by
    ext b
    rw [List.mem_toFinset, List.mem_toFinset, mem_tableBytes]
  rw [← hset, List.sum_toFinset _ (tableBytes_nodup B), bitCount, tableBytes, List.map_map]
  congr 1
  refine List.map_congr_left fun e he => ?_
  obtain ⟨b, -, rfl⟩ := mem_frequencies_iff.mp he
  simp

/-- The codes of the input bytes, one after the other, are as long as the tables alone say (R155, R160). -/
theorem length_codeBits (C : SMap (List Bool)) (B : List Byte) :
    (codeBits C B).length = bitCount (frequencies B) C := by
  rw [bitCount_frequencies, codeBits, List.length_flatMap, Finset.sum_list_map_count]
  simp only [smul_eq_mul]

/-- What COMPRESS writes is the container of its input's tables and payload (R224). -/
theorem compressBytes_out {outCap : Nat} {X B : List Byte} {tb : Tables} {r : Success} (h : buildTables B = .ok tb)
    (hr : compressBytes outCap X B = .ok r) :
    r.out = container X B.length (packStage B tb.code).pad tb.built.root (packStage B tb.code).payload := by
  rcases compressBytes_cases outCap X B with ⟨-, hc⟩ | ⟨tb', h', ⟨-, hc⟩ | ⟨-, hc⟩⟩
  · rw [hc] at hr; cases hr
  · rw [hc] at hr; cases hr
  · obtain rfl : tb' = tb := Except.ok.inj (h'.symm.trans h)
    rw [hc] at hr
    cases hr
    rfl

/-- Settles O31: the built tree has a leaf for each distinct byte, and the payload T bits rounded up to whole bytes. -/
theorem containerLengthFormula : Obligations.ContainerLengthFormula := by
  intro outCap X B tb r h hr
  obtain ⟨-, hfreq, -⟩ := buildTables_eq_ok h
  obtain ⟨-, -, hk, -⟩ := built_spec h
  obtain ⟨-, hlen, hbits, -⟩ := packStage_spec B tb.code
  rw [compressBytes_out h hr, length_container, payloadOffset, hk, hlen, hbits, hfreq, length_codeBits]

end Sys2Proof.Machine
end

section
/-!
PROOFS. The encoder family (40_encoder.md): FREQ counts, the codes of an input are the paths of its tree, PACK's bits are the codes of
its bytes, and the two ways an encoding command fails.
-/

namespace Sys2Proof.Machine

/-! ## Sums over the 256 byte values (R140, R160) -/

/-- Every byte value, in ascending order. -/
def byteValues : List Byte := (List.range 256).map fun b => BitVec.ofNat 8 b

theorem mem_byteValues (b : Byte) : b ∈ byteValues :=
  List.mem_map.mpr ⟨b.toNat, List.mem_range.mpr b.isLt, by simp⟩

theorem byteValues_nodup : byteValues.Nodup := by
  refine List.Nodup.map_on (fun a ha b hb hab => ?_) List.nodup_range
  have hab := congrArg BitVec.toNat hab
  rw [List.mem_range] at ha hb
  rwa [BitVec.toNat_ofNat, BitVec.toNat_ofNat, Nat.mod_eq_of_lt ha, Nat.mod_eq_of_lt hb] at hab

/-- A sum over the byte values, each weighted with its occurrences, is a sum over the input: the values that do not occur add 0. -/
theorem sum_byteValues_count (B : List Byte) (f : Byte → Nat) :
    ((List.range 256).map fun b => B.count (BitVec.ofNat 8 b) * f (BitVec.ofNat 8 b)).sum = (B.map f).sum := by
  have hall : B.toFinset ⊆ byteValues.toFinset := fun b _ => List.mem_toFinset.mpr (mem_byteValues b)
  calc ((List.range 256).map fun b => B.count (BitVec.ofNat 8 b) * f (BitVec.ofNat 8 b)).sum
      = (byteValues.map fun b => B.count b * f b).sum := by rw [byteValues, List.map_map]; rfl
    _ = ∑ b ∈ byteValues.toFinset, B.count b * f b := (List.sum_toFinset _ byteValues_nodup).symm
    _ = ∑ b ∈ B.toFinset, B.count b * f b := (Finset.sum_subset hall fun b _ hb => by
        rw [List.count_eq_zero.mpr fun h => hb (List.mem_toFinset.mpr h), Nat.zero_mul]).symm
    _ = (B.map f).sum := by simp only [Finset.sum_list_map_count, smul_eq_mul]

/-! ## FREQ (R140, R141) -/

theorem freqStage_of_ne_nil {B : List Byte} (h : B ≠ []) : freqStage B = .ok (frequencies B) := by
  cases B with
  | nil => exact absurd rfl h
  | cons b B => rfl

/-- Settles O21: the sum of the entries is that of 1 for each input byte. -/
theorem freqStageCountsBytes : Obligations.FreqStageCountsBytes := by
  refine ⟨rfl, fun B hB => ⟨frequencies B, freqStage_of_ne_nil hB, countOf_frequencies B, ?_⟩⟩
  have hsum := sum_byteValues_count B fun _ => 1
  simpa [countOf_frequencies] using hsum

/-! ## The codes of a tree (R150 to R152) -/

/-- A byte that is no leaf's has no code. -/
theorem codeOf_codegenStage_of_notMem {t : Tree} {b : Byte} (hn : t.bytes.Nodup) (hb : b ∉ t.bytes) :
    codeOf (codegenStage t) b = [] := by
  cases t with
  | leaf i x w => rw [codeOf_codegen_leaf, if_neg (by simpa [Tree.bytes] using hb)]
  | node i w l r => rw [codeOf_codegen_node i w l r b hn, if_neg hb]

/-- The byte of a tree with one leaf has the code 0. -/
theorem codeOf_codegenStage_lone {t : Tree} {b : Byte} (hk : t.leafCount = 1) (hb : b ∈ t.bytes) :
    codeOf (codegenStage t) b = [false] := by
  cases t with
  | leaf i x w => rw [codeOf_codegen_leaf, if_pos (by simpa [Tree.bytes] using hb)]
  | node i w l r =>
    have hl := l.one_le_leafCount
    have hr := r.one_le_leafCount
    simp only [Tree.leafCount] at hk
    omega

/-- A leaf's byte in a tree with more leaves has its path as its code. -/
theorem codeOf_codegenStage_path {t : Tree} {b : Byte} (hn : t.bytes.Nodup) (hk : 2 ≤ t.leafCount) (hb : b ∈ t.bytes) :
    codeOf (codegenStage t) b = t.path b := by
  cases t with
  | leaf i x w => simp [Tree.leafCount] at hk
  | node i w l r => rw [codeOf_codegen_node i w l r b hn, if_pos hb]

/-- A path in a tree with more than one leaf is not empty. -/
theorem Tree.one_le_length_path {t : Tree} (hk : 2 ≤ t.leafCount) (b : Byte) : 1 ≤ (t.path b).length := by
  cases t with
  | leaf i x w => simp [Tree.leafCount] at hk
  | node i w l r =>
    rw [Tree.path]
    split <;> simp

/-- A path is shorter than the leaves are many (R150). -/
theorem Tree.length_path_lt_leafCount (t : Tree) (b : Byte) : (t.path b).length < t.leafCount :=
  (t.length_path_lt_depth b).trans_le t.depth_le_leafCount

/-! ## The codes of an input (R150 to R153) -/

section
variable {B : List Byte} {tb : Tables} (h : buildTables B = .ok tb)
include h

theorem code_eq_codegenStage : tb.code = codegenStage tb.built.root := by
  obtain ⟨-, -, hcode, -⟩ := buildTables_eq_ok h
  exact hcode

/-- A byte that does not occur has no code (R152). -/
theorem code_of_absent {b : Byte} (hb : b ∉ B) : codeOf tb.code b = [] := by
  obtain ⟨hn, hmem, -⟩ := built_spec h
  rw [code_eq_codegenStage h]
  exact codeOf_codegenStage_of_notMem hn (mt (hmem b).mp hb)

/-- The only byte value of an input has the code 0 (R151). -/
theorem code_of_lone (hk : B.dedup.length = 1) {b : Byte} (hb : b ∈ B) : codeOf tb.code b = [false] := by
  obtain ⟨-, hmem, hleaves, -⟩ := built_spec h
  rw [code_eq_codegenStage h]
  exact codeOf_codegenStage_lone (hleaves.trans hk) ((hmem b).mpr hb)

/-- Where several byte values occur, each has the path to its leaf as its code (R150). -/
theorem code_of_several (hk : 2 ≤ B.dedup.length) {b : Byte} (hb : b ∈ B) : codeOf tb.code b = tb.built.root.path b := by
  obtain ⟨hn, hmem, hleaves, -⟩ := built_spec h
  rw [code_eq_codegenStage h]
  exact codeOf_codegenStage_path hn (hk.trans_eq hleaves.symm) ((hmem b).mpr hb)

/-- The code of one of k ≥ 2 byte values has 1 to k - 1 bits. -/
theorem length_code_of_several (hk : 2 ≤ B.dedup.length) {b : Byte} (hb : b ∈ B) :
    1 ≤ (codeOf tb.code b).length ∧ (codeOf tb.code b).length ≤ B.dedup.length - 1 := by
  obtain ⟨-, -, hleaves, -⟩ := built_spec h
  rw [code_of_several h hk hb, ← hleaves]
  exact ⟨Tree.one_le_length_path (hk.trans_eq hleaves.symm) b, Nat.le_sub_one_of_lt (Tree.length_path_lt_leafCount _ b)⟩

/-- Every byte of the input has a code of 1 to 255 bits. -/
theorem length_code {b : Byte} (hb : b ∈ B) : 1 ≤ (codeOf tb.code b).length ∧ (codeOf tb.code b).length ≤ 255 := by
  obtain ⟨-, -, -, hk, h256, -⟩ := built_spec h
  rcases hk.eq_or_lt with hk | hk
  · rw [code_of_lone h hk.symm hb]
    decide
  · obtain ⟨hmin, hmax⟩ := length_code_of_several h hk hb
    exact ⟨hmin, by omega⟩

end

/-- Settles O25: no byte value, one, or several. -/
theorem codeLengthsAndAbsentBytes : Obligations.CodeLengthsAndAbsentBytes := by
  refine fun B tb h => ⟨fun b => code_of_absent h, fun hk b => code_of_lone h hk, fun hk b hb =>
    ⟨?_, length_code_of_several h hk hb⟩⟩
  obtain ⟨-, hmem, -⟩ := built_spec h
  rw [code_of_several h hk hb]
  exact Tree.leadsTo_path ((hmem b).mpr hb)

/-- Two different bytes of an input make at least two byte values. -/
theorem two_le_length_dedup {B : List Byte} {b c : Byte} (hb : b ∈ B) (hc : c ∈ B) (hbc : b ≠ c) : 2 ≤ B.dedup.length := by
  have hsub : [b, c] ⊆ B.dedup := by simp [hb, hc]
  exact ((show [b, c].Nodup by simpa using hbc).subperm hsub).length_le

/-- Settles O26: the codes of different bytes are paths to different leaves of the tree. -/
theorem codesArePrefixFree : Obligations.CodesArePrefixFree := by
  intro B tb h b hb c hc hbc hprefix
  have hk := two_le_length_dedup hb hc hbc
  obtain ⟨hn, hmem, -⟩ := built_spec h
  rw [code_of_several h hk hb, code_of_several h hk hc] at hprefix
  exact hbc (Tree.path_prefixFree hn ((hmem b).mpr hb) ((hmem c).mpr hc) hprefix)

/-! ## PACK (R155 to R160) -/

/-- T as R160 sums it, over all byte values. -/
theorem sum_count_mul_code_length {B : List Byte} {tb : Tables} (h : buildTables B = .ok tb) :
    ((List.range 256).map fun b =>
      countOf tb.freq (BitVec.ofNat 8 b) * (codeOf tb.code (BitVec.ofNat 8 b)).length).sum = (codeBits tb.code B).length := by
  obtain ⟨-, hfreq, -⟩ := buildTables_eq_ok h
  simp only [hfreq, countOf_frequencies]
  rw [sum_byteValues_count B fun b => (codeOf tb.code b).length, codeBits, List.length_flatMap]

/-- T lies between n and 255 n, for every code has 1 to 255 bits. -/
theorem length_codeBits_bounds {B : List Byte} {tb : Tables} (h : buildTables B = .ok tb) :
    B.length ≤ (codeBits tb.code B).length ∧ (codeBits tb.code B).length ≤ B.length * 255 := by
  have hlen : ∀ m ∈ B.map fun b => (codeOf tb.code b).length, 1 ≤ m ∧ m ≤ 255 :=
    List.forall_mem_map.mpr fun b => length_code h
  have hmin := List.card_nsmul_le_sum _ 1 fun m hm => (hlen m hm).1
  have hmax := List.sum_le_card_nsmul _ 255 fun m hm => (hlen m hm).2
  rw [codeBits, List.length_flatMap]
  simp only [smul_eq_mul, List.length_map, mul_one] at hmin hmax
  exact ⟨hmin, hmax⟩

/-- Settles O27: T is the number of bits PACK packs, and the rest is what PACK makes of T bits. -/
theorem packedPayloadIsTheCodesPadded : Obligations.PackedPayloadIsTheCodesPadded := by
  intro B tb h
  simp only [sum_count_mul_code_length h]
  obtain ⟨hne, hfreq, -⟩ := buildTables_eq_ok h
  obtain ⟨hmin, hmax⟩ := length_codeBits_bounds h
  obtain ⟨hbits, hlen, hT, hpad⟩ := packStage_spec B tb.code
  have hpos := List.length_pos_iff.mpr hne
  refine ⟨hT, by rw [hfreq, length_codeBits], fun hB => by omega, hpad, hpad ▸ padCount_le _, hbits, fun j x hx => ?_, ?_,
    hT ▸ hlen, by omega, by omega⟩
  · have hbyte := toNat_of_streamBits hx
    rwa [hbits] at hbyte
  · rw [hlen, hT, hpad, payloadLength_eq]

/-! ## How an encoding command fails (R141, R197) -/

theorem State.inputBytes_eq_nil {s : State} (h : s.inLen = 0) : s.inputBytes = [] := by
  rw [← List.length_eq_zero_iff, State.length_inputBytes, h]
  rfl

/-- A command with an input that fits `IN_BUF` passes the check of R235. -/
theorem State.checkedInput_bind_of_le {s : State} {α : Type} (f : List Byte → Except CmdError α)
    (h : s.inLen.toNat ≤ s.cfg.inCap.val) : s.checkedInput.bind f = f s.inputBytes := by
  rcases s.checkedInput_bind f with ⟨hlt, -⟩ | ⟨-, hbind⟩
  · omega
  · exact hbind

/-- No input fails at FREQ, before `OUT_CAP` matters (R141). -/
theorem encoders_fail_on_no_input {s : State} (h : s.inLen = 0) :
    compressResult s = .error ⟨.emptyInput, .freq⟩ ∧ analyzeResult s = .error ⟨.emptyInput, .freq⟩ := by
  have hfits : s.inLen.toNat ≤ s.cfg.inCap.val := by simp [h]
  rw [compressResult, analyzeResult, State.checkedInput_bind_of_le _ hfits, State.checkedInput_bind_of_le _ hfits,
    State.inputBytes_eq_nil h]
  exact ⟨rfl, rfl⟩

/-- The container COMPRESS makes of an input has the length R120 gives it. -/
theorem length_container_of_buildTables {B : List Byte} {tb : Tables} (h : buildTables B = .ok tb) (X : List Byte) :
    (container X B.length (packStage B tb.code).pad tb.built.root (packStage B tb.code).payload).length =
      containerLength X.length B.dedup.length (bitCount tb.freq tb.code) := by
  obtain ⟨-, hfreq, -⟩ := buildTables_eq_ok h
  obtain ⟨-, -, hk, -⟩ := built_spec h
  obtain ⟨-, hlen, hbits, -⟩ := packStage_spec B tb.code
  rw [length_container, payloadOffset, hk, hlen, hbits, hfreq, length_codeBits, containerLength]

/-- A container that does not fit fails at SERIALIZE (R197). -/
theorem compressBytes_overflow {outCap : Nat} {X B : List Byte} {tb : Tables} (h : buildTables B = .ok tb)
    (hlong : outCap < containerLength X.length B.dedup.length (bitCount tb.freq tb.code)) :
    compressBytes outCap X B = .error ⟨.outputOverflow, .serialize⟩ := by
  rcases compressBytes_cases outCap X B with ⟨rfl, -⟩ | ⟨tb', h', hfit⟩
  · rw [buildTables_nil] at h
    cases h
  · obtain rfl : tb' = tb := Except.ok.inj (h'.symm.trans h)
    simp only [length_container_of_buildTables h X] at hfit
    rcases hfit with ⟨-, hc⟩ | ⟨hle, -⟩
    · exact hc
    · omega

/-- Settles O9: no input for COMPRESS and for ANALYZE, then a container that does not fit. -/
theorem encoderFailures : Obligations.EncoderFailures := by
  constructor
  · intro s h
    obtain ⟨hcompress, hanalyze⟩ := encoders_fail_on_no_input h
    rw [exec_compress, exec_analyze, hcompress, hanalyze]
    exact ⟨⟨_, rfl, s.failsWith_fail _⟩, _, rfl, s.failsWith_fail _⟩
  · intro s tb _ hfits h hlong
    rw [← s.length_extensionBytes] at hlong
    rw [exec_compress, compressResult, State.checkedInput_bind_of_le _ hfits, compressBytes_overflow h hlong]
    exact ⟨_, rfl, s.failsWith_fail _⟩

end Sys2Proof.Machine
end

section
/-!
PROOFS. The decoder family (41_decoder.md): UNPACK reads no bit after the ones it needs, gives back what PACK packed, and fails on a
payload that lost its last byte.
-/

namespace Sys2Proof.Machine

/-! ## The data bits of a payload (R171) -/

theorem length_dataBits (P : List Byte) (pad : Nat) : (dataBits P pad).length = 8 * P.length - pad := by
  rw [dataBits, availBits, List.length_take, length_streamBits, min_eq_left (Nat.sub_le _ _)]

/-- More payload bytes continue the data bits: what was padding becomes data, and no data bit changes. -/
theorem dataBits_prefix_append (P Q : List Byte) (pad : Nat) : dataBits P pad <+: dataBits (P ++ Q) pad := by
  have hle : availBits P.length pad ≤ (streamBits P).length := by
    rw [length_streamBits]
    exact Nat.sub_le _ _
  have hmono : availBits P.length pad ≤ availBits (P ++ Q).length pad := by
    simp only [availBits, List.length_append]
    omega
  rw [dataBits, dataBits, streamBits_append, ← List.take_append_of_le_length hle]
  exact List.take_prefix_take_left hmono

/-- Payloads of one length that agree before the padding have the same data bits. -/
theorem dataBits_congr {P Q : List Byte} {pad : Nat} (hlen : P.length = Q.length)
    (h : ∀ i, i < 8 * P.length - pad → (streamBits P)[i]? = (streamBits Q)[i]?) : dataBits P pad = dataBits Q pad := by
  refine List.ext_getElem? fun i => ?_
  rw [dataBits, dataBits, ← hlen, List.getElem?_take, List.getElem?_take]
  split
  · exact h i ‹_›
  · rfl

/-- The last byte of a payload carries data: without it the data bits are a shorter prefix. -/
theorem dataBits_dropLast {P : List Byte} {pad : Nat} (h : pad < 8 * P.length) :
    dataBits P.dropLast pad <+: dataBits P pad ∧ (dataBits P.dropLast pad).length < (dataBits P pad).length := by
  have hP : P ≠ [] := by
    rintro rfl
    exact absurd h (Nat.not_lt_zero _)
  constructor
  · have hprefix := dataBits_prefix_append P.dropLast [P.getLast hP] pad
    rwa [List.dropLast_append_getLast hP] at hprefix
  · rw [length_dataBits, length_dataBits, List.length_dropLast]
    omega

/-! ## The UNPACK stage and its loop (R173 to R177) -/

theorem unpackStage_eq_ok_iff {root : Tree} {P : List Byte} {pad n : Nat} {out : List Byte} :
    unpackStage root P pad n = .ok out ↔ unpackLoop root root (dataBits P pad) n = some out := by
  rw [unpackStage]
  cases unpackLoop root root (dataBits P pad) n <;> simp

theorem unpackStage_eq_error {root : Tree} {P : List Byte} {pad n : Nat}
    (h : unpackLoop root root (dataBits P pad) n = none) :
    unpackStage root P pad n = .error ⟨.corruptPayload, .unpack⟩ := by
  rw [unpackStage, h]

/-- The loop on a longer stream emits what it emits on a prefix (R175). -/
theorem unpackLoop_of_prefix {root cur : Tree} {bits bits' : List Bool} {n : Nat} {out : List Byte} (hp : bits <+: bits')
    (h : unpackLoop root cur bits n = some out) : unpackLoop root cur bits' n = some out := by
  obtain ⟨more, rfl⟩ := hp
  obtain ⟨hmore, -⟩ := unpackLoop_append (more := more) h
  exact hmore

/-- Settles O29: later bits, later bytes, and the padding, which is no data. -/
theorem residualAndPaddingBitsAreIgnored : Obligations.ResidualAndPaddingBitsAreIgnored := by
  refine ⟨fun root cur bits more n out => unpackLoop_append, fun root P Q pad n out h => ?_,
    fun root P Q pad n hlen hbits => ?_⟩
  · rw [unpackStage_eq_ok_iff] at h ⊢
    exact unpackLoop_of_prefix (dataBits_prefix_append P Q pad) h
  · rw [unpackStage, unpackStage, dataBits_congr hlen hbits]

/-! ## UNPACK and the codes (R173, R174, R180) -/

/-- The bytes of a lone leaf have one code bit each (R151). -/
theorem length_codeBits_leaf (i : Nat) (b : Byte) (w n : Nat) :
    (codeBits (codegenStage (.leaf i b w)) (List.replicate n b)).length = n := by
  rw [codeBits, List.length_flatMap, List.map_replicate, codeOf_codegen_leaf, if_pos rfl, List.sum_replicate]
  simp

/-- The codes of leaf bytes of a larger tree are their paths. -/
theorem codeBits_codegen_node {i w : Nat} {l r : Tree} {B : List Byte} (hn : (Tree.node i w l r).bytes.Nodup)
    (hB : ∀ b ∈ B, b ∈ (Tree.node i w l r).bytes) :
    codeBits (codegenStage (.node i w l r)) B = B.flatMap (Tree.node i w l r).path := by
  refine List.flatMap_congr fun b hb => ?_
  rw [codeOf_codegen_node _ _ _ _ _ hn, if_pos (hB b hb)]

/-- Numbering a tree afresh keeps the codes (R210). -/
theorem codeBits_codegen_numbered {t : Tree} (hn : t.bytes.Nodup) (j : Nat) (B : List Byte) :
    codeBits (codegenStage (t.numbered j)) B = codeBits (codegenStage t) B :=
  List.flatMap_congr fun b _ => codeOf_codegen_numbered t j b hn

/-- The codes of leaf bytes decode to these bytes: prefix-free paths, or one bit a byte for a lone leaf (R180). -/
theorem unpackLoop_codeBits {t : Tree} {B : List Byte} (hn : t.bytes.Nodup) (hB : ∀ b ∈ B, b ∈ t.bytes) :
    unpackLoop t t (codeBits (codegenStage t) B) B.length = some B := by
  cases t with
  | leaf i x w =>
    obtain ⟨n, rfl⟩ : ∃ n, B = List.replicate n x :=
      ⟨_, List.eq_replicate_of_mem fun b hb => List.mem_singleton.mp (hB b hb)⟩
    rw [unpackLoop_leaf, length_codeBits_leaf, List.length_replicate, if_pos le_rfl]
  | node i w l r =>
    rw [codeBits_codegen_node hn hB, unpackLoop_node_iff _ _ _ _ _ _ _ hn]
    exact ⟨rfl, hB, List.prefix_rfl⟩

/-- The loop fetches every bit of the codes of what it emits. -/
theorem length_codeBits_le_of_unpackLoop {t : Tree} {bits : List Bool} {n : Nat} {out : List Byte} (hn : t.bytes.Nodup)
    (h : unpackLoop t t bits n = some out) : (codeBits (codegenStage t) out).length ≤ bits.length := by
  cases t with
  | leaf i x w =>
    rw [unpackLoop_leaf] at h
    split at h
    · cases h
      rwa [length_codeBits_leaf]
    · cases h
  | node i w l r =>
    obtain ⟨-, hmem, hprefix⟩ := (unpackLoop_node_iff _ _ _ _ _ _ _ hn).mp h
    rw [codeBits_codegen_node hn hmem]
    exact hprefix.length_le

/-- The codes cut short do not decode: they could only decode to the same bytes, which need all their bits (R179). -/
theorem unpackLoop_of_short_codeBits {t : Tree} {B : List Byte} {bits : List Bool} (hn : t.bytes.Nodup)
    (hB : ∀ b ∈ B, b ∈ t.bytes) (hp : bits <+: codeBits (codegenStage t) B)
    (hlt : bits.length < (codeBits (codegenStage t) B).length) : unpackLoop t t bits B.length = none := by
  rw [Option.eq_none_iff_forall_ne_some]
  intro out hout
  have hsame := unpackLoop_of_prefix hp hout
  rw [unpackLoop_codeBits hn hB] at hsame
  cases hsame
  exact absurd (length_codeBits_le_of_unpackLoop hn hout) (not_le.mpr hlt)

/-! ## UNPACK of what PACK made (R179, R180) -/

/-- The code an input is packed with is that of its built tree however numbered, whose leaves are the input's bytes. -/
theorem numbered_built_spec {B : List Byte} {tb : Tables} (h : buildTables B = .ok tb) (j : Nat) :
    (tb.built.root.numbered j).bytes.Nodup ∧ (∀ b ∈ B, b ∈ (tb.built.root.numbered j).bytes) ∧
      codeBits (codegenStage (tb.built.root.numbered j)) B = codeBits tb.code B := by
  obtain ⟨hn, hmem, -⟩ := built_spec h
  rw [Tree.bytes_numbered, codeBits_codegen_numbered hn, code_eq_codegenStage h]
  exact ⟨hn, fun b => (hmem b).mpr, rfl⟩

/-- UNPACK of the packed codes of a tree's leaf bytes, with that tree (R180). -/
theorem unpackStage_packStage {t : Tree} {B : List Byte} {C : SMap (List Bool)} (hn : t.bytes.Nodup)
    (hB : ∀ b ∈ B, b ∈ t.bytes) (hcode : codeBits (codegenStage t) B = codeBits C B) :
    unpackStage t (packStage B C).payload (packStage B C).pad B.length = .ok B := by
  rw [unpackStage_eq_ok_iff, dataBits_packStage, ← hcode]
  exact unpackLoop_codeBits hn hB

/-- Settles O30: the built tree and its pre-order numbered copy have the leaves and the codes of the input. -/
theorem unpackInvertsPack : Obligations.UnpackInvertsPack := by
  intro B tb h
  obtain ⟨hn, hmem, -⟩ := built_spec h
  obtain ⟨hn', hmem', hcode'⟩ := numbered_built_spec h 0
  exact ⟨unpackStage_packStage hn (fun b => (hmem b).mpr) (by rw [code_eq_codegenStage h]),
    unpackStage_packStage hn' hmem' hcode'⟩

/-- The payload of a non-empty input holds more than its padding. -/
theorem pad_lt_packed_bits {B : List Byte} {tb : Tables} (h : buildTables B = .ok tb) :
    (packStage B tb.code).pad < 8 * (packStage B tb.code).payload.length := by
  obtain ⟨hne, -⟩ := buildTables_eq_ok h
  have hpos := List.length_pos_iff.mpr hne
  obtain ⟨hmin, -⟩ := length_codeBits_bounds h
  have hdata := length_dataBits (packStage B tb.code).payload (packStage B tb.code).pad
  rw [dataBits_packStage] at hdata
  omega

/-- A packed payload without its last byte lacks bits of the codes (R179). -/
theorem unpackStage_of_cut_payload {B : List Byte} {tb : Tables} (h : buildTables B = .ok tb) :
    unpackStage (tb.built.root.numbered 0) (packStage B tb.code).payload.dropLast (packStage B tb.code).pad B.length =
      .error ⟨.corruptPayload, .unpack⟩ := by
  obtain ⟨hn, hmem, hcode⟩ := numbered_built_spec h 0
  obtain ⟨hprefix, hlt⟩ := dataBits_dropLast (pad_lt_packed_bits h)
  rw [dataBits_packStage, ← hcode] at hprefix hlt
  exact unpackStage_eq_error (unpackLoop_of_short_codeBits hn hmem hprefix hlt)

/-! ## A container parses to what it was made of (R210) -/

theorem Byte.toNat_ofNat_of_le {n : Nat} (h : n ≤ 255) : (BitVec.ofNat 8 n).toNat = n := by
  rw [BitVec.toNat_ofNat, Nat.mod_eq_of_lt (by omega)]

theorem rd_cons (b : Byte) (rest : List Byte) : rd (b :: rest) = some (b, rest) := rfl

theorem rdMany_append {n : Nat} {l : List Byte} (hl : l.length = n) (rest : List Byte) :
    rdMany n (l ++ rest) = some (l, rest) :=
  rdMany_eq_some.mpr ⟨hl, rfl⟩

@[simp] theorem length_le64 (n : Nat) : (le64 n).length = 8 := by
  rw [le64_eq_leBytes, length_leBytes]

theorem ofLe_le64 {n : Nat} (h : n < 2 ^ 64) : ofLe (le64 n) = n := by
  rw [le64_eq_leBytes]
  exact ofLe_leBytes 8 n h

/-- A tree with distinct leaf bytes is within the limits of the parse (R206, R207). -/
theorem parseTree_ser {t : Tree} (hn : t.bytes.Nodup) (P : List Byte) :
    ∃ c, parseTree maxDepth ⟨t.ser ++ P, 0, 0, []⟩ = some (t.numbered 0, c) ∧ c.rest = P := by
  have hleaves := Tree.leafCount_le_of_nodup hn
  exact ⟨_, parseTree_complete t maxDepth _ P (t.depth_le_leafCount.trans hleaves) rfl hn (fun _ _ => List.not_mem_nil)
    (by simp only []; omega), rfl⟩

/-- The fields after the extension (R202 to R209). -/
theorem parseFields_of_fields {n pad : Nat} {t : Tree} (len : Nat) (X P : List Byte) (hn : 1 ≤ n) (hn' : n < 2 ^ 64)
    (hpad : pad ≤ 7) (ht : t.bytes.Nodup) :
    parseFields len X (le64 n ++ BitVec.ofNat 8 pad :: (t.ser ++ P)) = some ⟨X, n, pad, t.numbered 0, len - P.length, P⟩ := by
  obtain ⟨c, hc, hrest⟩ := parseTree_ser ht P
  have hpad' : (BitVec.ofNat 8 pad).toNat = pad := Byte.toNat_ofNat_of_le (by omega)
  simp only [parseFields, rdMany_append (length_le64 n), rd_cons, ofLe_le64 hn', hpad', hc, hrest]
  rw [if_neg (by omega), if_neg (by omega)]

/-- A container parses to its own fields, its tree numbered in pre-order (R210). -/
theorem parseContainer_container {X : List Byte} {n pad : Nat} {t : Tree} (P : List Byte) (hX : X.length ≤ 255) (hn : 1 ≤ n)
    (hn' : n < 2 ^ 64) (hpad : pad ≤ 7) (ht : t.bytes.Nodup) :
    parseContainer (container X n pad t P) =
      some ⟨X, n, pad, t.numbered 0, (container X n pad t P).length - P.length, P⟩ := by
  have hlayout : container X n pad t P =
      marker ++ BitVec.ofNat 8 X.length :: (X ++ (le64 n ++ BitVec.ofNat 8 pad :: (t.ser ++ P))) := by simp [container]
  have hE : X.length = (BitVec.ofNat 8 X.length).toNat := (Byte.toNat_ofNat_of_le hX).symm
  rw [← parseFields_of_fields (container X n pad t P).length X P hn hn' hpad ht, parseContainer]
  generalize (container X n pad t P).length = len
  simp only [hlayout, rdMany_append (show marker.length = 5 from rfl), ne_eq, not_true_eq_false, if_false, rd_cons,
    rdMany_append hE]

/-! ## A container without its last byte (R179) -/

/-- A payload is the end of its container. -/
theorem dropLast_container {X : List Byte} {n pad : Nat} {t : Tree} {P : List Byte} (hP : P ≠ []) :
    (container X n pad t P).dropLast = container X n pad t P.dropLast :=
  List.dropLast_append_of_ne_nil hP

/-- A container that parses, of no more bytes than fit, fails as UNPACK does (R225, R264). -/
theorem decompressBytes_eq_error {outCap : Nat} {C : List Byte} {p : Parsed} {e : CmdError}
    (hp : parseContainer C = some p) (hn : p.n ≤ outCap) (h : unpackStage p.root p.payload p.pad p.n = .error e) :
    decompressBytes outCap C = .error e := by
  simp only [decompressBytes, parseStage, hp, h]
  rw [if_neg (not_lt.mpr hn)]

/-- Settles O33: the cut container parses to the cut payload, whose codes end too early. -/
theorem truncatedPayloadIsDetected : Obligations.TruncatedPayloadIsDetected := by
  refine ⟨fun B tb => unpackStage_of_cut_payload, fun cap outCap X B r hX hB hcap hr => ?_⟩
  have hne : B ≠ [] := by
    rintro rfl
    cases hr
  obtain ⟨tb, h⟩ := buildTables_ok hne
  obtain ⟨hn, -⟩ := built_spec h
  have hlt := pad_lt_packed_bits h
  have hP : (packStage B tb.code).payload ≠ [] := List.length_pos_iff.mp (by omega)
  rw [compressBytes_out h hr, dropLast_container hP]
  exact decompressBytes_eq_error
    (parseContainer_container _ hX (List.length_pos_iff.mpr hne) hB (padCount_le _) hn) hcap (unpackStage_of_cut_payload h)

end Sys2Proof.Machine
end

section
/-!
PROOFS. The container family: DESERIALIZE accepts exactly the containers (42_container.md R198 to R210).
-/

namespace Sys2Proof.Machine

/-! ## The container layout (R110 to R121) -/

/-- The count field byte by byte: byte i is n / 256^i (R113). -/
theorem le64_eq_map_div (n : Nat) : le64 n = (List.range 8).map fun i => BitVec.ofNat 8 (n / 256 ^ i) := by
  rw [le64_eq_leBytes, leBytes_eq_map]

/-- A container field by field (R110, R111, R113). -/
theorem container_eq_fields (X : List Byte) (n pad : Nat) (t : Tree) (P : List Byte) :
    container X n pad t P =
      [0x48#8, 0x55#8, 0x46#8, 0x46#8, 0x01#8] ++ (BitVec.ofNat 8 X.length :: X) ++
        (List.range 8).map (fun i => BitVec.ofNat 8 (n / 256 ^ i)) ++ [BitVec.ofNat 8 pad] ++ t.ser ++ P := by
  rw [container, le64_eq_map_div, marker]

/-! ## A byte string parses exactly when it is a container (R210) -/

/-- DESERIALIZE gives back what a container was made of, and accepts nothing else (R198, R210). -/
theorem parseContainer_eq_some_iff {C : List Byte} {p : Parsed} :
    parseContainer C = some p ↔
      ∃ (X : List Byte) (n pad : Nat) (t : Tree) (P : List Byte),
        X.length ≤ 255 ∧ 1 ≤ n ∧ n < 2 ^ 64 ∧ pad ≤ 7 ∧ t.bytes.Nodup ∧
          C = container X n pad t P ∧ p = ⟨X, n, pad, t.numbered 0, C.length - P.length, P⟩ := by
  constructor
  · intro h
    obtain ⟨hC, hnum, ht, hX, hn, hn', hpad, hoff⟩ := parseContainer_sound h
    exact ⟨p.ext, p.n, p.pad, p.root, p.payload, hX, hn, hn', hpad, ht, hC, by rw [← hnum, ← hoff]⟩
  · rintro ⟨X, n, pad, t, P, hX, hn, hn', hpad, ht, rfl, rfl⟩
    exact parseContainer_container P hX hn hn' hpad ht

/-- Settles O32: the equations of the serialized tree are its definition; the parse is sound and complete for containers. -/
theorem parseInvertsSerialize : Obligations.ParseInvertsSerialize := by
  refine ⟨fun _ _ _ => rfl, fun _ _ _ _ => rfl, fun C p => ?_⟩
  simp only [parseContainer_eq_some_iff, container_eq_fields]

end Sys2Proof.Machine
end

section
/-!
PROOFS. The command family (43_commands.md): the issue of a command, the length check, the statistics, the output a success
leaves, and the round trip of COMPRESS and DECOMPRESS.
-/

namespace Sys2Proof.Machine

/-! ## Issue (R221) -/

/-- Settles O48: a `CMD` write issues, and an issue is dropped while busy and accepted when idle. -/
theorem commandWriteIssues : Obligations.CommandWriteIssues := by
  refine fun s w => ⟨fun hb => ?_, fun hb => ?_⟩
  · rw [State.transact_write_cmd, State.issue_of_busy w hb]
  · rw [State.transact_write_cmd, State.issue_of_idle w hb]
    rfl

/-! ## The length check (R235) -/

/-- An input longer than `IN_BUF` is refused before any of it is read. -/
theorem State.checkedInput_bind_of_lt {s : State} {α : Type} (f : List Byte → Except CmdError α)
    (h : s.cfg.inCap.val < s.inLen.toNat) : s.checkedInput.bind f = .error ⟨.lengthError, .command⟩ := by
  rcases s.checkedInput_bind f with ⟨-, hbind⟩ | ⟨hle, -⟩
  · exact hbind
  · omega

/-- The four commands that read an input begin with the check. -/
theorem exec_of_overlong_input {i : Instr} {s : State} (hi : i ∈ [Instr.compress, .decompress, .analyze, .parse])
    (h : s.cfg.inCap.val < s.inLen.toNat) : exec i s = .next (s.fail ⟨.lengthError, .command⟩) := by
  have hcheck {f : List Byte → Except CmdError Success} := State.checkedInput_bind_of_lt f h
  simp only [List.mem_cons, List.not_mem_nil, or_false] at hi
  rcases hi with rfl | rfl | rfl | rfl
  · rw [exec_compress, compressResult, hcheck, State.finish_error]
  · rw [exec_decompress, decompressResult, hcheck, State.finish_error]
  · rw [exec_analyze, analyzeResult, hcheck, State.finish_error]
  · rw [exec_parse, parseResult, hcheck, State.finish_error]

/-- Settles O8: the check looks at `IN_LEN` and `IN_CAP` alone, and NOP and ILLEGAL do not begin with it. -/
theorem lengthCheckComesFirst : Obligations.LengthCheckComesFirst := fun s h =>
  ⟨fun _ hi m e => ⟨_, exec_of_overlong_input (s := { s with mem := m, hostEpoch := e }) hi h, State.failsWith_fail _ _⟩,
    ⟨_, exec_nop s, s.retire_errCode⟩, fun w => ⟨_, exec_illegal w s, s.fail_errCode _⟩⟩

/-! ## The statistics (R229 to R231) -/

/-- Sizes below 2^32 are held whole. -/
theorem toNat_ofNat_word {n : Nat} (h : n < 2 ^ 32) : (BitVec.ofNat 32 n).toNat = n := by
  rw [BitVec.toNat_ofNat, Nat.mod_eq_of_lt h]

/-- Numbers below 2^63 in size are held whole. -/
theorem toInt_ofInt_64 {z : Int} (h : z.natAbs < 2 ^ 63) : (BitVec.ofInt 64 z).toInt = z :=
  BitVec.toInt_ofInt_eq_self (by decide) (by omega) (by omega)

/-- The difference of two sizes that a block can report fits its register, and so does the ratio, which is no larger than its
dividend. -/
theorem hasStats_withStats (r : Results) {orig comp : Nat} (ho : orig < 2 ^ 29) (hc : comp < 2 ^ 29) :
    hasStats (withStats r orig comp) orig comp := by
  have hratio := Int.natAbs_tdiv_le_natAbs (10000 * savedBytes orig comp) orig
  rw [savedBytes] at hratio
  refine ⟨toNat_ofNat_word (by omega), toNat_ofNat_word (by omega), toInt_ofInt_64 ?_, toInt_ofInt_64 ?_⟩
  · rw [savedBytes]
    omega
  · rw [ratio, savedBytes]
    omega

/-- Settles O35: the bound above for all sizes, and the examples of R230 and R231 by evaluation. -/
theorem statisticsAreExact : Obligations.StatisticsAreExact := fun r _ _ _ ho hc =>
  ⟨hasStats_withStats r ho hc, by decide, by decide, by decide, by decide,
    show loHalf (BitVec.ofInt 64 (savedBytes 10 29)) = _ by decide,
    show hiHalf (BitVec.ofInt 64 (savedBytes 10 29)) = _ by decide⟩

/-! ## A command that ends without an error (R222, R233) -/

/-- Every failure records a code, so a command other than NOP that leaves none was a success. -/
theorem exec_without_error {i : Instr} {s t : State} (hi : i ≠ .nop) (hx : exec i s = .next t) (ht : t.errCode = .none) :
    ∃ r, resultOf i s = .ok r ∧ t = s.succeed r := by
  rcases exec_inversion hx with ⟨hnop, -⟩ | ⟨r, -, hr, rfl⟩ | ⟨e, -, he, rfl⟩
  · exact absurd hnop hi
  · exact ⟨r, hr, rfl⟩
  · have hmem := resultOf_error hi he
    have hcode : e.code = .none := ht
    simp [hcode] at hmem

section
variable {i : Instr} {s : State} {r : Success} (h : resultOf i s = .ok r)
include h

theorem exec_of_ok : exec i s = .next (s.succeed r) := by
  rcases exec_cases i s with ⟨rfl, -⟩ | ⟨-, hx⟩
  · cases h
  · rw [hx, h, State.finish_ok]

/-- `OUT_LEN` holds the length of the output whole. -/
theorem toNat_outLen_of_ok : r.res.outLen.toNat = r.out.length := by
  obtain ⟨hfits, hlen, -⟩ := resultOf_ok h
  have hcap := s.cfg.outCap.property.2
  rw [hlen, toNat_ofNat_word (by omega)]

/-- `RES_EXT_LEN` holds the length of the extension whole. -/
theorem toNat_extLen_of_ok : r.res.extLen.toNat = r.ext.length := by
  obtain ⟨-, -, hle, hlen⟩ := resultOf_ok h
  rw [hlen, Byte.toNat_ofNat_of_le hle]

/-- `OUT_BUF[0..OUT_LEN)` is the output. -/
theorem readBytes_out_of_ok : (s.succeed r).readBytes outBase (s.succeed r).res.outLen.toNat = r.out := by
  rw [State.succeed_res, toNat_outLen_of_ok h, State.readBytes_out_succeed]

/-- `EXT_OUT[0..RES_EXT_LEN)` is the extension. -/
theorem readBytes_ext_of_ok : (s.succeed r).readBytes extOutBase (s.succeed r).res.extLen.toNat = r.ext := by
  obtain ⟨-, -, hle, -⟩ := resultOf_ok h
  rw [State.succeed_res, toNat_extLen_of_ok h, State.readBytes_ext_succeed s r (hle.trans (by decide))]

end

/-- Settles O19: a success writes its output, which fits, and nothing of `OUT_BUF` beyond it. -/
theorem outputBeyondItsLengthIsKept : Obligations.OutputBeyondItsLengthIsKept := by
  intro i s t hi _ hx ht
  have hnop : i ≠ .nop := by
    rintro rfl
    simp at hi
  obtain ⟨r, hr, rfl⟩ := exec_without_error hnop hx ht
  obtain ⟨hfits, -, hext, -⟩ := resultOf_ok hr
  rw [State.succeed_res, toNat_outLen_of_ok hr]
  refine ⟨fun a ⟨hout, hbeyond⟩ => ?_, Nat.add_le_add_left hfits _⟩
  obtain ⟨-, hdisjoint, -⟩ := regions_disjoint s.cfg a
  have hnotExt : ¬ inExtOut a := fun hE => (hdisjoint hE).2 hout
  exact s.sameBytes_succeed r (hext.trans (by decide)) a ⟨fun hin => absurd hin.2 (not_lt.mpr hbeyond), hnotExt⟩

/-! ## The round trip (R234) -/

/-- A command that returned something had an input that fits `IN_BUF`. -/
theorem State.checkedInput_bind_ok {s : State} {α : Type} {f : List Byte → Except CmdError α} {x : α}
    (h : s.checkedInput.bind f = .ok x) : f s.inputBytes = .ok x := by
  rcases s.checkedInput_bind f with ⟨-, hbind⟩ | ⟨-, hbind⟩
  · rw [hbind] at h
    cases h
  · rwa [hbind] at h

/-- DECOMPRESS of a container that parses, of no more bytes than fit, gives what UNPACK gives (R225). -/
theorem decompressBytes_eq_ok {outCap : Nat} {C out : List Byte} {p : Parsed} (hp : parseContainer C = some p)
    (hn : p.n ≤ outCap) (h : unpackStage p.root p.payload p.pad p.n = .ok out) :
    ∃ r, decompressBytes outCap C = .ok r ∧ r.out = out ∧ r.ext = p.ext := by
  simp only [decompressBytes, parseStage, hp, h]
  rw [if_neg (not_lt.mpr hn)]
  exact ⟨_, rfl, rfl, rfl⟩

/-- The container of an input parses to the input's tree, numbered afresh, and to its payload, which UNPACK turns back (R180,
R210). -/
theorem decompressBytes_compressBytes {cap outCap : Nat} {X B : List Byte} {r : Success} (hX : X.length ≤ 255)
    (hB : B.length < 2 ^ 64) (hcap : B.length ≤ outCap) (hr : compressBytes cap X B = .ok r) :
    ∃ r', decompressBytes outCap r.out = .ok r' ∧ r'.out = B ∧ r'.ext = X := by
  have hne : B ≠ [] := by
    rintro rfl
    cases hr
  obtain ⟨tb, h⟩ := buildTables_ok hne
  obtain ⟨hn, -⟩ := built_spec h
  obtain ⟨-, hunpack⟩ := unpackInvertsPack B tb h
  rw [compressBytes_out h hr]
  exact decompressBytes_eq_ok
    (parseContainer_container _ hX (List.length_pos_iff.mpr hne) hB (padCount_le _) hn) hcap hunpack

/-- Settles O34: the second block's input is the container the first wrote. -/
theorem decompressInvertsCompress : Obligations.DecompressInvertsCompress := by
  intro s t u _ hx ht _ hfits hinput hcap
  obtain ⟨r, hr, rfl⟩ := exec_without_error (by simp) hx ht
  have hX : s.extensionBytes.length ≤ 255 := by
    have hlt := s.extLen.isLt
    rw [State.length_extensionBytes]
    omega
  have hB : s.inputBytes.length < 2 ^ 64 := by
    have hlt := s.inLen.isLt
    rw [State.length_inputBytes]
    omega
  obtain ⟨r', hr', hout, hext⟩ :=
    decompressBytes_compressBytes hX hB (s.length_inputBytes.trans_le hcap) (State.checkedInput_bind_ok hr)
  rw [readBytes_out_of_ok hr] at hinput
  have hu : resultOf .decompress u = .ok r' := by
    rw [resultOf, decompressResult, State.checkedInput_bind_of_le _ hfits, hinput, hr']
  have hlen : r'.res.outLen = s.inLen :=
    BitVec.eq_of_toNat_eq (by rw [toNat_outLen_of_ok hu, hout, State.length_inputBytes])
  exact ⟨_, exec_of_ok hu, u.completes_succeed r', hlen, (readBytes_out_of_ok hu).trans hout,
    (readBytes_ext_of_ok hu).trans hext⟩

end Sys2Proof.Machine
end

section
/-!
PROOFS. The exceptions family: a command that ends with an error did so by `State.fail` (60_exceptions.md R263).
-/

namespace Sys2Proof.Machine

/-! ## A command that ends with an error (R222, R263) -/

/-- NOP and a success keep the error fields, so a code that was not there before the command is a failure's. -/
theorem exec_with_error {i : Instr} {s t : State} (hs : s.errCode = .none) (hx : exec i s = .next t)
    (ht : t.errCode ≠ .none) : ∃ e, resultOf i s = .error e ∧ t = s.fail e := by
  rcases exec_inversion hx with ⟨-, rfl⟩ | ⟨r, -, -, rfl⟩ | ⟨e, -, he, rfl⟩
  · exact absurd (s.retire_errCode.trans hs) ht
  · exact absurd ((s.completes_succeed r).code_eq.trans hs) ht
  · exact ⟨e, he, rfl⟩

/-- Settles O16: the error is a failure's, and a failed completion is what R263 says. -/
theorem anErrorLeavesNoResult : Obligations.AnErrorLeavesNoResult := by
  intro i s t hs hx ht
  have herr : t.err = true := t.err_eq_true_iff.mpr ht
  obtain ⟨e, -, rfl⟩ := exec_with_error hs hx ht
  have hfails := s.failsWith_fail e
  refine ⟨?_, ?_, herr⟩
  · rwa [s.fail_errCode e, s.fail_errStage e]
  · rw [hfails.results]
    rfl

end Sys2Proof.Machine
end

section
/-!
PROOFS. The reset and hazards family (70_reset_and_hazards.md): which writes a busy block takes, what either reset leaves, and that
nothing but a completion and a reset changes what a command has left.
-/

namespace Sys2Proof.Machine

/-! ## Writes while busy (R301) -/

/-- A write to a register that is neither a control register nor one of R301's list is answered `OKAY` and does nothing (R22 to
R24, R51). -/
theorem State.transact_write_of_readOnly (s : State) {off : Word} {size : Size} (data : Word)
    (hreg : registerAccess off.toNat size) (hctrl : off.toNat ≠ 0x010) (hstatus : off.toNat ≠ 0x014)
    (hlock : off.toNat ∉ [0x018, 0x01C, 0x020, 0x06C, 0x098]) :
    s.transact (.write off size data) = (.write .okay, s) := by
  have hkeep : s.writeReg data (regAt off.toNat) = s := by
    obtain ⟨ectrl, estatus, ecmd, einLen, eextLen, esym, enode⟩ := regAt_writable off.toNat
    simp only [List.mem_cons, List.not_mem_nil, or_false, not_or, ← ecmd, ← einLen, ← eextLen, ← esym, ← enode] at hlock
    rw [Ne, ← ectrl] at hctrl
    rw [Ne, ← estatus] at hstatus
    rcases s.writeReg_cases data (regAt off.toNat) with
      ⟨h, -⟩ | ⟨h, -⟩ | ⟨h, -⟩ | ⟨h, -⟩ | ⟨h, -⟩ | ⟨h, -⟩ | ⟨h, -⟩ | ⟨-, h⟩
    case inr.inr.inr.inr.inr.inr.inr => exact h
    all_goals simp [h] at hctrl hstatus hlock
  cases size with
  | byte => exact hreg.elim
  | word => rw [s.transact_write_reg off data hreg.1 hreg.2, hkeep]

/-- Settles O38, write by write. -/
theorem writesWhileBusy : Obligations.WritesWhileBusy := by
  intro s off size data hb
  refine ⟨fun hl => State.perform_of_isLocked hb ⟨off, size, data, rfl, hl⟩, s.perform_status data, fun h1 => ?_,
    fun h1 => ?_, fun hreg hl hctrl hstatus => ?_, State.perform_write_of_refused data⟩
  · rw [State.perform_ctrl, s.writeCtrl_of_not_resetBit h1]
  · rw [State.perform_ctrl, s.writeCtrl_of_resetBit h1]
    obtain ⟨hbusy, -⟩ := s.softReset_fields
    exact hbusy
  · have hsize : size = .word := by
      cases size with
      | byte => exact hreg.elim
      | word => rfl
    rw [State.perform, s.transact_write_of_readOnly data hreg (fun h => hctrl (BitVec.eq_of_toNat_eq h))
      (fun h => hstatus (BitVec.eq_of_toNat_eq h)) (fun h => hl (.inl ⟨hsize, h⟩))]

/-! ## The registers after a reset (R290, R291, R293) -/

theorem hiHalf_zero : hiHalf 0 = 0 := by decide

/-- Each register is computed from fields that are at reset: `IRQ_EN`, the fields of `STATUS`, and empty tables. -/
theorem State.readReg_resetRegisters (s : State) (r : Reg) : s.resetRegisters.readReg r = resetValue s.cfg r := by
  cases r with
  | status => exact statusWord_resetWith s.cfg
  | ctrl =>
    change 0#31 ++ BitVec.ofBool false = 0#32
    decide
  | resOrigHi | resBitsHi | statSavedHi | statRatioHi => exact hiHalf_zero
  | symCodeW j =>
    change BitVec.ofNat 32 (0 >>> (32 * j.val)) = 0#32
    rw [Nat.zero_shiftRight]
  | _ => rfl

/-- No register shows what the bus has answered. -/
theorem State.readReg_withReplies (s : State) (replies : List Reply) (r : Reg) :
    State.readReg { s with replies := replies } r = s.readReg r := by
  cases r <;> rfl

/-- Every register and every table holds its reset value: resetting them again changes nothing. -/
def State.registersAtReset (t : State) : Prop := t = t.resetRegisters

theorem State.registersAtReset.values {t : State} (h : t.registersAtReset) :
    t.busy = false ∧ t.done = false ∧ t.errCode = .none ∧ t.errStage = .none ∧ t.irq = false ∧ t.res = Results.reset ∧
      ∀ r : Reg, t.readReg r = resetValue t.cfg r := by
  rw [h]
  exact ⟨rfl, rfl, rfl, rfl, rfl, rfl, t.readReg_resetRegisters⟩

theorem State.registersAtReset_powerOnReset (s : State) : s.powerOnReset.registersAtReset := rfl

theorem State.registersAtReset_softReset (s : State) : s.softReset.registersAtReset := by
  unfold State.softReset
  split <;> rfl

/-! ## The buffers after a reset (R290 to R292) -/

/-- Power-on reset leaves no byte listed, and one new draw serves all four buffers. -/
theorem State.byteAt_powerOnReset (s : State) (a : Nat) : s.powerOnReset.byteAt a = Config.anyByte s.draws a := by
  have hepoch : s.powerOnReset.epochAt a = s.draws := by simp [State.epochAt]
  rw [State.byteAt_of_none rfl, hepoch]

/-- A soft reset with no command in flight touches no byte (R291). -/
theorem State.byteAt_softReset_of_idle {s : State} (hb : s.busy = false) (a : Nat) :
    s.softReset.byteAt a = s.byteAt a := by
  rw [State.softReset, hb]
  rfl

/-- An abort does to the buffers what a failed command does (R292, R263). -/
theorem State.byteAt_softReset_of_busy {s : State} (hb : s.busy = true) (e : CmdError) (a : Nat) :
    s.softReset.byteAt a = (s.fail e).byteAt a := by
  rw [State.softReset, hb]
  rfl

/-- A soft reset, an abort too, touches no byte outside the output buffers (R291, R292). -/
theorem State.sameBytes_softReset (s : State) :
    sameBytes s s.softReset fun a => ¬ inOutBuf s.cfg a ∧ ¬ inExtOut a := by
  intro a ha
  rcases Bool.eq_false_or_eq_true s.busy with hb | hb
  · rw [State.byteAt_softReset_of_busy hb ⟨.none, .none⟩]
    exact (s.failsWith_fail _).others a ha
  · exact State.byteAt_softReset_of_idle hb a

/-- An abort makes both output buffers `any` (R292). -/
theorem State.becameAny_softReset {s : State} (hb : s.busy = true) :
    becameAny s s.softReset (inOutBuf s.cfg) ∧ becameAny s s.softReset inExtOut := by
  have hfails := s.failsWith_fail ⟨.none, .none⟩
  simp only [becameAny, State.byteAt_softReset_of_busy hb ⟨.none, .none⟩]
  exact ⟨hfails.out_any, hfails.ext_any⟩

/-- The input buffers are no output buffers (R71). -/
theorem not_output_of_input {c : Config} {a : Nat} (h : inInBuf c a ∨ inExtIn a) : ¬ inOutBuf c a ∧ ¬ inExtOut a := by
  obtain ⟨hextIn, hextOut, hinBuf⟩ := regions_disjoint c a
  rcases h with h | h
  · exact ⟨hinBuf h, fun hx => (hextOut hx).1 h⟩
  · obtain ⟨hx, -, ho⟩ := hextIn h
    exact ⟨ho, hx⟩

/-- Settles O51: the turn is the power-on reset of whatever state it finds. -/
theorem powerOnResetAtAnyTime : Obligations.PowerOnResetAtAnyTime := by
  intro s ts hts
  obtain ⟨t, h⟩ := step_next s
  obtain rfl := step_of_powerOn h (by rw [State.mover, hts])
  obtain ⟨hbusy, -, -, -, hirq, hres, hreg⟩ := s.takeTurn.registersAtReset_powerOnReset.values
  exact ⟨_, h, rfl, hbusy, hirq, hres, hreg, s.draws, le_refl _, fun a _ => s.takeTurn.byteAt_powerOnReset a⟩

/-- Settles O52: the write is a soft reset, whose effect on the output buffers alone depends on BUSY. -/
theorem softResetAndAbort : Obligations.SoftResetAndAbort := by
  intro s v h1
  rw [State.perform_ctrl, s.writeCtrl_of_resetBit h1]
  obtain ⟨hbusy, hdone, hcode, hstage, hirq, hres, hreg⟩ := s.registersAtReset_softReset.values
  obtain ⟨-, -, -, -, -, -, -, hcfg⟩ := s.softReset_fields
  refine ⟨hcfg, hbusy, hdone, hcode, hstage, hirq, hres, fun r => ?_, fun a ha => ?_, fun hb a _ => ?_,
    State.becameAny_softReset⟩
  · rw [State.readReg_withReplies, hreg r, hcfg]
  · exact s.sameBytes_softReset a (not_output_of_input ha)
  · exact State.byteAt_softReset_of_idle hb a

/-! ## What stays between completions (R304) -/

/-- The results and tables, and the bytes of the output buffers, are as before. -/
def KeepsResults (s t : State) : Prop := t.res = s.res ∧ sameBytes s t fun a => inOutBuf s.cfg a ∨ inExtOut a

/-- Bytes written to an input buffer are no bytes of an output buffer. -/
theorem get?_writeBytes_of_input {c : Config} {off a : Nat} {size : Size} (m : Memory) (data : Word)
    (hin : bufferAccess inExtIn off size ∨ bufferAccess (inInBuf c) off size) (ha : inOutBuf c a ∨ inExtOut a) :
    SMap.get? (Memory.writeBytes m off (writeData data size)) a = SMap.get? m a := by
  have hcap := c.inCap.property.2
  have hout : ¬ (off ≤ a ∧ a < off + (writeData data size).length) := by
    cases size <;>
      simp only [bufferAccess, inExtIn, inInBuf, inOutBuf, inExtOut, writeData, List.length_cons,
        List.length_nil] at * <;> omega
  rw [Memory.get?_writeBytes, if_neg hout]

/-- A transaction that is no soft reset keeps the results. -/
theorem State.keepsResults_perform (s : State) {x : Txn}
    (hx : ∀ v : Word, x = .write 0x010#32 .word v → v.getLsbD 1 = false) : KeepsResults s (s.perform x) := by
  by_cases hctl : x.isControl
  · rcases hctl with ⟨v, rfl⟩ | ⟨v, rfl⟩ | ⟨v, rfl⟩
    · rw [State.perform_ctrl, s.writeCtrl_of_not_resetBit (hx v rfl)]
      exact ⟨rfl, fun _ _ => rfl⟩
    · rw [State.perform_status]
      exact ⟨rfl, fun _ _ => rfl⟩
    · rw [State.perform_cmd, State.issue]
      split <;> exact ⟨rfl, fun _ _ => rfl⟩
  · rcases s.perform_cases x hctl with ⟨-, -, hp⟩ | ⟨-, _, _, _, _, mem, hmem, hp⟩ | ⟨-, _, _, -, hp⟩
    · rw [hp]
      exact ⟨rfl, fun _ _ => rfl⟩
    · rw [hp]
      refine ⟨rfl, fun a ha => State.byteAt_congr ?_ rfl⟩
      rcases hmem with rfl | ⟨off, size, data, hin, rfl⟩
      · rfl
      · exact get?_writeBytes_of_input s.mem data hin ha
    · rw [hp]
      exact ⟨rfl, fun _ _ => rfl⟩

/-- Settles O56: such a step passes, or performs a transaction that is no soft reset. -/
theorem resultStateIsStable : Obligations.ResultStateIsStable := by
  intro s t h hc hr
  rcases step_split h with ⟨hn, -⟩ | ⟨hn, -⟩ | ⟨-, -, x, -, hx, -⟩ | ⟨-, -, -, -, rfl⟩
  · exact absurd hn hc
  · exact absurd hn hr
  · obtain ⟨rest, rfl⟩ := step_of_nextTxn h hx
    refine (s.beforeTxn rest).keepsResults_perform fun v hv => Bool.eq_false_iff.mpr fun h1 => hr (.inr ⟨v, ?_, h1⟩)
    rw [hx, hv]
  · exact ⟨rfl, fun _ _ => rfl⟩

end Sys2Proof.Machine
end

section
/-!
PROOFS. Encoding and steps: words and commands correspond (30_encoding.md section 1), a step is the turn of its agent (43_commands.md
R220, 20_memory.md R84, 30_encoding.md R106), and a command in flight ends (70_reset_and_hazards.md R310).
-/

namespace Sys2Proof.Machine

/-! ## Words and commands (R101 to R104) -/

/-- Settles O1: commands by constructor, and words below 5 and from 5 on. -/
theorem commandsAndWordsCorrespond : Obligations.CommandsAndWordsCorrespond := by
  refine ⟨fun i hi => ?_, fun w => ?_⟩
  · cases i with
    | nop => exact (Laws.RoundTrip.nop hi).1
    | compress => exact (Laws.RoundTrip.compress hi).1
    | decompress => exact (Laws.RoundTrip.decompress hi).1
    | analyze => exact (Laws.RoundTrip.analyze hi).1
    | parse => exact (Laws.RoundTrip.parse hi).1
    | illegal w => exact (Laws.RoundTrip.illegal w hi).1
  · rcases lt_or_ge w.toNat 5 with hlt | hge
    · rcases decode_of_lt_five hlt with ⟨rfl, hd⟩ | ⟨rfl, hd⟩ | ⟨rfl, hd⟩ | ⟨rfl, hd⟩ | ⟨rfl, hd⟩ <;>
        exact hd ▸ ⟨rfl, rfl⟩
    · rw [decode_of_five_le hge]
      exact ⟨decide_eq_true hge, rfl⟩

/-- Settles O2, word by word. -/
theorem opcodeMapWordsDecode : Obligations.OpcodeMapWordsDecode := by
  unfold Obligations.OpcodeMapWordsDecode
  decide

/-! ## Whose turn it is (R84, R220) -/

/-- The engine's turn, with a command in flight, is the command. -/
theorem engineTurn_of_busy {s : State} (h : s.busy = true) : engineTurn s = exec (decode s.cmdword) s := if_pos h

theorem engineTurn_of_idle {s : State} (h : s.busy = false) : engineTurn s = .next s := if_neg (by simp [h])

theorem step_of_host_turn {s : State} {ts : List Turn} (h : s.turns = .host :: ts) :
    step s = .next (State.hostTurn { s with turns := ts }) := by
  rw [step, h]

theorem step_of_engine_turn {s : State} {ts : List Turn} (h : s.turns = .engine :: ts) :
    step s = engineTurn { s with turns := ts } := by
  rw [step, h]

theorem step_of_no_turn_idle {s : State} (h : s.turns = []) (hb : s.busy = false) : step s = .next s.hostTurn := by
  rw [step, h, hb]
  rfl

theorem step_of_no_turn_busy {s : State} (h : s.turns = []) (hb : s.busy = true) : step s = engineTurn s := by
  rw [step, h, hb]
  rfl

/-- Settles O4: nothing scheduled, then the engine scheduled. -/
theorem stepRunsTheDecodedCommand : Obligations.StepRunsTheDecodedCommand := fun s hb =>
  ⟨fun h => by rw [step_of_no_turn_busy h hb, engineTurn_of_busy hb],
    fun ts h => by rw [step_of_engine_turn h, engineTurn_of_busy (s := { s with turns := ts }) hb]⟩

/-! ## The host's turn (R105, R106) -/

theorem State.hostTurn_of_nil {s : State} (h : s.host = []) : s.hostTurn = s := by
  rw [State.hostTurn, h]

theorem State.hostTurn_of_txn {s : State} {x : Txn} {rest : List HostOp} (h : s.host = .txn x :: rest) :
    s.hostTurn = State.perform { s with host := rest } x := by
  rw [State.hostTurn, h]

theorem State.hostTurn_of_waitDone {s : State} {rest : List HostOp} (h : s.host = .waitDone :: rest) :
    s.hostTurn = if s.done then State.perform { s with host := rest } pollStatus else s.perform pollStatus := by
  rw [State.hostTurn, h]
  simp only [State.transact_pollStatus, Reply.bit1, State.statusWord_done]

theorem State.perform_pollStatus (s : State) :
    s.perform pollStatus = { s with replies := .read s.statusWord .okay :: s.replies } := by
  rw [State.perform, State.transact_pollStatus]

/-- Settles O6: the poll answers with the status word, whose bit 1 is DONE. -/
theorem waitDonePollsUntilDone : Obligations.WaitDonePollsUntilDone := by
  intro s rest h
  rw [State.hostTurn_of_waitDone h, State.perform_pollStatus, State.perform_pollStatus]
  split
  · rfl
  · rw [← h]

/-- Settles O60: a transaction, what performing it is, a poll, a host with nothing to do, an engine with nothing to do. -/
theorem stepPerformsTheHostTransaction : Obligations.StepPerformsTheHostTransaction := by
  refine ⟨fun s x rest h => ⟨fun ht hb => ?_, fun ts ht => ?_⟩, fun s x => ?_,
    fun s rest _ => ⟨fun ht hb => step_of_no_turn_idle ht hb, fun ts ht => step_of_host_turn ht⟩,
    fun s h => ⟨fun ht hb => ?_, fun ts ht => ?_⟩, fun s ts hb ht => ?_⟩
  · rw [step_of_no_turn_idle ht hb, State.hostTurn_of_txn h]
  · rw [step_of_host_turn ht, State.hostTurn_of_txn (s := { s with turns := ts }) h]
  · rw [State.perform, State.transact_replies]
  · rw [step_of_no_turn_idle ht hb, State.hostTurn_of_nil h]
  · rw [step_of_host_turn ht, State.hostTurn_of_nil (s := { s with turns := ts }) h]
  · rw [step_of_engine_turn ht, engineTurn_of_idle (s := { s with turns := ts }) hb]

/-! ## A command in flight ends (R310) -/

theorem State.softReset_turns (s : State) : s.softReset.turns = s.turns := by
  unfold State.softReset
  split <;> rfl

/-- The bus does not touch the schedule. -/
theorem State.perform_turns (s : State) (x : Txn) : (s.perform x).turns = s.turns := by
  by_cases hctl : x.isControl
  · rcases hctl with ⟨v, rfl⟩ | ⟨v, rfl⟩ | ⟨v, rfl⟩
    · rw [State.perform_ctrl, State.writeCtrl]
      split
      · exact s.softReset_turns
      · rfl
    · rw [State.perform_status]
      rfl
    · rw [State.perform_cmd, State.issue]
      split <;> rfl
  · rcases s.perform_cases x hctl with ⟨-, -, hp⟩ | ⟨-, _, _, _, _, _, -, hp⟩ | ⟨-, _, _, -, hp⟩ <;> rw [hp]

/-- Every step uses up one scheduled turn. -/
theorem step_turns {s t : State} (h : step s = .next t) : t.turns = s.turns.tail := by
  rcases step_cases h with ⟨-, -, hx⟩ | ⟨-, rfl⟩ | ⟨-, x, rest, -, rfl⟩ | ⟨-, -, -, rfl⟩
  · rcases exec_inversion hx with ⟨-, rfl⟩ | ⟨r, -, -, rfl⟩ | ⟨e, -, -, rfl⟩ <;> rfl
  · rfl
  · exact State.perform_turns _ x
  · rfl

theorem core_run_succ {s t : State} (h : step s = .next t) (k : Nat) : core.run (k + 1) s = core.run k t := by
  simp only [Host.Core.run, show core.step s = .next t from h]

/-- Settles O5, by induction on the schedule: with nothing scheduled the step is the completion. -/
theorem commandEndsWithinTheSchedule : Obligations.CommandEndsWithinTheSchedule := by
  intro s hb
  obtain ⟨ts, hts⟩ : ∃ ts, s.turns = ts := ⟨_, rfl⟩
  rw [hts]
  induction ts generalizing s with
  | nil =>
    obtain ⟨t, h⟩ := step_next s
    obtain ⟨hidle, -⟩ := step_completes h ⟨by simp [State.mover, hts, hb], hb⟩
    exact ⟨1, by simp, t, core_run_succ h 0, hidle⟩
  | cons o ts ih =>
    obtain ⟨t, h⟩ := step_next s
    rcases Bool.eq_false_or_eq_true t.busy with htb | htb
    · obtain ⟨k, hk, u, hrun, hu⟩ := ih t htb (by rw [step_turns h, hts, List.tail_cons])
      exact ⟨k + 1, Nat.succ_le_succ hk, u, (core_run_succ h k).trans hrun, hu⟩
    · exact ⟨1, by simp, t, core_run_succ h 0, htb⟩

end Sys2Proof.Machine
end

section
/-!
PROOFS. The two invariants of the machine: reset meets them and every step keeps them (10_state.md, 70_reset_and_hazards.md). One
lemma per kind of step for `Inv`; for `TablesOk` one per function that makes results.
-/

namespace Sys2Proof.Machine

/-! ## Resets (R290 to R293) -/

/-- A state with its registers at reset meets the invariant as soon as its memory and its draws do. -/
theorem Inv.of_registersAtReset {t : State} (h : t.registersAtReset) (hwf : t.mem.wf)
    (hin : Memory.inBuffers t.cfg t.mem)
    (hdraws : t.hostEpoch < t.draws ∧ t.outEpoch < t.draws ∧ t.extOutEpoch < t.draws) : Inv t := by
  obtain ⟨hbusy, -, hcode, hstage, -, hres, -⟩ := h.values
  have hidle : ∀ {p : Prop}, t.busy = true → p := fun hb => by rw [hbusy] at hb; cases hb
  exact ⟨hwf, hin, hidle, hidle, hidle, iff_of_true hcode hstage, by rw [hcode]; decide, fun _ => hres,
    by rw [hres]; exact Nat.zero_le _, hdraws⟩

theorem inv_resetWith (c : Config) : Inv (State.resetWith c) :=
  Inv.of_registersAtReset rfl rfl (by simp [Memory.inBuffers, State.resetWith])
    ⟨Nat.one_pos, Nat.one_pos, Nat.one_pos⟩

theorem inv_powerOnReset (s : State) : Inv s.powerOnReset :=
  Inv.of_registersAtReset s.registersAtReset_powerOnReset rfl (by simp [Memory.inBuffers]) (by simp)

/-- An abort spends two draws on the output buffers, a soft reset of an idle block none. -/
theorem Inv.softReset {s : State} (h : Inv s) : Inv s.softReset := by
  refine Inv.of_registersAtReset s.registersAtReset_softReset (State.softReset_wf h.memory) ?_ ?_ <;>
    unfold State.softReset <;> split
  · exact Memory.inBuffers_eraseRange _ _ (Memory.inBuffers_eraseRange _ _ h.buffers)
  · exact h.buffers
  · have hdraws := h.draws_spent
    simp only [State.resetRegisters_hostEpoch, State.resetRegisters_outEpoch, State.resetRegisters_extOutEpoch,
      State.resetRegisters_draws, State.forgetExtOut_hostEpoch, State.forgetExtOut_outEpoch,
      State.forgetExtOut_extOutEpoch, State.forgetExtOut_draws, State.forgetOut_hostEpoch, State.forgetOut_outEpoch,
      State.forgetOut_draws]
    omega
  · exact h.draws_spent

/-! ## Completions (R222, R263) -/

theorem Inv.retire {s : State} (h : Inv s) : Inv s.retire :=
  ⟨h.memory, h.buffers, nofun, nofun, nofun, h.code_stage, h.never_internal, h.error_clears, h.output_fits, h.draws_spent⟩

/-- A failure records a code and a stage, and leaves results and tables at reset. -/
theorem Inv.fail {i : Instr} {s : State} {e : CmdError} (h : Inv s) (hi : i ≠ .nop) (he : resultOf i s = .error e) :
    Inv (s.fail e) := by
  have hmem := resultOf_error hi he
  have hcode : e.code ≠ .none := fun h0 => by simp [h0] at hmem
  have hstage : e.stage ≠ .none := fun h0 => by simp [h0] at hmem
  have hinternal : e.code ≠ .internalError := fun h0 => by simp [h0] at hmem
  have hdraws := h.draws_spent
  exact ⟨State.fail_wf e h.memory, Memory.inBuffers_eraseRange _ _ (Memory.inBuffers_eraseRange _ _ h.buffers), nofun, nofun,
    nofun, iff_of_false hcode hstage, hinternal, fun _ => rfl, Nat.zero_le _,
    by simp only [State.fail_hostEpoch, State.fail_outEpoch, State.fail_extOutEpoch, State.fail_draws]; omega⟩

/-- A success writes inside the output buffers, and leaves the error fields of a busy block, which are 0. -/
theorem Inv.succeed {i : Instr} {s : State} {r : Success} (h : Inv s) (hb : s.busy = true) (hr : resultOf i s = .ok r) :
    Inv (s.succeed r) := by
  obtain ⟨hfits, -, hext, -⟩ := resultOf_ok hr
  have hdraws := h.draws_spent
  have hin : Memory.inBuffers s.cfg (s.succeed r).mem := by
    refine Memory.inBuffers_writeBytes (Memory.inBuffers_writeBytes (Memory.inBuffers_eraseRange _ _ h.buffers)
      fun j hj => .inr (.inl ?_)) fun j hj => .inr (.inr (.inr ?_))
    · simp only [inExtOut, extOutBase]
      omega
    · simp only [inOutBuf, outBase]
      omega
  exact ⟨s.succeed_wf r h.memory, hin, nofun, nofun, nofun, h.code_stage, h.never_internal,
    fun hne => absurd (h.busy_no_error hb) hne, (toNat_outLen_of_ok hr).trans_le hfits,
    by simp only [State.succeed_hostEpoch, State.succeed_outEpoch, State.succeed_extOutEpoch, State.succeed_draws]; omega⟩

theorem Inv.exec {i : Instr} {s t : State} (h : Inv s) (hb : s.busy = true) (hx : exec i s = .next t) : Inv t := by
  rcases exec_inversion hx with ⟨-, rfl⟩ | ⟨r, -, hr, rfl⟩ | ⟨e, hi, he, rfl⟩
  · exact h.retire
  · exact h.succeed hb hr
  · exact h.fail hi he

/-! ## Host transactions (R84) -/

/-- The host's program, the schedule and the answers are outside the block. -/
theorem Inv.withHost {s : State} (h : Inv s) (host : List HostOp) (turns : List Turn) (replies : List Reply) :
    Inv { s with host := host, turns := turns, replies := replies } :=
  ⟨h.memory, h.buffers, h.busy_not_done, h.busy_no_error, h.busy_op, h.code_stage, h.never_internal, h.error_clears,
    h.output_fits, h.draws_spent⟩

theorem Inv.clearStatus {s : State} (h : Inv s) (v : Word) : Inv (s.clearStatus v) :=
  ⟨h.memory, h.buffers, fun hb => by rw [State.clearStatus_done, h.busy_not_done hb, Bool.false_and], h.busy_no_error,
    h.busy_op, h.code_stage, h.never_internal, h.error_clears, h.output_fits, h.draws_spent⟩

/-- An accepted command clears DONE and the error fields, and latches the opcode of its word (R221). -/
theorem Inv.accept {s : State} (h : Inv s) (w : Word) : Inv (s.accept w) :=
  ⟨h.memory, h.buffers, fun _ => rfl, fun _ => rfl, fun _ => ⟨rfl, rfl⟩, iff_of_true rfl rfl, nofun,
    fun hne => absurd rfl hne, h.output_fits, h.draws_spent⟩

/-- Neither IRQ_EN, WIGN nor the input registers stand in the invariant, and free values may be drawn at any time. -/
theorem Inv.withInputs {s : State} (h : Inv s) (irqEn wign : Bool) (inLen : BitVec 32) (extLen symSel : BitVec 8)
    (nodeSel : BitVec 9) {mem : Memory} (hwf : mem.wf) (hin : Memory.inBuffers s.cfg mem) {draws : Nat}
    (hdraws : s.draws ≤ draws) :
    Inv { s with irqEn := irqEn, wign := wign, inLen := inLen, extLen := extLen, symSel := symSel, nodeSel := nodeSel,
                 mem := mem, draws := draws } :=
  have ⟨h1, h2, h3⟩ := h.draws_spent
  ⟨hwf, hin, h.busy_not_done, h.busy_no_error, h.busy_op, h.code_stage, h.never_internal, h.error_clears,
    h.output_fits, h1.trans_le hdraws, h2.trans_le hdraws, h3.trans_le hdraws⟩

/-- A write of an input buffer writes inside it (R73). -/
theorem Memory.inBuffers_writeData {c : Config} {m : Memory} {off : Nat} {size : Size} (data : Word)
    (h : Memory.inBuffers c m) (ha : bufferAccess inExtIn off size ∨ bufferAccess (inInBuf c) off size) :
    Memory.inBuffers c (Memory.writeBytes m off (writeData data size)) := by
  refine Memory.inBuffers_writeBytes h fun j hj => ?_
  rcases ha with ha | ha
  · refine .inl ?_
    cases size <;> simp only [bufferAccess, inExtIn, writeData, List.length_cons, List.length_nil] at * <;> omega
  · refine .inr (.inr (.inl ?_))
    cases size <;> simp only [bufferAccess, inInBuf, writeData, List.length_cons, List.length_nil] at * <;> omega

/-- A transaction keeps the invariant: the control writes first, then the others. -/
theorem Inv.perform {s : State} (h : Inv s) (x : Txn) : Inv (s.perform x) := by
  by_cases hctl : x.isControl
  · rcases hctl with ⟨v, rfl⟩ | ⟨v, rfl⟩ | ⟨v, rfl⟩
    · rw [State.perform_ctrl]
      refine Inv.withHost ?_ _ _ _
      rcases Bool.eq_false_or_eq_true (v.getLsbD 1) with h1 | h1
      · rw [s.writeCtrl_of_resetBit h1]
        exact h.softReset
      · rw [s.writeCtrl_of_not_resetBit h1]
        exact h.withInputs _ _ _ _ _ _ h.memory h.buffers le_rfl
    · rw [State.perform_status]
      exact (h.clearStatus v).withHost _ _ _
    · rw [State.perform_cmd]
      refine Inv.withHost ?_ _ _ _
      rcases Bool.eq_false_or_eq_true s.busy with hb | hb
      · rw [State.issue_of_busy v hb]
        exact h.withInputs _ _ _ _ _ _ h.memory h.buffers le_rfl
      · rw [State.issue_of_idle v hb]
        exact h.accept v
  · rcases s.perform_cases x hctl with
      ⟨-, -, hp⟩ | ⟨-, _, _, _, _, mem, hmem, hp⟩ | ⟨-, _, draws, hdraws, hp⟩ <;> rw [hp]
    · exact (h.withInputs _ true _ _ _ _ h.memory h.buffers le_rfl).withHost _ _ _
    · have hmem' : mem.wf ∧ Memory.inBuffers s.cfg mem := by
        rcases hmem with rfl | ⟨off, size, data, ha, rfl⟩
        · exact ⟨h.memory, h.buffers⟩
        · exact ⟨Memory.sorted_writeBytes _ _ h.memory, Memory.inBuffers_writeData data h.buffers ha⟩
      exact (h.withInputs _ _ _ _ _ _ hmem'.1 hmem'.2 le_rfl).withHost _ _ _
    · exact (h.withInputs _ _ _ _ _ _ h.memory h.buffers (draws := draws) (by omega)).withHost _ _ _

/-- Settles O58, by what a step can be. -/
theorem everyStepKeepsTheInvariant : Obligations.EveryStepKeepsTheInvariant := by
  intro s t h hstep
  have hturn : Inv s.takeTurn := h.withHost _ _ _
  rcases step_cases hstep with ⟨-, hb, hx⟩ | ⟨-, rfl⟩ | ⟨-, x, rest, -, rfl⟩ | ⟨-, -, -, rfl⟩
  · exact hturn.exec hb hx
  · exact inv_powerOnReset _
  · exact (hturn.withHost rest _ _).perform x
  · exact hturn

/-! ## The result tables (R53) -/

theorem tablesOk_reset : TablesOk Results.reset :=
  ⟨rfl, nofun, rfl, nofun, rfl, by decide, .inl ⟨rfl, rfl⟩, nofun⟩

/-- The count of leaf bytes fits `RES_NSYM`. -/
theorem toNat_nsym {k : Nat} (h : k ≤ 256) : (BitVec.ofNat 9 k).toNat = k := by
  rw [BitVec.toNat_ofNat, Nat.mod_eq_of_lt (by omega)]

/-- The tables BUILD and CODEGEN make of an input that a block can hold (R142, R148, R150). -/
theorem tablesOk_encodedResults {B : List Byte} {tb : Tables} (h : buildTables B = .ok tb) (hB : B.length < 2 ^ 32)
    (n E T pad L : Nat) : TablesOk (encodedResults n E tb T pad L) := by
  obtain ⟨-, hfreq, -⟩ := buildTables_eq_ok h
  obtain ⟨-, -, hk, hk1, hk256, hroot, -⟩ := built_spec h
  obtain ⟨hlen, hchildren⟩ := arena_children h
  obtain ⟨hfsorted, hfentries⟩ := storedFreq_entries hB
  obtain ⟨hcsorted, hcentries⟩ := code_entries h
  rw [← hfreq] at hfsorted hfentries
  refine ⟨hfsorted, hfentries, hcsorted, hcentries, ?_, ?_, .inr ?_, hchildren⟩ <;> simp only [encodedResults]
  · rw [hk, toNat_nsym hk256, hlen]
  · omega
  · rw [hroot, hlen, BitVec.toNat_ofNat, Nat.mod_eq_of_lt (by omega)]
    omega

/-- The tables of a parse: the pre-order arena of its tree, and no counts and codes (R208). -/
theorem tablesOk_parsedResults {C : List Byte} {p : Parsed} (h : parseContainer C = some p) : TablesOk (parsedResults p) := by
  obtain ⟨-, hroot, hn, -⟩ := parseContainer_sound h
  have hk := Tree.leafCount_le_of_nodup hn
  have hk1 := p.root.one_le_leafCount
  have hnodes := p.root.nodeCount_eq
  have hchildren := preorder_children p.root 0 (by omega)
  rw [← hroot, Nat.zero_add] at hchildren
  have hidx : p.root.idx = 0 := by rw [hroot, Tree.idx_numbered]
  refine ⟨rfl, nofun, rfl, nofun, ?_, ?_, .inr ?_, ?_⟩ <;>
    simp only [parsedResults, Tree.length_preorder]
  · rw [toNat_nsym hk]
    omega
  · omega
  · rw [hidx, BitVec.toNat_ofNat, Nat.zero_mod]
    omega
  · exact hchildren

/-- Neither `OUT_LEN` nor the statistics stand in the tables. -/
theorem TablesOk.withStats {r : Results} (h : TablesOk r) (outLen : BitVec 32) (orig comp : Nat) :
    TablesOk (withStats { r with outLen := outLen } orig comp) :=
  ⟨h.freq_sorted, h.freq_entries, h.code_sorted, h.code_entries, h.arena_length, h.arena_bound, h.root_valid,
    h.children_valid⟩

/-- An input in `IN_BUF` is no longer than the buffer may be. -/
theorem State.length_inputBytes_lt (s : State) : s.inputBytes.length < 2 ^ 32 := by
  rw [State.length_inputBytes]
  exact s.inLen.isLt

/-- Every success leaves its tables in their form. -/
theorem tablesOk_of_ok {i : Instr} {s : State} {r : Success} (h : resultOf i s = .ok r) : TablesOk r.res := by
  cases i with
  | nop => cases h
  | compress =>
    have hr := State.checkedInput_bind_ok h
    rcases compressBytes_cases s.cfg.outCap.val s.extensionBytes s.inputBytes with
      ⟨-, hc⟩ | ⟨tb, htb, ⟨-, hc⟩ | ⟨-, hc⟩⟩ <;> rw [hc] at hr <;> cases hr
    exact (tablesOk_encodedResults htb s.length_inputBytes_lt _ _ _ _ _).withStats _ _ _
  | decompress =>
    have hr := State.checkedInput_bind_ok h
    rcases decompressBytes_cases s.cfg.outCap.val s.inputBytes with
      ⟨-, hc⟩ | ⟨p, hp, ⟨-, hc⟩ | ⟨-, -, hc⟩ | ⟨-, out, -, -, hc⟩⟩ <;> rw [hc] at hr <;> cases hr
    exact (tablesOk_parsedResults hp).withStats _ _ _
  | analyze =>
    have hr := State.checkedInput_bind_ok h
    rcases analyzeBytes_cases s.extLen.toNat s.inputBytes with ⟨-, hc⟩ | ⟨tb, htb, hc⟩ <;> rw [hc] at hr <;> cases hr
    exact tablesOk_encodedResults htb s.length_inputBytes_lt _ _ _ _ _
  | parse =>
    have hr := State.checkedInput_bind_ok h
    rcases parseBytes_cases s.inputBytes with ⟨-, hc⟩ | ⟨p, hp, hc⟩ <;> rw [hc] at hr <;> cases hr
    exact tablesOk_parsedResults hp
  | illegal w => cases h

/-- A reset of either kind leaves results and tables at reset. -/
theorem step_resets_results {s t : State} (h : step s = .next t) (hr : s.resetsNext) : t.res = Results.reset := by
  rcases hr with hm | ⟨v, hx, h1⟩
  · rw [step_of_powerOn h hm]
    rfl
  · obtain ⟨rest, rfl⟩ := step_of_nextTxn h hx
    rw [State.perform_ctrl, State.writeCtrl_of_resetBit _ h1]
    obtain ⟨-, -, -, -, -, -, hres, -⟩ := (s.beforeTxn rest).softReset_fields
    exact hres

/-- Settles O59: only completions and resets write the tables (R304). -/
theorem everyStepKeepsTheTables : Obligations.EveryStepKeepsTheTables := by
  intro s t h hstep
  by_cases hc : s.completesNext
  · rcases exec_inversion (step_of_completesNext hstep hc) with ⟨-, rfl⟩ | ⟨r, -, hr, rfl⟩ | ⟨e, -, -, rfl⟩
    · exact h
    · exact tablesOk_of_ok hr
    · exact tablesOk_reset
  · by_cases hr : s.resetsNext
    · rw [step_resets_results hstep hr]
      exact tablesOk_reset
    · obtain ⟨hres, -⟩ := resultStateIsStable s t hstep hc hr
      rwa [hres]

/-- Settles O57, one invariant after the other. -/
theorem resetMeetsTheInvariants : Obligations.ResetMeetsTheInvariants := fun c => ⟨inv_resetWith c, tablesOk_reset⟩

/-! ## Register values after a reset (R293) -/

/-- Settles O50: after power-on, after a soft reset, after a power-on reset. -/
theorem resetRegisterValues : Obligations.ResetRegisterValues := by
  refine ⟨fun c => (State.resetWith c).readReg_resetRegisters, fun c => ⟨rfl, rfl, rfl, rfl, rfl⟩, fun s => ?_⟩
  obtain ⟨hbusy, -, -, -, hirq, hres, hreg⟩ := s.registersAtReset_softReset.values
  obtain ⟨hbusy', -, -, -, hirq', hres', hreg'⟩ := s.registersAtReset_powerOnReset.values
  obtain ⟨-, -, -, -, -, -, -, hcfg⟩ := s.softReset_fields
  rw [hcfg] at hreg
  exact ⟨fun r => ⟨hreg r, hreg' r⟩, hbusy, hbusy', hirq, hirq', hres, hres'⟩

end Sys2Proof.Machine
end

section
/-!
PROOFS. The commands (43_commands.md): NOP, how a command ends, what its outcome depends on, and the whole next state of each command
that succeeds. The results of COMPRESS and ANALYZE, and those of PARSE and DECOMPRESS, are described once.
-/

namespace Sys2Proof.Machine

/-! ## NOP (R223) -/

/-- Settles O7: NOP is `retire`, after an issue too; a set reserved bit makes its opcode illegal. -/
theorem nopCompletesAndKeepsEverything : Obligations.NopCompletesAndKeepsEverything := by
  refine ⟨by decide, exec_nop, fun s t hx => ?_, fun w _ hr => decode_of_rsvField_ne_zero hr⟩
  rw [exec_nop] at hx
  cases hx
  exact ⟨(State.err_eq_false_iff _).mpr rfl, rfl, rfl⟩

/-! ## How a command ends (R222) -/

/-- Every command completes. -/
theorem exec_next (i : Instr) (s : State) : ∃ t, exec i s = .next t := by
  rcases exec_cases i s with ⟨-, hx⟩ | ⟨-, hx⟩
  · exact ⟨_, hx⟩
  · exact ⟨_, hx⟩

theorem exec_of_error {i : Instr} {s : State} {e : CmdError} (hi : i ≠ .nop) (h : resultOf i s = .error e) :
    exec i s = .next (s.fail e) := by
  rcases exec_cases i s with ⟨hnop, -⟩ | ⟨-, hx⟩
  · exact absurd hnop hi
  · rw [hx, h, State.finish_error]

theorem failsWith_of_error {i : Instr} {s : State} {e : CmdError} (hi : i ≠ .nop) (h : resultOf i s = .error e) :
    ∃ t, exec i s = .next t ∧ FailsWith s t e.code e.stage :=
  ⟨_, exec_of_error hi h, s.failsWith_fail e⟩

/-- Settles O17: NOP and a success keep the error fields, and a failure's are in the list. -/
theorem internalErrorIsNeverRaised : Obligations.InternalErrorIsNeverRaised := by
  intro i s t hx
  rcases exec_inversion hx with ⟨-, rfl⟩ | ⟨r, -, -, rfl⟩ | ⟨e, hi, he, rfl⟩
  · exact .inl ⟨rfl, rfl⟩
  · exact .inl ⟨rfl, rfl⟩
  · exact .inr (resultOf_error hi he)

/-- An output that fits lies inside `OUT_BUF`. -/
theorem sameBytes_of_ok {i : Instr} {s : State} {r : Success} (h : resultOf i s = .ok r) :
    sameBytes s (s.succeed r) fun a => ¬ inOutBuf s.cfg a ∧ ¬ inExtOut a := by
  obtain ⟨hfits, -, hext, -⟩ := resultOf_ok h
  rintro a ⟨hout, hextOut⟩
  refine s.sameBytes_succeed r (hext.trans (by decide)) a ⟨fun hin => hout ?_, hextOut⟩
  exact ⟨hin.1, hin.2.trans_le (Nat.add_le_add_left hfits _)⟩

/-- Settles O18, by the three ways a command completes. -/
theorem everyCommandLeavesItsInputs : Obligations.EveryCommandLeavesItsInputs := by
  intro i s
  obtain ⟨t, hx⟩ := exec_next i s
  refine ⟨t, hx, ?_⟩
  rcases exec_inversion hx with ⟨-, rfl⟩ | ⟨r, -, hr, rfl⟩ | ⟨e, -, -, rfl⟩
  · exact ⟨rfl, rfl, s.sameInputs_retire, fun _ _ => rfl⟩
  · exact ⟨rfl, rfl, s.sameInputs_succeed r, sameBytes_of_ok hr⟩
  · exact ⟨rfl, rfl, s.sameInputs_fail e, (s.failsWith_fail e).others⟩

/-! ## What the outcome depends on (20_memory.md R80) -/

/-- Each command's function reads the inputs R80 lists for it. -/
theorem resultOf_congr {i : Instr} {s s' : State} (hcfg : s.cfg = s'.cfg) (hlen : s.inLen = s'.inLen)
    (hin : s.inputBytes = s'.inputBytes) (hE : i = .compress ∨ i = .analyze → s.extLen = s'.extLen)
    (hX : i = .compress → s.extensionBytes = s'.extensionBytes) : resultOf i s = resultOf i s' := by
  have hcheck : s.checkedInput = s'.checkedInput := by
    rw [State.checkedInput, State.checkedInput, State.inputLength, State.inputLength, hcfg, hlen, hin]
  cases i with
  | nop | illegal => rfl
  | compress => rw [resultOf, resultOf, compressResult, compressResult, hcheck, hcfg, hX rfl]
  | decompress => rw [resultOf, resultOf, decompressResult, decompressResult, hcheck, hcfg]
  | analyze => rw [resultOf, resultOf, analyzeResult, analyzeResult, hcheck, hE (.inr rfl)]
  | parse => rw [resultOf, resultOf, parseResult, parseResult, hcheck]

/-- Settles O20: both commands return the same, so both succeed with it or fail with it. -/
theorem resultsDependOnInputsAlone : Obligations.ResultsDependOnInputsAlone := by
  intro i s s' t t' hi hcfg hlen hin hs hs' hE hX hx hx'
  have hsame := resultOf_congr hcfg hlen hin hE hX
  rcases exec_inversion hx with ⟨hnop, -⟩ | ⟨r, -, hr, rfl⟩ | ⟨e, -, he, rfl⟩
  · exact absurd hnop hi
  · rw [hsame] at hr
    rw [exec_of_ok hr] at hx'
    cases hx'
    have hr' := hsame.trans hr
    refine ⟨rfl, hs.trans hs'.symm, fun hne => absurd hs hne, ?_, ?_⟩
    · rw [readBytes_out_of_ok hr', readBytes_out_of_ok hr]
    · rw [readBytes_ext_of_ok hr', readBytes_ext_of_ok hr]
  · rw [exec_of_error hi (hsame.symm.trans he)] at hx'
    cases hx'
    exact ⟨rfl, rfl, fun _ => rfl, rfl, rfl⟩

/-! ## Inputs that fit `IN_BUF` (R235), and how PARSE and DECOMPRESS fail on them (R198, R225) -/

section
variable {s : State} (hle : s.inLen.toNat ≤ s.cfg.inCap.val)
include hle

theorem resultOf_compress : resultOf .compress s = compressBytes s.cfg.outCap.val s.extensionBytes s.inputBytes := by
  rw [resultOf, compressResult, State.checkedInput_bind_of_le _ hle]

theorem resultOf_decompress : resultOf .decompress s = decompressBytes s.cfg.outCap.val s.inputBytes := by
  rw [resultOf, decompressResult, State.checkedInput_bind_of_le _ hle]

theorem resultOf_analyze : resultOf .analyze s = analyzeBytes s.extLen.toNat s.inputBytes := by
  rw [resultOf, analyzeResult, State.checkedInput_bind_of_le _ hle]

theorem resultOf_parse : resultOf .parse s = parseBytes s.inputBytes := by
  rw [resultOf, parseResult, State.checkedInput_bind_of_le _ hle]

/-- An input in `IN_BUF` has at most 2^28 bytes (R7). -/
theorem length_inputBytes_le : s.inputBytes.length ≤ 2 ^ 28 := by
  rw [State.length_inputBytes]
  exact hle.trans s.cfg.inCap.property.2

end

theorem parseStage_of_none {C : List Byte} (h : parseContainer C = none) :
    parseStage C = .error ⟨.invalidFormat, .deserialize⟩ := by
  rw [parseStage, h]

theorem parseStage_of_some {C : List Byte} {p : Parsed} (h : parseContainer C = some p) : parseStage C = .ok p := by
  rw [parseStage, h]

/-- Settles O13: both commands begin with DESERIALIZE. -/
theorem noContainerFailsAtDeserialize : Obligations.NoContainerFailsAtDeserialize := by
  intro s hle hnone
  have hstage := parseStage_of_none hnone
  refine ⟨failsWith_of_error (e := ⟨.invalidFormat, .deserialize⟩) (by simp) ?_,
    failsWith_of_error (e := ⟨.invalidFormat, .deserialize⟩) (by simp) ?_⟩
  · rw [resultOf_parse hle, parseBytes, hstage]
  · rw [resultOf_decompress hle, decompressBytes, hstage]

/-- Settles O15: the capacity check, then UNPACK. -/
theorem decompressFailsAtUnpack : Obligations.DecompressFailsAtUnpack := by
  intro s p hle hp
  have hstage := parseStage_of_some hp
  refine ⟨fun hlong => failsWith_of_error (e := ⟨.outputOverflow, .unpack⟩) (by simp) ?_,
    fun hn hshort => failsWith_of_error (e := ⟨.corruptPayload, .unpack⟩) (by simp) ?_⟩
  · rw [resultOf_decompress hle, decompressBytes, hstage]
    exact if_pos hlong
  · rw [resultOf_decompress hle]
    exact decompressBytes_eq_error hp hn (unpackStage_eq_error hshort)

/-! ## The results of COMPRESS and ANALYZE (R224, R226) -/

/-- What the results of COMPRESS and of ANALYZE say of an input `B`, its tables and an extension of `E` bytes, the registers read as
the numbers they spell. -/
structure EncodedAs (r : Results) (B : List Byte) (tb : Tables) (E : Nat) : Prop where
  orig : r.orig.toNat = B.length
  pad : r.pad.toNat = (8 - bitCount tb.freq tb.code % 8) % 8
  nsym : r.nsym.toNat = B.dedup.length
  bits : r.bits.toNat = bitCount tb.freq tb.code
  payloadOff : r.payloadOff.toNat = 15 + E + (3 * B.dedup.length - 1)
  arena_length : r.arena.length = 2 * B.dedup.length - 1
  root : r.root.toNat = 2 * B.dedup.length - 2
  freq : ∀ b : Byte, ((SMap.get? r.freq b.toNat).getD 0).toNat = B.count b

/-- A stored count is the count: 32 bits hold it whole (R142). -/
theorem toNat_storedFreq {B : List Byte} (hB : B.length < 2 ^ 32) (b : Byte) :
    ((SMap.get? (storedFreq (frequencies B)) b.toNat).getD 0).toNat = B.count b := by
  have hcount := countOf_frequencies B b
  have hle := List.count_le_length (a := b) (l := B)
  rw [countOf] at hcount
  rw [storedFreq_get]
  cases hget : SMap.get? (frequencies B) b.toNat with
  | none =>
    rw [hget] at hcount
    exact hcount
  | some n =>
    rw [hget, Option.getD_some] at hcount
    rw [Option.map_some, Option.getD_some, hcount, toNat_ofNat_word (by omega)]

/-- T of an input that fits a block has less than 37 bits (R160). -/
theorem bitCount_lt {B : List Byte} {tb : Tables} (h : buildTables B = .ok tb) (hB : B.length ≤ 2 ^ 28) :
    bitCount tb.freq tb.code < 2 ^ 36 := by
  obtain ⟨-, hfreq, -⟩ := buildTables_eq_ok h
  obtain ⟨-, hmax⟩ := length_codeBits_bounds h
  rw [hfreq, ← length_codeBits]
  omega

theorem toNat_pad {n : Nat} (h : n ≤ 7) : (BitVec.ofNat 3 n).toNat = n := by
  rw [BitVec.toNat_ofNat, Nat.mod_eq_of_lt (by omega)]

theorem toNat_ofNat_64 {n : Nat} (h : n < 2 ^ 64) : (BitVec.ofNat 64 n).toNat = n := by
  rw [BitVec.toNat_ofNat, Nat.mod_eq_of_lt h]

/-- No result of an input that fits a block is narrowed (log 11). -/
theorem encodedAs_encodedResults {B : List Byte} {tb : Tables} (h : buildTables B = .ok tb) (hB : B.length ≤ 2 ^ 28)
    {E : Nat} (hE : E ≤ 255) (L : Nat) :
    EncodedAs (encodedResults B.length E tb (bitCount tb.freq tb.code) (padCount (bitCount tb.freq tb.code)) L) B tb E := by
  obtain ⟨-, hfreq, -⟩ := buildTables_eq_ok h
  obtain ⟨-, -, hk, hk1, hk256, hroot, -⟩ := built_spec h
  obtain ⟨hlen, -⟩ := arena_children h
  have hT := bitCount_lt h hB
  exact {
    orig := toNat_ofNat_64 (by omega)
    pad := toNat_pad (padCount_le _)
    nsym := by rw [encodedResults, hk, toNat_nsym hk256]
    bits := toNat_ofNat_64 (by omega)
    payloadOff := by rw [encodedResults, payloadOffset, hk, toNat_ofNat_word (by omega)]
    arena_length := hlen
    root := by rw [encodedResults, hroot, BitVec.toNat_ofNat, Nat.mod_eq_of_lt (by omega)]
    freq := fun b => by rw [encodedResults, hfreq, toNat_storedFreq (by omega)] }

/-- The statistics and `OUT_LEN` are written beside these results. -/
theorem EncodedAs.withStats {r : Results} {B : List Byte} {tb : Tables} {E : Nat} (h : EncodedAs r B tb E)
    (outLen : BitVec 32) (orig comp : Nat) : EncodedAs (withStats { r with outLen := outLen } orig comp) B tb E :=
  ⟨h.orig, h.pad, h.nsym, h.bits, h.payloadOff, h.arena_length, h.root, h.freq⟩

/-- A success without an extension makes the whole of `EXT_OUT` `any`. -/
theorem State.extOut_any_succeed (s : State) {r : Success} (hx : r.ext = []) : becameAny s (s.succeed r) inExtOut := by
  obtain ⟨draw, hdraw, hany⟩ := s.ext_any_succeed r
  refine ⟨draw, hdraw, fun a ha => hany a ⟨ha, ?_⟩⟩
  rw [hx]
  exact ha.1

theorem State.inputBytes_ne_nil {s : State} (h : 1 ≤ s.inLen.toNat) : s.inputBytes ≠ [] := by
  rw [← List.length_pos_iff, State.length_inputBytes]
  exact h

theorem State.length_extensionBytes_le (s : State) : s.extensionBytes.length ≤ 255 := by
  have hlt := s.extLen.isLt
  rw [State.length_extensionBytes]
  omega

/-- PACK's padding count, from T alone (R156, R160). -/
theorem packStage_pad {B : List Byte} {tb : Tables} (h : buildTables B = .ok tb) :
    (packStage B tb.code).pad = padCount (bitCount tb.freq tb.code) := by
  obtain ⟨-, hfreq, -⟩ := buildTables_eq_ok h
  obtain ⟨-, -, -, hpad⟩ := packStage_spec B tb.code
  rw [hpad, hfreq, length_codeBits]

theorem payload_le_containerLength (E k T : Nat) : (T + 7) / 8 ≤ containerLength E k T := Nat.le_add_left _ _

/-- A container that fits is written (R224). -/
theorem compressBytes_of_fits {outCap : Nat} {X B : List Byte} {tb : Tables} (h : buildTables B = .ok tb)
    (hfits : containerLength X.length B.dedup.length (bitCount tb.freq tb.code) ≤ outCap) :
    let T := bitCount tb.freq tb.code
    let len := containerLength X.length B.dedup.length T
    compressBytes outCap X B = .ok
      ⟨withStats { encodedResults B.length X.length tb T (padCount T) ((T + 7) / 8) with outLen := BitVec.ofNat 32 len }
          B.length len,
        container X B.length (padCount T) tb.built.root (packStage B tb.code).payload, []⟩ := by
  obtain ⟨-, hfreq, -⟩ := buildTables_eq_ok h
  obtain ⟨-, hlen, hbits, -⟩ := packStage_spec B tb.code
  rw [length_codeBits, ← hfreq] at hbits
  rcases compressBytes_cases outCap X B with ⟨rfl, -⟩ | ⟨tb', h', hc⟩
  · rw [buildTables_nil] at h
    cases h
  · obtain rfl : tb' = tb := Except.ok.inj (h'.symm.trans h)
    simp only [length_container_of_buildTables h X, hlen, hbits] at hc
    rcases hc with ⟨hlong, -⟩ | ⟨-, hc⟩
    · omega
    · rw [hc, packStage_pad h]

/-- Settles O10: the results, the container in `OUT_BUF`, and the frame of a success. -/
theorem compressCompletes : Obligations.CompressCompletes := by
  intro s hpos hle
  obtain ⟨tb, h⟩ := buildTables_ok (State.inputBytes_ne_nil hpos)
  refine ⟨tb, h, fun hfits => ?_⟩
  have hcap := s.cfg.outCap.property.2
  have hB := length_inputBytes_le hle
  rw [← s.length_extensionBytes] at hfits ⊢
  rw [← s.length_inputBytes]
  have hr := (resultOf_compress hle).trans (compressBytes_of_fits h hfits)
  have henc {outLen orig comp} := (encodedAs_encodedResults h hB s.length_extensionBytes_le
    ((bitCount tb.freq tb.code + 7) / 8)).withStats outLen orig comp
  have hout := length_container_of_buildTables h s.extensionBytes
  rw [packStage_pad h] at hout
  have hext : BitVec.ofNat 8 s.extensionBytes.length = s.extLen := by simp
  refine ⟨_, exec_of_ok hr, s.completes_succeed _, (toNat_outLen_of_ok hr).trans hout, henc.orig, henc.pad, henc.nsym,
    henc.bits, henc.payloadOff,
    toNat_ofNat_word ((payload_le_containerLength _ _ _).trans_lt (hfits.trans_lt (by omega))), rfl, henc.arena_length,
    henc.root, rfl, rfl, henc.freq, hasStats_withStats _ (by omega) (by omega), ?_, s.extOut_any_succeed rfl, ?_⟩
  · rw [← hext, ← container_eq_fields, ← hout]
    exact s.readBytes_out_succeed _
  · rw [← hout]
    exact s.sameBytes_succeed _ (Nat.zero_le _)

/-- Settles O11: the results, no output, and the frame of a success. -/
theorem analyzeCompletes : Obligations.AnalyzeCompletes := by
  intro s hpos hle
  have hne := State.inputBytes_ne_nil hpos
  obtain ⟨tb, h⟩ := buildTables_ok hne
  refine ⟨tb, h, ?_⟩
  have hr : resultOf .analyze s = .ok ⟨encodedResults s.inputBytes.length s.extLen.toNat tb (bitCount tb.freq tb.code)
      (padCount (bitCount tb.freq tb.code)) (payloadLength (bitCount tb.freq tb.code)), [], []⟩ := by
    rw [resultOf_analyze hle, analyzeBytes, h]
  have hE : s.extLen.toNat ≤ 255 := Nat.le_of_lt_succ s.extLen.isLt
  have henc := encodedAs_encodedResults h (length_inputBytes_le hle) hE (payloadLength (bitCount tb.freq tb.code))
  refine ⟨_, exec_of_ok hr, s.completes_succeed _, rfl, henc.orig.trans s.length_inputBytes, henc.pad, henc.nsym,
    henc.bits, henc.payloadOff, congrArg (BitVec.ofNat 32) (payloadLength_eq _), rfl, henc.arena_length, henc.root, rfl, rfl,
    henc.freq, ⟨rfl, rfl, rfl, rfl⟩, s.extOut_any_succeed rfl, fun a ha => ?_⟩
  refine s.sameBytes_succeed _ (Nat.zero_le _) a ⟨fun hin => ?_, ha⟩
  exact absurd (hin.1.trans_lt hin.2) (lt_irrefl _)

/-! ## The results of PARSE and DECOMPRESS (R225, R227) -/

/-- What the results of PARSE and of DECOMPRESS say of a container of `len` bytes that parses to `p`. -/
structure ParsedAs (r : Results) (p : Parsed) (len : Nat) : Prop where
  orig : r.orig.toNat = p.n
  pad : r.pad.toNat = p.pad
  nsym : r.nsym.toNat = p.root.leafCount
  bits : r.bits.toNat = 8 * (len - p.off) - p.pad
  payloadOff : r.payloadOff.toNat = p.off
  payloadLen : r.payloadLen.toNat = len - p.off
  extLen : r.extLen.toNat = p.ext.length
  arena : r.arena = p.root.preorder
  stored : p.root.storedIn r.arena
  root : r.root = 0
  freq : r.freq = []
  code : r.code = []

/-- The payload is what stands from the payload offset on (R209). -/
theorem length_payload_of_parse {C : List Byte} {p : Parsed} (h : parseContainer C = some p) :
    p.payload.length = C.length - p.off ∧ p.off ≤ C.length := by
  obtain ⟨hC, -, -, -, -, -, -, hoff⟩ := parseContainer_sound h
  have hlen := congrArg List.length hC
  rw [length_container] at hlen
  omega

/-- No result of a container that fits a block is narrowed (log 11). -/
theorem parsedAs_parsedResults {C : List Byte} {p : Parsed} (h : parseContainer C = some p) (hC : C.length ≤ 2 ^ 28) :
    ParsedAs (parsedResults p) p C.length := by
  obtain ⟨-, hroot, hn, hext, -, hn64, hpad, -⟩ := parseContainer_sound h
  obtain ⟨hlen, hoff⟩ := length_payload_of_parse h
  have hidx : p.root.idx = 0 := by rw [hroot, Tree.idx_numbered]
  exact {
    orig := toNat_ofNat_64 hn64
    pad := toNat_pad hpad
    nsym := toNat_nsym (Tree.leafCount_le_of_nodup hn)
    bits := by rw [parsedResults, hlen, availBits, toNat_ofNat_64 (by omega)]
    payloadOff := toNat_ofNat_word (by omega)
    payloadLen := by rw [parsedResults, hlen, toNat_ofNat_word (by omega)]
    extLen := Byte.toNat_ofNat_of_le hext
    arena := rfl
    stored := parseContainer_storedIn h
    root := congrArg (BitVec.ofNat 9) hidx
    freq := rfl
    code := rfl }

/-- The statistics and `OUT_LEN` are written beside these results. -/
theorem ParsedAs.withStats {r : Results} {p : Parsed} {len : Nat} (h : ParsedAs r p len) (outLen : BitVec 32)
    (orig comp : Nat) : ParsedAs (withStats { r with outLen := outLen } orig comp) p len :=
  ⟨h.orig, h.pad, h.nsym, h.bits, h.payloadOff, h.payloadLen, h.extLen, h.arena, h.stored, h.root, h.freq, h.code⟩

/-- Settles O12: the results, the extension, and the frame of a success. -/
theorem parseCompletes : Obligations.ParseCompletes := by
  intro s p hle hp
  have hr : resultOf .parse s = .ok ⟨parsedResults p, [], p.ext⟩ := by
    rw [resultOf_parse hle, parseBytes, parseStage_of_some hp]
  have hpar := parsedAs_parsedResults hp (length_inputBytes_le hle)
  rw [s.length_inputBytes] at hpar
  obtain ⟨-, -, -, hext, -⟩ := parseContainer_sound hp
  refine ⟨_, exec_of_ok hr, s.completes_succeed _, rfl, hpar.orig, hpar.pad, hpar.nsym, hpar.bits, hpar.payloadOff,
    hpar.payloadLen, hpar.extLen, hpar.arena, hpar.stored, hpar.root, hpar.freq, hpar.code, ⟨rfl, rfl, rfl, rfl⟩,
    s.readBytes_ext_succeed _ (hext.trans (by decide)), s.ext_any_succeed _, fun a ha => ?_⟩
  refine s.sameBytes_succeed _ (hext.trans (by decide)) a ⟨fun hin => ?_, ha⟩
  exact absurd (hin.1.trans_lt hin.2) (lt_irrefl _)

/-- Settles O14: the results, both outputs, and the frame of a success. -/
theorem decompressCompletes : Obligations.DecompressCompletes := by
  intro s p out hle hp hn hunpack
  have hr : resultOf .decompress s = .ok
      ⟨withStats { parsedResults p with outLen := BitVec.ofNat 32 p.n } p.n s.inputBytes.length, out, p.ext⟩ := by
    rw [resultOf_decompress hle, decompressBytes, parseStage_of_some hp]
    simp only [if_neg (not_lt.mpr hn), hunpack]
  have hout : out.length = p.n := (unpackLoop_append (more := []) (unpackStage_eq_ok_iff.mp hunpack)).2
  have hcap := s.cfg.outCap.property.2
  have hC := length_inputBytes_le hle
  have hpar := (parsedAs_parsedResults hp hC).withStats (BitVec.ofNat 32 p.n) p.n s.inputBytes.length
  rw [s.length_inputBytes] at hpar hr hC
  obtain ⟨-, -, -, hext, -⟩ := parseContainer_sound hp
  refine ⟨_, exec_of_ok hr, s.completes_succeed _, (toNat_outLen_of_ok hr).trans hout, hpar.orig, hpar.pad, hpar.nsym,
    hpar.bits, hpar.payloadOff, hpar.payloadLen, hpar.extLen, hpar.arena, hpar.stored, hpar.root, hpar.freq, hpar.code,
    hasStats_withStats _ (by omega) (by omega), hout, ?_, s.readBytes_ext_succeed _ (hext.trans (by decide)),
    s.ext_any_succeed _, ?_⟩
  · rw [← hout]
    exact s.readBytes_out_succeed _
  · rw [← hout]
    exact s.sameBytes_succeed _ (hext.trans (by decide))

end Sys2Proof.Machine
end

section
/-!
PROOFS. BUILD and UNPACK (40_encoder.md section 2, 41_decoder.md): an extraction takes the least active node, every node BUILD makes is
the merge of the two least, its arena holds its tree, and UNPACK decodes the codes.
-/

namespace Sys2Proof.Machine

/-! ## Extraction (R144) -/

/-- The order of extraction, as a proposition: the pair of weight and index, lexicographically. -/
def Tree.precedes (t u : Tree) : Prop := t.weight < u.weight ∨ (t.weight = u.weight ∧ t.idx < u.idx)

theorem Tree.before_iff (t u : Tree) : t.before u = true ↔ t.precedes u := by
  simp [Tree.before, Tree.precedes]

theorem Tree.precedes_trans {t u v : Tree} (htu : t.precedes u) (huv : u.precedes v) : t.precedes v := by
  unfold Tree.precedes at *
  omega

/-- Of two nodes with different indices one precedes the other. -/
theorem Tree.precedes_of_not_before {t u : Tree} (hne : t.idx ≠ u.idx) (h : ¬ u.before t = true) : t.precedes u := by
  rw [Tree.before_iff] at h
  unfold Tree.precedes at *
  omega

/-- The extracted node is, or precedes, each of the nodes, once it precedes those it leaves. -/
theorem extractMin_le {t v : Tree} {ts : List Tree} (h : ∀ u ∈ (extractMin t ts).2, (extractMin t ts).1.precedes u)
    (hv : v ∈ t :: ts) : v = (extractMin t ts).1 ∨ (extractMin t ts).1.precedes v := by
  rcases List.mem_cons.mp ((extractMin_perm t ts).mem_iff.mpr hv) with heq | hmem
  · exact .inl heq
  · exact .inr (h v hmem)

/-- The extracted node precedes those it leaves: the candidate changes only to a node that precedes it. -/
theorem extractMin_precedes {t : Tree} {ts : List Tree} (hn : ((t :: ts).map Tree.idx).Nodup) :
    ∀ u ∈ (extractMin t ts).2, (extractMin t ts).1.precedes u := by
  induction ts generalizing t with
  | nil => exact fun _ hu => absurd hu List.not_mem_nil
  | cons u us ih =>
    simp only [List.map_cons, List.nodup_cons, List.mem_cons, not_or] at hn
    obtain ⟨⟨htu, htus⟩, huus, hus⟩ := hn
    simp only [extractMin]
    split
    · rename_i hut
      have hmin := ih (List.nodup_cons.mpr ⟨huus, hus⟩)
      have hmin_t : (extractMin u us).1.precedes t := by
        rcases extractMin_le hmin (List.mem_cons_self ..) with heq | hlt
        · exact heq ▸ (Tree.before_iff u t).mp hut
        · exact Tree.precedes_trans hlt ((Tree.before_iff u t).mp hut)
      exact List.forall_mem_cons.mpr ⟨hmin_t, hmin⟩
    · rename_i hut
      have hmin := ih (List.nodup_cons.mpr ⟨htus, hus⟩)
      have htu' := Tree.precedes_of_not_before htu hut
      have hmin_u : (extractMin t us).1.precedes u := by
        rcases extractMin_le hmin (List.mem_cons_self ..) with heq | hlt
        · exact heq ▸ htu'
        · exact Tree.precedes_trans hlt htu'
      exact List.forall_mem_cons.mpr ⟨hmin_u, hmin⟩

/-- Settles O22: extraction rearranges the nodes, and takes the least. -/
theorem extractionTakesTheSmallest : Obligations.ExtractionTakesTheSmallest := fun t ts hn =>
  ⟨extractMin_perm t ts, extractMin_precedes hn⟩

/-! ## The merges (R144, R146) -/

/-- What one merge does to active nodes with distinct indices: it takes the two least. -/
theorem mergeLoop_succ_least (fuel next : Nat) (arena : List Node) (t u : Tree) (us : List Tree)
    (hn : ((t :: u :: us).map Tree.idx).Nodup) :
    ∃ x y rest, (x :: y :: rest).Perm (t :: u :: us) ∧ rest.length = us.length ∧ x.precedes y ∧
      (∀ v ∈ rest, y.precedes v) ∧
      mergeLoop (fuel + 1) next arena t (u :: us) =
        mergeLoop fuel (next + 1) (arena ++ [(mergeNodes next x y).toNode]) (mergeNodes next x y) rest := by
  have hp := extractMin_perm t (u :: us)
  have hlen := length_extractMin t (u :: us)
  have hmin := extractMin_precedes hn
  simp only [mergeLoop]
  generalize extractMin t (u :: us) = e at hp hlen hmin
  obtain ⟨x, others⟩ := e
  cases others with
  | nil => cases hlen
  | cons v vs =>
    have hp' := extractMin_perm v vs
    have hn' : ((v :: vs).map Tree.idx).Nodup := by
      have hnx := ((hp.map Tree.idx).nodup_iff).mpr hn
      exact (List.nodup_cons.mp hnx).2
    refine ⟨x, (extractMin v vs).1, (extractMin v vs).2, (hp'.cons x).trans hp, ?_,
      hmin _ (hp'.subset (List.mem_cons_self ..)), extractMin_precedes hn', rfl⟩
    rw [length_extractMin]
    exact Nat.succ.inj hlen

/-- BUILD from an arena and its active nodes: the arena grows, ends up holding the tree, and every node added is a merge. -/
theorem mergeLoop_merges (fuel : Nat) (A : List Node) (t : Tree) (ts : List Tree) (hlen : ts.length = fuel)
    (h : ActiveNodes A (t :: ts)) (hbound : A.length + fuel ≤ 512) (hsum : activeSum Tree.weight (t :: ts) < 2 ^ 32) :
    A <+: (mergeLoop fuel A.length A t ts).arena ∧
      (mergeLoop fuel A.length A t ts).root.storedIn (mergeLoop fuel A.length A t ts).arena ∧
      ∀ j, A.length ≤ j → j < A.length + fuel → isMergeAt (mergeLoop fuel A.length A t ts).arena j := by
  induction fuel generalizing A t ts with
  | zero => exact ⟨List.prefix_rfl, h.stored t (List.mem_cons_self ..), fun j hj hj' => absurd hj' (not_lt.mpr hj)⟩
  | succ fuel ih =>
    cases ts with
    | nil => cases hlen
    | cons u us =>
      obtain ⟨x, y, rest, hp, hrest, hxy, hy, heq⟩ := mergeLoop_succ_least fuel A.length A t u us h.nodup
      rw [← activeSum_perm hp] at hsum
      simp only [activeSum, List.map_cons, List.sum_cons] at hsum
      obtain ⟨hactive, hmerge⟩ := (h.perm hp).merge (by omega) (by omega) hxy hy
      have hA' : (A ++ [(mergeNodes A.length x y).toNode]).length = A.length + 1 := by simp
      have hnext := ih (A ++ [(mergeNodes A.length x y).toNode]) (mergeNodes A.length x y) rest
        (by rw [hrest]; exact Nat.succ.inj hlen) hactive (by omega)
        (by simp only [activeSum, List.map_cons, List.sum_cons, weight_mergeNodes]; omega)
      rw [hA', ← heq] at hnext
      obtain ⟨hprefix, hstored, hmerges⟩ := hnext
      refine ⟨(List.prefix_append _ _).trans hprefix, hstored, fun j hj hj' => ?_⟩
      rcases hj.eq_or_lt with rfl | hlt
      · obtain ⟨tail, htail⟩ := hprefix
        rw [← htail]
        exact isMergeAt_append (by omega) tail hmerge
      · exact hmerges j hlt (by omega)

/-- A count is at most the length of the input. -/
theorem count_le_of_mem_frequencies {B : List Byte} {e : Nat × Nat} (he : e ∈ frequencies B) : e.2 ≤ B.length := by
  obtain ⟨b, -, rfl⟩ := mem_frequencies_iff.mp he
  exact List.count_le_length

/-- The arena BUILD makes of an input that fits a block: it holds the tree, and its nodes after the leaves are merges. -/
theorem built_merges {B : List Byte} {tb : Tables} (h : buildTables B = .ok tb) (hB : B.length ≤ 2 ^ 28) :
    tb.built.root.storedIn tb.built.arena ∧
      ∀ j, B.dedup.length ≤ j → j < 2 * B.dedup.length - 1 → isMergeAt tb.built.arena j := by
  obtain ⟨-, -, -, t, ts, hl, hb⟩ := buildTables_eq_ok h
  obtain ⟨-, -, -, -, h256, -⟩ := built_spec h
  have hk : ((t :: ts).map Tree.toNode).length = B.dedup.length := by
    rw [← hl, List.length_map, length_leavesFrom, length_frequencies]
  have hk' : ts.length + 1 = B.dedup.length := by simpa using hk
  have hactive : ActiveNodes ((t :: ts).map Tree.toNode) (t :: ts) := by
    rw [← hl]
    exact ActiveNodes.leaves fun e he => (count_le_of_mem_frequencies he).trans_lt (by omega)
  have hsum : activeSum Tree.weight (t :: ts) = B.length := by
    rw [← hl, activeSum, leavesFrom_weight, sum_frequencies]
  obtain ⟨-, hstored, hmerges⟩ := mergeLoop_merges ts.length _ t ts rfl hactive (by omega) (by omega)
  rw [hk, ← hk', ← hb] at hstored hmerges
  exact ⟨hstored, fun j hj hj' => hmerges j (by omega) (by omega)⟩

/-- The leaves at the start of the arena: the bytes that occur, in ascending order, with their counts (R143). -/
theorem leaves_of_frequencies (B : List Byte) :
    ((frequencies B).map fun e => Node.leaf (BitVec.ofNat 8 e.1) (BitVec.ofNat 32 e.2)) =
      (tableBytes (frequencies B)).map fun b => Node.leaf b (BitVec.ofNat 32 (B.count b)) := by
  rw [tableBytes, List.map_map]
  refine List.map_congr_left fun e he => ?_
  obtain ⟨b, -, rfl⟩ := mem_frequencies_iff.mp he
  simp

/-- Settles O23: the leaves, the nodes after them, and that these are merges. -/
theorem builtArenaShape : Obligations.BuiltArenaShape := by
  intro B tb h
  obtain ⟨hnodup, -, hleaves, hk, -, hroot, -, tail, harena, htail, hinternal⟩ := built_spec h
  obtain ⟨hlen, -⟩ := arena_children h
  have hbytes : (tableBytes (frequencies B)).length = B.dedup.length := by
    rw [tableBytes, List.length_map, length_frequencies]
  rw [leaves_of_frequencies] at harena
  refine ⟨hlen, hroot, hleaves,
    ⟨tableBytes (frequencies B), hbytes, tableBytes_pairwise B, fun b => mem_tableBytes, ?_⟩, fun j hj hj' => ?_,
    fun hB => (built_merges h hB).2, hnodup⟩
  · rw [harena, List.take_left' (by rw [List.length_map, hbytes])]
  · obtain ⟨w, l, r, hget, hl, hr⟩ := hinternal (j - B.dedup.length) (by omega)
    refine ⟨w, l, r, ?_, by omega, by omega⟩
    rw [harena, List.getElem?_append_right (by rw [List.length_map, hbytes]; exact hj), List.length_map, hbytes]
    exact hget

/-- Settles O24: the weights, and the arena. -/
theorem weightsSumToTheLength : Obligations.WeightsSumToTheLength := by
  intro B tb h
  obtain ⟨-, -, -, -, -, -, hweight, -⟩ := built_spec h
  obtain ⟨-, -, -, t, ts, hl, hb⟩ := buildTables_eq_ok h
  refine ⟨hweight, ?_, fun hB => (built_merges h hB).1⟩
  rw [hb]
  refine mergeLoop_weighted B.length _ _ _ t ts (fun u hu => ?_) ?_
  · rw [← hl] at hu
    obtain ⟨i, e, he, rfl⟩ := mem_leavesFrom hu
    obtain ⟨-, hpos⟩ := mem_frequencies he
    exact ⟨⟨hpos, count_le_of_mem_frequencies he⟩, hpos⟩
  · rw [← hl, activeSum, leavesFrom_weight, sum_frequencies]

/-! ## UNPACK (R173, R174) -/

/-- Settles O28: a single leaf, two or more leaves, the codes as paths, and the stream bits. -/
theorem unpackDecodesTheCodes : Obligations.UnpackDecodesTheCodes := by
  refine ⟨fun t P out pad n hn => ?_, fun t b hn hb hk => ?_, getElem?_streamBits⟩
  · rw [unpackStage_eq_ok_iff]
    cases t with
    | leaf i b w =>
      rw [unpackLoop_leaf, length_dataBits]
      split
      · simp only [Option.some.injEq]
        exact ⟨fun h => ⟨h.symm, ‹_›⟩, fun h => h.1.symm⟩
      · simp only [reduceCtorEq, false_iff]
        exact fun h => absurd h.2 ‹_›
    | node i w l r =>
      rw [unpackLoop_node_iff _ _ _ _ _ _ _ hn]
      refine and_congr_right fun _ => and_congr_right fun hmem => ?_
      rw [← codeBits_codegen_node hn hmem]
      rfl
  · rw [codeOf_codegenStage_path hn hk hb]
    exact Tree.leadsTo_path hb

end Sys2Proof.Machine
end

section
/-!
PROOFS. The host bus and the register window (20_memory.md, 10_state.md): what reads answer, idle and busy, what idle writes store, and
the two readout windows.
-/

namespace Sys2Proof.Machine

/-! ## Reads of buffers (R73, R75, R83, R302) -/

/-- The first byte of a buffer access lies in the buffer. -/
theorem bufferAccess.start {p : Nat → Prop} {off : Nat} {size : Size} (h : bufferAccess p off size) : p off := by
  cases size with
  | byte => exact h
  | word => exact h.2.1

/-- While busy a read of an output buffer answers with a free value (R302). -/
theorem State.transact_outputRead_of_busy {s : State} {off : Word} {size : Size} (hb : s.busy = true)
    (h : bufferAccess inExtOut off.toNat size ∨ bufferAccess (inOutBuf s.cfg) off.toNat size) :
    s.transact (.read off size) = s.readWhileBusy size := by
  have ha : accessible s.cfg off.toNat size = true := by
    rw [accessible_iff]
    exact h.elim (fun h => .inr (.inr (.inl h))) fun h => .inr (.inr (.inr (.inr h)))
  rw [State.transact, State.busRead, if_pos ha]
  rcases h with h | h
  · rw [regionOf_eq_extOut.mpr h.start]
    exact if_pos hb
  · rw [regionOf_eq_outBuf.mpr h.start]
    exact if_pos hb

/-- An idle read leaves the whole state alone (R83). -/
theorem State.transact_read_of_idle {s : State} (hb : s.busy = false) (off : Word) (size : Size) :
    (s.transact (.read off size)).2 = s :=
  (s.busRead_state off.toNat size).2 hb

/-- What a read answers does not hang on what the bus has answered before. -/
theorem State.transact_read_withReplies (s : State) (replies : List Reply) (off : Word) (size : Size) :
    (State.transact { s with replies := replies } (.read off size)).1 = (s.transact (.read off size)).1 := by
  simp only [State.transact, State.busRead, State.readReg_withReplies]
  split
  · split
    · split <;> rfl
    · split <;> rfl
    · split <;> rfl
    all_goals rfl
  · rfl

/-- A read leaves all but the list of answers and the count of draws (R83). -/
theorem State.perform_read (s : State) (off : Word) (size : Size) :
    ∃ rep draws, s.perform (.read off size) = { s with replies := rep :: s.replies, draws := draws } := by
  rw [State.perform, State.transact]
  rcases (s.busRead_state off.toNat size).1 with h | h
  · rw [h]
    exact ⟨_, s.draws, rfl⟩
  · rw [h]
    exact ⟨_, s.draws + 1, rfl⟩

/-- Settles O37: what a read changes, that an idle one can be repeated, and the bytes of a true buffer read. -/
theorem readsHaveNoSideEffect : Obligations.ReadsHaveNoSideEffect := by
  refine fun s off size => ⟨s.perform_read off size, fun hb => ⟨State.transact_read_of_idle hb off size, ?_⟩,
    s.transact_trueBufferRead off .byte, fun h => ⟨_, s.transact_trueBufferRead off .word h, s.readBuffer_word _⟩⟩
  rw [State.perform, State.transact_read_of_idle hb, State.transact_read_withReplies]

/-! ## Reads of the register window (R21, R51, R302) -/

/-- A word read at each of some offsets gives the register there, when the block is idle or none of them is a result register. -/
theorem State.transact_read_rows (s : State) (rows : List (Word × Reg))
    (hrows : ∀ e ∈ rows, e.1.toNat < 0x100 ∧ e.1.toNat % 4 = 0 ∧ regAt e.1.toNat = e.2)
    (hb : s.busy = false ∨ ∀ e ∈ rows, e.2.isResult = false) :
    ∀ q ∈ rows.map fun e => (e.1, s.readReg e.2), s.transact (.read q.1 .word) = (.read q.2 .okay, s) := by
  refine List.forall_mem_map.mpr fun e he => ?_
  obtain ⟨hlt, h4, hreg⟩ := hrows e he
  rw [s.transact_read_reg e.1 hlt h4 (hb.imp_right fun h => hreg ▸ h e he), hreg]

/-- One row, idle. -/
theorem State.transact_read_row {s : State} (hb : s.busy = false) {off : Word} {r : Reg} (hlt : off.toNat < 0x100)
    (h4 : off.toNat % 4 = 0) (hreg : regAt off.toNat = r) : s.transact (.read off .word) = (.read (s.readReg r) .okay, s) := by
  rw [s.transact_read_reg off hlt h4 (.inl hb), hreg]

/-- The reserved offsets read 0 at any time (R51). -/
theorem State.transact_read_reserved (s : State) {off : Word} (h : reservedOffset off.toNat) :
    s.transact (.read off .word) = (.read 0 .okay, s) := by
  have hreg := regAt_reservedOffset h
  obtain ⟨h4, -, hle⟩ := h
  rw [s.transact_read_reg off (by omega) h4 (.inr (by rw [hreg]; rfl)), hreg]
  rfl

/-- The rows at the offsets of the R-res registers are result registers. -/
theorem isResult_regAt {off : Nat} (h : resultOffset off) : (regAt off).isResult = true := by
  have hrows : ∀ k < 43, (9 ≤ k ∧ k ≤ 26 ∨ 28 ≤ k ∧ k ≤ 37 ∨ 39 ≤ k ∧ k ≤ 42) → (regAt (4 * k)).isResult = true := by
    decide
  obtain ⟨h4, hrange⟩ := h
  have hk := hrows (off / 4) (by omega) (by omega)
  rwa [Nat.mul_div_cancel' (Nat.dvd_of_mod_eq_zero h4)] at hk

/-- While busy a read of a result register answers with a free value (R302). -/
theorem State.transact_resultRead_of_busy {s : State} {off : Word} (hb : s.busy = true) (h : resultOffset off.toNat) :
    s.transact (.read off .word) = s.readWhileBusy .word := by
  have hres := isResult_regAt h
  obtain ⟨h4, hrange⟩ := h
  have hr : regionOf s.cfg off.toNat = .regs := regionOf_eq_regs.mpr (by omega)
  simp [State.transact, State.busRead, accessible, hr, h4, hb, hres]

/-- Settles O39: result registers, output buffers, input buffers, reserved offsets, and the other rows. -/
theorem readsWhileBusy : Obligations.ReadsWhileBusy := fun s off size hb =>
  ⟨State.transact_resultRead_of_busy hb, State.transact_outputRead_of_busy hb,
    fun h => s.transact_trueBufferRead off size (h.imp_right .inl), s.transact_read_reserved,
    s.transact_read_rows
      [(0x000, .id), (0x004, .version), (0x008, .inCap), (0x00C, .outCap), (0x010, .ctrl), (0x014, .status), (0x018, .cmd),
        (0x01C, .inLen), (0x020, .extLen), (0x06C, .symSel), (0x098, .nodeSel)]
      (by decide) (.inr (by decide))⟩

/-- Settles O41: the rows by groups, NODE_COUNT, and the reserved offsets. -/
theorem registerMapReads : Obligations.RegisterMapReads := by
  refine fun s hb => ⟨?_, ?_,
    fun hlen => ⟨_, State.transact_read_row hb (r := .nodeCount) (by decide) (by decide) (by decide), ?_⟩,
    fun off => s.transact_read_reserved⟩
  · exact s.transact_read_rows
      [(0x000, .id), (0x004, .version), (0x008, .inCap), (0x00C, .outCap), (0x010, .ctrl), (0x014, .status), (0x018, .cmd),
        (0x01C, .inLen), (0x020, .extLen), (0x024, .outLen), (0x028, .resOrigLo), (0x02C, .resOrigHi), (0x030, .resPad),
        (0x034, .resNsym), (0x038, .resBitsLo), (0x03C, .resBitsHi), (0x040, .resPayloadOff), (0x044, .resPayloadLen),
        (0x048, .resExtLen)]
      (by decide) (.inl hb)
  · exact s.transact_read_rows
      [(0x050, .root), (0x054, .statOrig), (0x058, .statComp), (0x05C, .statSavedLo), (0x060, .statSavedHi),
        (0x064, .statRatioLo), (0x068, .statRatioHi), (0x06C, .symSel), (0x098, .nodeSel)]
      (by decide) (.inl hb)
  · rw [State.readReg, BitVec.toNat_setWidth, BitVec.toNat_ofNat]
    omega

/-! ## Writes of registers (R25, R26) -/

/-- An idle write of one row. -/
theorem State.transact_write_row (s : State) {off : Word} {r : Reg} (v : Word) (hlt : off.toNat < 0x100)
    (h4 : off.toNat % 4 = 0) (hreg : regAt off.toNat = r) :
    s.transact (.write off .word v) = (.write .okay, s.writeReg v r) := by
  rw [s.transact_write_reg off v hlt h4, hreg]

/-- Settles O43, row by row. -/
theorem inputRegistersKeepTheirFields : Obligations.InputRegistersKeepTheirFields := by
  intro s v hb
  have h8 : v.extractLsb' 0 8 = v.setWidth 8 := (BitVec.setWidth_eq_extractLsb' (by decide)).symm
  have h9 : v.extractLsb' 0 9 = v.setWidth 9 := (BitVec.setWidth_eq_extractLsb' (by decide)).symm
  rw [h8, h9, s.transact_write_row v (r := .inLen) (by decide) (by decide) (by decide),
    s.transact_write_row v (r := .extLen) (by decide) (by decide) (by decide),
    s.transact_write_row v (r := .symSel) (by decide) (by decide) (by decide),
    s.transact_write_row v (r := .nodeSel) (by decide) (by decide) (by decide)]
  simp only [State.writeReg, State.unlessBusy_of_idle _ hb, and_self]

theorem State.toNat_ctrlWord (s : State) : s.ctrlWord.toNat = s.irqEn.toNat := by
  rw [State.ctrlWord]
  cases s.irqEn <;> decide

theorem State.softReset_irqEn (s : State) : s.softReset.irqEn = false := by
  unfold State.softReset
  split <;> rfl

/-- Settles O47: the read, then the write with bit 1 clear and with bit 1 set. -/
theorem controlRegister : Obligations.ControlRegister := by
  refine fun s v => ⟨⟨_, s.transact_read_reg _ (by decide) (by decide) (.inr (by decide)), s.toNat_ctrlWord⟩, fun h1 => ?_,
    fun h1 => ⟨?_, s.softReset_irqEn⟩⟩
  · rw [State.transact_write_ctrl, s.writeCtrl_of_not_resetBit h1]
  · rw [State.transact_write_ctrl, s.writeCtrl_of_resetBit h1]

/-! ## Writes of input buffers (R75) -/

/-- An idle write of an input buffer writes its bytes into memory. -/
theorem State.perform_bufferWrite {s : State} {off : Word} {size : Size}
    (h : bufferAccess inExtIn off.toNat size ∨ bufferAccess (inInBuf s.cfg) off.toNat size) (data : Word)
    (hb : s.busy = false) :
    s.perform (.write off size data) =
      { s with mem := Memory.writeBytes s.mem off.toNat (writeData data size), replies := .write .okay :: s.replies } := by
  have hbus : s.busWrite off.toNat size data =
      (.write .okay, { s with mem := Memory.writeBytes s.mem off.toNat (writeData data size) }) := by
    rcases s.busWrite_cases off.toNat size data with ⟨hn, -⟩ | ⟨hreg, -⟩ | ⟨-, hw⟩
    · exact absurd (.inr h) hn
    · have hge : 0x100 ≤ off.toNat := by
        rcases h with h | h
        · exact h.start.1
        · exact le_trans (by decide) h.start.1
      cases size with
      | byte => exact hreg.elim
      | word => exact absurd hreg.1 (not_lt.mpr hge)
    · rw [hw, State.unlessBusy_of_idle _ hb]
  rw [State.perform, State.transact, hbus]

/-- Written bytes read as written. -/
theorem State.byteAt_of_written {t : State} {m : Memory} {a i : Nat} {bs : List Byte} {b : Byte}
    (hm : t.mem = Memory.writeBytes m a bs) (hi : bs[i]? = some b) : t.byteAt (a + i) = b := by
  have hlt := (List.getElem?_eq_some_iff.mp hi).1
  refine State.byteAt_of_some ?_
  rw [hm, Memory.get?_writeBytes, if_pos (by omega), Nat.add_sub_cancel_left, hi]

/-- Other bytes read as before. -/
theorem State.byteAt_of_not_written {s t : State} {a b : Nat} {bs : List Byte} (hm : t.mem = Memory.writeBytes s.mem a bs)
    (he : t.epochAt b = s.epochAt b) (hb : ¬ (a ≤ b ∧ b < a + bs.length)) : t.byteAt b = s.byteAt b :=
  State.byteAt_congr (by rw [hm, Memory.get?_writeBytes, if_neg hb]) he

/-- A word is its four bytes. -/
theorem Word.eq_of_bytes {v w : Word} (h0 : v.extractLsb' 0 8 = w.extractLsb' 0 8)
    (h1 : v.extractLsb' 8 8 = w.extractLsb' 8 8) (h2 : v.extractLsb' 16 8 = w.extractLsb' 16 8)
    (h3 : v.extractLsb' 24 8 = w.extractLsb' 24 8) : v = w := by
  have hv := v.isLt
  have hw := w.isLt
  have hbyte : ∀ k, v.extractLsb' k 8 = w.extractLsb' k 8 → v.toNat / 2 ^ k % 256 = w.toNat / 2 ^ k % 256 := fun k hk => by
    simpa [BitVec.extractLsb'_toNat, Nat.shiftRight_eq_div_pow] using congrArg BitVec.toNat hk
  have n0 := hbyte 0 h0
  have n1 := hbyte 8 h1
  have n2 := hbyte 16 h2
  have n3 := hbyte 24 h3
  norm_num at n0 n1 n2 n3
  exact BitVec.eq_of_toNat_eq (by omega)

/-- Settles O40: the bytes written, the read back, and the frame. -/
theorem bufferWritesAreLittleEndian : Obligations.BufferWritesAreLittleEndian := by
  intro s off size data hb h
  refine ⟨Memory.writeBytes s.mem off.toNat (writeData data size), State.perform_bufferWrite h data hb, ?_⟩
  rw [State.perform_bufferWrite h data hb]
  generalize ht : ({ s with mem := Memory.writeBytes s.mem off.toNat (writeData data size),
                            replies := .write .okay :: s.replies } : State) = t
  have hmem : t.mem = Memory.writeBytes s.mem off.toNat (writeData data size) := ht ▸ rfl
  have hepoch : ∀ a, t.epochAt a = s.epochAt a := ht ▸ fun _ => rfl
  have hread : t.transact (.read off size) = (.read (t.readBuffer off.toNat size) .okay, t) :=
    t.transact_trueBufferRead off size (h.imp_right fun h => .inl (ht ▸ h))
  cases size with
  | byte =>
    have h0 : t.byteAt off.toNat = data.extractLsb' 0 8 := State.byteAt_of_written (i := 0) hmem rfl
    refine ⟨h0, nofun, fun _ => ⟨fun a ha => ?_, ?_⟩, nofun⟩
    · exact State.byteAt_of_not_written hmem (hepoch a) (by simp only [writeData, List.length_singleton]; omega)
    · rw [hread, State.readBuffer, h0]
  | word =>
    have h0 : t.byteAt off.toNat = data.extractLsb' 0 8 := State.byteAt_of_written (i := 0) hmem rfl
    have h1 : t.byteAt (off.toNat + 1) = data.extractLsb' 8 8 := State.byteAt_of_written hmem rfl
    have h2 : t.byteAt (off.toNat + 2) = data.extractLsb' 16 8 := State.byteAt_of_written hmem rfl
    have h3 : t.byteAt (off.toNat + 3) = data.extractLsb' 24 8 := State.byteAt_of_written hmem rfl
    refine ⟨h0, fun _ => ⟨h1, h2, h3, ?_⟩, nofun, fun _ a ha => ?_⟩
    · obtain ⟨r0, r1, r2, r3⟩ := t.readBuffer_word off.toNat
      rw [hread, Word.eq_of_bytes (r0.trans h0) (r1.trans h1) (r2.trans h2) (r3.trans h3)]
    · exact State.byteAt_of_not_written hmem (hepoch a)
        (by simp only [writeData, List.length_cons, List.length_nil]; omega)

/-! ## The symbol readout (R49) -/

theorem codeValue_concat (code : List Bool) (b : Bool) : codeValue (code ++ [b]) = 2 * codeValue code + b.toNat := by
  rw [codeValue, List.foldl_append]
  rfl

/-- Bit k of a code's number is the k-th bit of the code from its end. -/
theorem testBit_codeValue (code : List Bool) (k : Nat) : (codeValue code).testBit k = (code.reverse[k]?).getD false := by
  induction code using List.reverseRecOn generalizing k with
  | nil => simp [codeValue]
  | append_singleton code b ih =>
    rw [codeValue_concat, List.reverse_append, List.reverse_singleton, List.singleton_append]
    cases k with
    | zero => cases b <;> simp [Nat.testBit_zero, Nat.add_mod]
    | succ k =>
      have hhalf : (2 * codeValue code + b.toNat) / 2 = codeValue code := by
        have hb := b.toNat_le
        omega
      rw [Nat.testBit_succ, hhalf, ih, List.getElem?_cons_succ]

/-- The offset of each of the eight code words names it. -/
theorem regAt_symCodeW (j : Fin 8) :
    (BitVec.ofNat 32 (0x078 + 4 * j.val)).toNat < 0x100 ∧ (BitVec.ofNat 32 (0x078 + 4 * j.val)).toNat % 4 = 0 ∧
      regAt (BitVec.ofNat 32 (0x078 + 4 * j.val)).toNat = .symCodeW j := by
  revert j
  decide

/-- Settles O44: the count, the length, and the code words bit by bit. -/
theorem symbolReadout : Obligations.SymbolReadout := by
  intro s hb
  refine ⟨State.transact_read_row hb (r := .symFreq) (by decide) (by decide) (by decide), fun hlen =>
    ⟨⟨_, State.transact_read_row hb (r := .symCodeLen) (by decide) (by decide) (by decide), ?_⟩, fun j => ?_⟩⟩
  · have hlen' : s.selectedCode.length ≤ 255 := hlen
    rw [State.readReg, BitVec.toNat_setWidth, Byte.toNat_ofNat_of_le hlen', State.selectedCode]
    omega
  · obtain ⟨hlt, h4, hreg⟩ := regAt_symCodeW j
    refine ⟨_, State.transact_read_row hb hlt h4 hreg, fun i hi => ?_⟩
    rw [State.readReg, BitVec.getLsbD_ofNat, decide_eq_true hi, Bool.true_and, Nat.testBit_shiftRight, testBit_codeValue,
      State.selectedCode]

/-! ## The node readout (R50) -/

theorem toNat_nodeInfo_leaf (b : Byte) (w : BitVec 32) : (nodeInfo (some (.leaf b w))).toNat = 3 + 256 * b.toNat := by
  change (0#16 ++ b ++ 0#6 ++ 1#1 ++ 1#1 : BitVec 32).toNat = 3 + 256 * b.toNat
  revert b
  decide +kernel

/-- VALID says that there is a node. -/
theorem nodeInfo_valid (n : Option Node) : (nodeInfo n).getLsbD 0 = n.isSome := by
  rcases n with - | ⟨b, w⟩ | ⟨w, l, r⟩
  · rfl
  · rw [BitVec.getLsbD, toNat_nodeInfo_leaf, Nat.testBit_zero, decide_eq_true (by omega)]
    rfl
  · change (1#32).getLsbD 0 = true
    decide

/-- Settles O45: the valid bit, a leaf, an internal node, no node. -/
theorem nodeReadout : Obligations.NodeReadout := by
  intro s hb
  refine ⟨_, _, _, _, State.transact_read_row hb (r := .nodeInfo) (by decide) (by decide) (by decide),
    State.transact_read_row hb (r := .nodeLeft) (by decide) (by decide) (by decide),
    State.transact_read_row hb (r := .nodeRight) (by decide) (by decide) (by decide),
    State.transact_read_row hb (r := .nodeWeight) (by decide) (by decide) (by decide), ?_, fun b w hn => ?_,
    fun w l r hn => ?_, fun hn => ?_⟩ <;> simp only [State.readReg, State.selectedNode]
  · rw [nodeInfo_valid, isSome_getElem?]
  · rw [hn]
    exact ⟨toNat_nodeInfo_leaf b w, rfl, rfl, rfl⟩
  · rw [hn]
    exact ⟨rfl, BitVec.toNat_setWidth_of_le (by decide), BitVec.toNat_setWidth_of_le (by decide), rfl⟩
  · rw [List.getElem?_eq_none hn]
    exact ⟨rfl, rfl, rfl, rfl⟩

end Sys2Proof.Machine
end
